-- ==== Sys2Proof/Word.lean ====
section
/-! DEFINITION. The 64-bit word of the datapath (00_scope.md rule R6: every register and every intermediate product is
64 bits) and the narrowing of a natural number to it. -/

namespace Sys2Proof

/-- A register, an operand or a command word: 64 bits (00_scope.md R6, 30_encoding.md R80, R82). -/
abbrev Word := BitVec 64

/-- The low 64 bits of a number. The rules compute over the naturals and every value they write is below 2^64
(00_scope.md R8, 40_configuration.md R105), so nothing is lost where the rules apply. -/
abbrev word (n : Nat) : Word := BitVec.ofNat 64 n

end Sys2Proof
end

