-- ==== Sys2Proof/Syntax.lean ====
section
/-! DEFINITION. The eleven commands of the block (30_encoding.md rule R84). No command word carries an operand field
(R81): every operand travels through ARG0 to ARG2, so no constructor has an argument. -/

namespace Sys2Proof

/-- One constructor per row of the opcode map, 30_encoding.md R84. -/
inductive Instr where
  /-- CFG, 0x01, 40_configuration.md R100. -/
  | cfg
  /-- INIT_ENC, 0x02, 42_codec.md R160. -/
  | initEnc
  /-- INIT_DEC, 0x03, 42_codec.md R161. -/
  | initDec
  /-- ENC_SYM, 0x10, 42_codec.md R170. -/
  | encSym
  /-- ENC_FINISH, 0x11, 42_codec.md R171. -/
  | encFinish
  /-- DEC_SYM, 0x20, 42_codec.md R176. -/
  | decSym
  /-- M_PARAMS, 0x30, 40_configuration.md R104. -/
  | mParams
  /-- M_TOTAL, 0x31, 41_model.md R135. -/
  | mTotal
  /-- M_FREQ, 0x32, 41_model.md R136. -/
  | mFreq
  /-- M_SYM, 0x33, 41_model.md R137. -/
  | mSym
  /-- M_TABLE, 0x34, 41_model.md R138. -/
  | mTable
  deriving DecidableEq, Repr

end Sys2Proof
end

