-- ==== Sys2Proof/WellFormed.lean ====
section
/-! DEFINITION. Which terms of the model's inputs are well formed. A command has no field (30_encoding.md R81), so every
`Instr` is; what can be ill formed is a host access, whose three checks stand in Machine/HostPort.lean (`accessWellFormed`,
20_memory.md R62). -/

namespace Sys2Proof

/-- Every command is well formed: its word has no operand field to check (30_encoding.md R81). The match is spelled out
so that a command added to `Instr` must be looked at here. -/
def Instr.wellFormed : Instr → Bool
  | .cfg => true
  | .initEnc => true
  | .initDec => true
  | .encSym => true
  | .encFinish => true
  | .decSym => true
  | .mParams => true
  | .mTotal => true
  | .mFreq => true
  | .mSym => true
  | .mTable => true

end Sys2Proof
end

