-- ==== Sys2Proof/Decode.lean ====
section
/-! DEFINITION. Decoding a command word (30_encoding.md R80, R84 to R87), total on every 64-bit word, and the encoder
written from the same opcode map. -/

namespace Sys2Proof

/-- Why a word is no command (30_encoding.md R85). Both raise InvalidInput(ILLEGAL_COMMAND). -/
inductive DecodeError where
  /-- RSV, bits [63:8], is not 0. -/
  | reservedBits
  /-- RSV is 0 and OPC, bits [7:0], is not in the opcode map. -/
  | undefinedOpcode
  deriving DecidableEq, Repr

/-- The OPC field, bits [7:0] (30_encoding.md R80). -/
def opcField (v : Word) : BitVec 8 := v.extractLsb' 0 8

/-- The RSV field, bits [63:8] (30_encoding.md R80). -/
def rsvField (v : Word) : BitVec 56 := v.extractLsb' 8 56

/-- The opcode map read from OPC to command, 30_encoding.md R84 and R87. -/
def commandOfOpc (opc : Nat) : Option Instr :=
  match opc with
  | 0x01 => some .cfg
  | 0x02 => some .initEnc
  | 0x03 => some .initDec
  | 0x10 => some .encSym
  | 0x11 => some .encFinish
  | 0x20 => some .decSym
  | 0x30 => some .mParams
  | 0x31 => some .mTotal
  | 0x32 => some .mFreq
  | 0x33 => some .mSym
  | 0x34 => some .mTable
  | _ => none

/-- `Decode(v)` of 30_encoding.md R87. -/
def decode (v : Word) : Except DecodeError Instr :=
  if rsvField v = 0#56 then
    match commandOfOpc (opcField v).toNat with
    | some i => .ok i
    | none => .error .undefinedOpcode
  else .error .reservedBits

/-- The OPC of each command, the first column of 30_encoding.md R84. -/
def opcOf : Instr → BitVec 8
  | .cfg => 0x01#8
  | .initEnc => 0x02#8
  | .initDec => 0x03#8
  | .encSym => 0x10#8
  | .encFinish => 0x11#8
  | .decSym => 0x20#8
  | .mParams => 0x30#8
  | .mTotal => 0x31#8
  | .mFreq => 0x32#8
  | .mSym => 0x33#8
  | .mTable => 0x34#8

/-- The command word of a command, `zext_64(OPC)` (30_encoding.md R84). -/
def encode (i : Instr) : Word := (opcOf i).setWidth 64

/-- The 64-bit command word whose low `nbits` bits are `w`'s and whose other bits are 0, numbered as
spec/opcode_table.json numbers them. A command is one 64-bit word (30_encoding.md R86), so bits above 63 do not exist. -/
def tableWord (nbits w : Nat) : Word := word (w % 2 ^ nbits)

/-- The command the decoder reads from a table row's word; none where the decoder refuses it, or where `nbits` is more
than the one length a command has (30_encoding.md R86). -/
def decodeTableWord (nbits w : Nat) : Option Instr :=
  if nbits ≤ 64 then
    match decode (tableWord nbits w) with
    | .ok i => some i
    | .error _ => none
  else none

end Sys2Proof
end

