-- ==== Sys2Proof/Config.lean ====
section
/-! DEFINITION. What an implementation fixes (00_scope.md R6) and the free values. The constants here have no body, so no
proof can learn their values: a statement holds whatever they are. -/

namespace Sys2Proof.Config

/-- `MAX_SYMBOL_BITS - 1`. MAX_SYMBOL_BITS is OPEN, an integer in 1 to 29 (00_scope.md R6, 92_eei_decisions.md D7,
93_implementation_defined.md U9): its type keeps the range and nothing more is known of it. Log entry 9. -/
opaque maxSymbolBitsIndex : Fin 29

/-- `MAX_SYMBOL_BITS`, the largest symbol width the build supports, 1 to 29 (00_scope.md R6). -/
def maxSymbolBits : Nat := maxSymbolBitsIndex.val + 1

/-- The n-th word drawn where the spec leaves a 64-bit value unspecified (10_state.md R42, 20_memory.md R63). A free
value: log entry 7. -/
opaque freeWord : Nat → Word

/-- The n-th bit drawn where the spec leaves PRIMED unspecified (10_state.md R42). A free value: log entry 7. -/
opaque freeBit : Nat → Bool

end Sys2Proof.Config
end

