-- ==== Sys2Proof/Machine/State.lean ====
section
/-! DEFINITION. The architectural state as plain data (10_state.md), the environment the block's ports meet, the reasons a
step can stop, and the state right after reset (10_state.md R41). -/

namespace Sys2Proof.Machine

/-- STATUS.ERR, the three error kinds and OK (60_exceptions.md R200). -/
inductive ErrKind where
  | ok
  | eof
  | invalidInput
  | ioError
  deriving DecidableEq, Repr

/-- STATUS.DETAIL, the cause codes 0 to 10 (60_exceptions.md R201). Codes 11 to 15 are never produced and cannot be
represented. -/
inductive Detail where
  | none
  | illegalCommand
  | badState
  | badParams
  | badVariant
  | badSymbol
  | badValue
  | pendingOverflow
  | sourceExhausted
  | sinkFailed
  | sourceFailed
  deriving DecidableEq, Repr

/-- STATUS.SESS, the session state (10_state.md R29). Values 6 and 7 are never held and cannot be represented
(93_implementation_defined.md U6). -/
inductive Sess where
  | unconf
  | ready
  | enc
  | dec
  | done
  | failed
  deriving DecidableEq, Repr

/-- STATUS.VARIANT, the model variant of the session (10_state.md R30): 0 linear, 1 tree. -/
inductive Variant where
  | linear
  | tree
  deriving DecidableEq, Repr

/-- The parameter registers (10_state.md R21). PARAM packs the three 8-bit widths; CODE_MIN is hardwired 0 (R22) and has
no storage. -/
structure Params where
  /-- PARAM[7:0] SYMBOL_BITS. -/
  symbolBits : BitVec 8
  /-- PARAM[15:8] FREQ_BITS. -/
  freqBits : BitVec 8
  /-- PARAM[23:16] CODE_BITS. -/
  codeBits : BitVec 8
  symbolEof : Word
  symbolCount : Word
  freqMax : Word
  codeMax : Word
  codeOneFourth : Word
  codeHalf : Word
  codeThreeFourths : Word
  deriving DecidableEq, Repr

/-- The model store (20_memory.md R60, R70): no model (93_implementation_defined.md U8), the frequency vector F[0..n-1] of
the linear variant (10_state.md R31), or the nodes Tr[1..n] of the tree variant, node k at list position k - 1
(10_state.md R32). Entries are counts: log entry 14. -/
inductive Store where
  | absent
  | linear (freqs : List Nat)
  | tree (nodes : List Nat)
  deriving DecidableEq, Repr

/-- An event at the bit-sink port: `EmitBit(b)` or `FlushSink()` (00_scope.md R4). -/
inductive SinkEvent where
  | bit (b : Bool)
  | flush
  deriving DecidableEq, Repr

/-- The bit sink's answer to one event (00_scope.md R4). -/
inductive SinkAnswer where
  | ok
  | ioError
  deriving DecidableEq, Repr

/-- The answers the bit sink will give: `queue`, one per event, then `after` to every later event; `after = none` is a
sink that never answers again (20_memory.md R74, 70_reset_and_hazards.md R239). Log entry 3. -/
structure SinkPort where
  queue : List SinkAnswer
  after : Option SinkAnswer
  deriving DecidableEq, Repr

/-- One answer of the bit source before its end: a bit, or IoError (00_scope.md R4). -/
inductive SourceItem where
  | bit (b : Bool)
  | ioError
  deriving DecidableEq, Repr

/-- What the bit source answers once it has nothing more to deliver. -/
inductive SourceEnd where
  | eof
  | ioError
  deriving DecidableEq, Repr

/-- One answer to `SourceBit` (00_scope.md R4). -/
inductive SourceAnswer where
  | bit (b : Bool)
  | eof
  | ioError
  deriving DecidableEq, Repr

/-- The answers the bit source will give: `queue`, one per event, then `after` to every later event; `after = none` is a
source that never answers again. Eof comes only after the queue and stays, which is the source's duty
(20_memory.md R74). Log entry 4. -/
structure SourcePort where
  queue : List SourceItem
  after : Option SourceEnd
  deriving DecidableEq, Repr

/-- What the outside does to the block, one event a step, each served whole before the next (20_memory.md R69). -/
inductive HostEvent where
  /-- The host reads `width` bits at `offset` of the register window (20_memory.md R61, R62). -/
  | read (offset width : Nat)
  /-- The host writes `value` as `width` bits at `offset` (20_memory.md R61, R62). -/
  | write (offset width : Nat) (value : Word)
  /-- Hardware reset, an event between commands (70_reset_and_hazards.md R230). -/
  | reset
  /-- The environment positions the bit source at a stream (70_reset_and_hazards.md R232 point 3, R237). -/
  | setSource (p : SourcePort)
  deriving DecidableEq, Repr

/-- Why a step stops with no next state although the event is one the block has. -/
inductive Fault where
  /-- Raised by ENC_SYM and ENC_FINISH at a port event the bit sink never answers: the command waits for ever
  (70_reset_and_hazards.md R239, 93_implementation_defined.md U13). Safe: nothing can be proved of what follows. -/
  | sinkNeverAnswers
  /-- Raised by DEC_SYM at a port event the bit source never answers (70_reset_and_hazards.md R239). Safe. -/
  | sourceNeverAnswers
  /-- Raised by ENC_SYM and DEC_SYM when a renormalisation loop has taken more scaling steps than any loop in a state the
  rules allow can take (42_codec.md R168: at most CODE_BITS, so at most 61). Reached only from states no run reaches, where
  the loop of the rules need not end. Safe. Log entry 13. -/
  | renormDiverges
  deriving DecidableEq, Repr

/-- Why a step gives an event no meaning. -/
inductive Refusal where
  /-- Answered by `exec` for a command that has no meaning yet, by its mnemonic. No command is left so. Safe. -/
  | notModelled (mnemonic : String)
  /-- Answered by the host port to an access that is not a whole aligned 64-bit access in 0x000 to 0x0F8: the spec gives it
  no step (20_memory.md R62, 93_implementation_defined.md U3). Safe. -/
  | badAccess
  /-- Answered when the environment gives a decode session a new source after the session's source has answered Eof: the
  spec excludes such a source (20_memory.md R74, 93_implementation_defined.md U12). Safe as a refusal; that no such run
  exists is the spec's premise D34. Log entry 4. -/
  | sourceEofBroken
  deriving DecidableEq, Repr

/-- Everything the spec gives the machine (10_state.md), and after it the model's own record of the ports. -/
structure State where
  /-- ARG0 to ARG2, operands (10_state.md R34). -/
  arg0 : Word
  arg1 : Word
  arg2 : Word
  /-- RES0 to RES2, results (10_state.md R35). -/
  res0 : Word
  res1 : Word
  res2 : Word
  /-- STATUS.ERR (10_state.md R37). -/
  err : ErrKind
  /-- STATUS.DETAIL (10_state.md R37). -/
  detail : Detail
  /-- STATUS.SESS (10_state.md R29). -/
  sess : Sess
  /-- STATUS.PRIMED (10_state.md R27). -/
  primed : Bool
  /-- STATUS.VARIANT (10_state.md R30). -/
  variant : Variant
  /-- The parameter registers (10_state.md R21). -/
  par : Params
  /-- LOW (10_state.md R23). -/
  low : Word
  /-- HIGH, inclusive (10_state.md R24). -/
  high : Word
  /-- PENDING (10_state.md R25). -/
  pending : Word
  /-- CODE, the decoder's window (10_state.md R26). -/
  code : Word
  /-- TAIL, the tail bits supplied in this decode session (10_state.md R28). -/
  tail : Word
  /-- The model store; TOTAL is read from it (10_state.md R31 to R33). -/
  store : Store
  /-- The model's own: the outside events to come, oldest first. Log entries 1, 2, 6. -/
  inputs : List HostEvent
  /-- The model's own: the bit sink's answers to come. Log entries 3, 6. -/
  sink : SinkPort
  /-- The model's own: the bit source's answers to come. Log entries 4, 6. -/
  source : SourcePort
  /-- The model's own: the events the bit sink has accepted, in emission order. Log entries 6, 15. -/
  sinkLog : List SinkEvent
  /-- The model's own: the values host reads have returned, in order. Log entries 6, 16. -/
  reads : List Word
  /-- The model's own: how many free values have been drawn. Log entries 6, 7. -/
  draws : Nat
  deriving DecidableEq, Repr

/-- The parameter registers after reset: all 0 (10_state.md R41). -/
def Params.zero : Params where
  symbolBits := 0
  freqBits := 0
  codeBits := 0
  symbolEof := 0
  symbolCount := 0
  freqMax := 0
  codeMax := 0
  codeOneFourth := 0
  codeHalf := 0
  codeThreeFourths := 0

/-- The block right after hardware reset (10_state.md R41). The last six fields are the model's own: log entry 6. -/
def State.reset : State where
  arg0 := 0
  arg1 := 0
  arg2 := 0
  res0 := 0
  res1 := 0
  res2 := 0
  err := .ok
  detail := .none
  sess := .unconf
  primed := false
  variant := .linear
  par := .zero
  low := 0
  high := 0
  pending := 0
  code := 0
  tail := 0
  store := .absent
  inputs := []
  sink := ⟨[], some .ok⟩
  source := ⟨[], some .eof⟩
  sinkLog := []
  reads := []
  draws := 0

end Sys2Proof.Machine
end

