-- ==== Sys2Proof/Machine/Model.lean ====
section
/-! DEFINITION. The adaptive frequency model: the linear variant's scans (41_model.md R127), the tree variant's Fenwick
operations (R128 to R133), and the operations FreqOf, SymOf, Update and Halve over either store (R121 to R125). -/

namespace Sys2Proof.Machine

/-! The linear variant, 41_model.md R127. -/

/-- `LinFreqOf(s)`: the scan that sums the frequencies of the symbols before s into `lo` (41_model.md R127). -/
def linFreqOf : List Nat → Nat → Nat → Nat × Nat
  | [], _, lo => (lo, lo)
  | f :: _, 0, lo => (lo, lo + f)
  | f :: fs, s + 1, lo => linFreqOf fs s (lo + f)

/-- `LinSymOf(v)`: the scan from symbol i with running sum c, stopping at the first symbol where the sum exceeds v
(41_model.md R127). The end of the list is not reached when v is below the total, which the caller checks. -/
def linSymOf : List Nat → Nat → Nat → Nat → Nat × Nat × Nat
  | [], _, i, c => (i, c, c)
  | f :: fs, v, i, c => if v < c + f then (i, c, c + f) else linSymOf fs v (i + 1) (c + f)

/-- `F[s] <- F[s] + 1` (41_model.md R124). -/
def linInc (freqs : List Nat) (s : Nat) : List Nat := freqs.modify s (· + 1)

/-- One entry of `Halve()`: `max(1, F[i] div 2)` (41_model.md R125). -/
def halveEntry (f : Nat) : Nat := max 1 (f / 2)

/-- `Halve()` (41_model.md R125). -/
def linHalve (freqs : List Nat) : List Nat := freqs.map halveEntry

/-! The tree variant, 41_model.md R128 to R133. Node Tr[k] stands at list position k - 1. -/

/-- `lowbit(k) = k AND (-k mod 2^64)` (10_state.md R32). -/
def lowbit (k : Nat) : Nat := k &&& (2 ^ 64 - k)

/-- `Tr[k]`, for k from 1. -/
def treeNode (nodes : List Nat) (k : Nat) : Nat := nodes.getD (k - 1) 0

/-- The loop of `Prefix(k)` from k with sum `acc` (41_model.md R129). The first argument bounds the number of rounds: k
falls in each, so k rounds are enough. -/
def treePrefixLoop (nodes : List Nat) : Nat → Nat → Nat → Nat
  | 0, _, acc => acc
  | r + 1, k, acc => if k = 0 then acc else treePrefixLoop nodes r (k - lowbit k) (acc + treeNode nodes k)

/-- `Prefix(k)`, which is cum(k) (41_model.md R129). -/
def treePrefix (nodes : List Nat) (k : Nat) : Nat := treePrefixLoop nodes k k 0

/-- `TreeF(s) = Prefix(s+1) - Prefix(s)` (41_model.md R129). -/
def treeF (nodes : List Nat) (s : Nat) : Nat := treePrefix nodes (s + 1) - treePrefix nodes s

/-- `TreeFreqOf(s)` (41_model.md R129). -/
def treeFreqOf (nodes : List Nat) (s : Nat) : Nat × Nat :=
  (treePrefix nodes s, treePrefix nodes s + treeF nodes s)

/-- The loop of `TreeInc(s)` from k (41_model.md R130). The first argument bounds the number of rounds: k rises in each and
stops past the last node. -/
def treeIncLoop : Nat → Nat → List Nat → List Nat
  | 0, _, nodes => nodes
  | r + 1, k, nodes =>
    if k ≤ nodes.length then treeIncLoop r (k + lowbit k) (nodes.modify (k - 1) (· + 1)) else nodes

/-- `TreeInc(s)` (41_model.md R130). -/
def treeInc (nodes : List Nat) (s : Nat) : List Nat := treeIncLoop nodes.length (s + 1) nodes

/-- The loop of `TreeSymOf` for the step widths m = 2^(b-1), ..., 2, 1, giving pos and rem (41_model.md R131). -/
def treeSearch (nodes : List Nat) : Nat → Nat → Nat → Nat × Nat
  | 0, pos, rem => (pos, rem)
  | b + 1, pos, rem =>
    if pos + 2 ^ b ≤ nodes.length ∧ treeNode nodes (pos + 2 ^ b) ≤ rem then
      treeSearch nodes b (pos + 2 ^ b) (rem - treeNode nodes (pos + 2 ^ b))
    else treeSearch nodes b pos rem

/-- `TreeSymOf(v)`: the descending search from the largest power of two not above n (41_model.md R131). -/
def treeSymOf (nodes : List Nat) (v : Nat) : Nat × Nat × Nat :=
  let (s, rem) := treeSearch nodes (nodes.length.log2 + 1) 0 v
  (s, v - rem, v - rem + treeF nodes s)

/-- Every frequency the tree represents, recovered by point queries (41_model.md R129, R132). -/
def treeFreqs (nodes : List Nat) : List Nat := (List.range nodes.length).map (treeF nodes)

/-- The node equation of 10_state.md R32: the sum of F[j-1] for j in (k - lowbit(k) + 1) .. k. -/
def nodeSum (freqs : List Nat) (k : Nat) : Nat := ((freqs.drop (k - lowbit k)).take (lowbit k)).sum

/-- The tree of a frequency vector, every node by its equation (10_state.md R32). -/
def treeOf (freqs : List Nat) : List Nat := (List.range freqs.length).map fun j => nodeSum freqs (j + 1)

/-- `TreeRescale()`: recover every F, halve, rebuild (41_model.md R132). -/
def treeRescale (nodes : List Nat) : List Nat := treeOf ((treeFreqs nodes).map halveEntry)

/-- The tree of the initial model: `Tr[k] <- lowbit(k)` (41_model.md R133). -/
def treeInit (n : Nat) : List Nat := (List.range n).map fun j => lowbit (j + 1)

/-! The model of either variant, 41_model.md R121 to R125. -/

/-- `ModelInit(variant)` for n symbols (41_model.md R121, R133). -/
def Store.init (v : Variant) (n : Nat) : Store :=
  match v with
  | .linear => .linear (List.replicate n 1)
  | .tree => .tree (treeInit n)

/-- The frequency vector F the store holds or represents (10_state.md R31, 41_model.md R129). -/
def Store.freqs : Store → List Nat
  | .absent => []
  | .linear fs => fs
  | .tree ns => treeFreqs ns

/-- TOTAL = cum(n), 0 when no model exists (10_state.md R33, 41_model.md R129). -/
def Store.total : Store → Nat
  | .absent => 0
  | .linear fs => fs.sum
  | .tree ns => treePrefix ns ns.length

/-- `FreqOf(s)` for a checked s: (cum(s), cum(s+1)) (41_model.md R122). -/
def Store.freqOf (st : Store) (s : Nat) : Nat × Nat :=
  match st with
  | .absent => (0, 0)
  | .linear fs => linFreqOf fs s 0
  | .tree ns => treeFreqOf ns s

/-- `SymOf(v)` for a checked v: the owner and its range (41_model.md R123). -/
def Store.symOf (st : Store) (v : Nat) : Nat × Nat × Nat :=
  match st with
  | .absent => (0, 0, 0)
  | .linear fs => linSymOf fs v 0 0
  | .tree ns => treeSymOf ns v

/-- `Halve()` in the store's own form (41_model.md R125, R132). -/
def Store.halve : Store → Store
  | .absent => .absent
  | .linear fs => .linear (linHalve fs)
  | .tree ns => .tree (treeRescale ns)

/-- The `+1` of Update in the store's own form (41_model.md R124, R130). -/
def Store.inc (st : Store) (s : Nat) : Store :=
  match st with
  | .absent => .absent
  | .linear fs => .linear (linInc fs s)
  | .tree ns => .tree (treeInc ns s)

/-- `Update(s)`: halve first if one more would pass FREQ_MAX, then count s (41_model.md R124). -/
def Store.update (st : Store) (freqMax s : Nat) : Store :=
  if freqMax < st.total + 1 then st.halve.inc s else st.inc s

end Sys2Proof.Machine
end

