-- ==== Sys2Proof/Machine/Flags.lean ====
section
/-! DEFINITION. The status codes and the STATUS word: 10_state.md R29, R30, R37 and 60_exceptions.md R200, R201. -/

namespace Sys2Proof.Machine

/-- The kind each detail code belongs to (60_exceptions.md R201). -/
def Detail.kind : Detail → ErrKind
  | .none => .ok
  | .illegalCommand => .invalidInput
  | .badState => .invalidInput
  | .badParams => .invalidInput
  | .badVariant => .invalidInput
  | .badSymbol => .invalidInput
  | .badValue => .invalidInput
  | .pendingOverflow => .invalidInput
  | .sourceExhausted => .eof
  | .sinkFailed => .ioError
  | .sourceFailed => .ioError

/-- The number of an error kind in STATUS[1:0] (60_exceptions.md R200). -/
def ErrKind.bits : ErrKind → BitVec 2
  | .ok => 0#2
  | .eof => 1#2
  | .invalidInput => 2#2
  | .ioError => 3#2

/-- The number of a cause code in STATUS[7:4] (60_exceptions.md R201). -/
def Detail.bits : Detail → BitVec 4
  | .none => 0#4
  | .illegalCommand => 1#4
  | .badState => 2#4
  | .badParams => 3#4
  | .badVariant => 4#4
  | .badSymbol => 5#4
  | .badValue => 6#4
  | .pendingOverflow => 7#4
  | .sourceExhausted => 8#4
  | .sinkFailed => 9#4
  | .sourceFailed => 10#4

/-- The number of a session state in STATUS[10:8] (10_state.md R29). -/
def Sess.bits : Sess → BitVec 3
  | .unconf => 0#3
  | .ready => 1#3
  | .enc => 2#3
  | .dec => 3#3
  | .done => 4#3
  | .failed => 5#3

/-- The number of a model variant in STATUS[12] (10_state.md R30). -/
def Variant.bits : Variant → BitVec 1
  | .linear => 0#1
  | .tree => 1#1

/-- The STATUS word, most significant field first: [63:13] 0, VARIANT, PRIMED, SESS, DETAIL, [3:2] 0, ERR
(10_state.md R37). -/
def statusWord (err : ErrKind) (detail : Detail) (sess : Sess) (primed : Bool) (variant : Variant) : Word :=
  0#51 ++ variant.bits ++ BitVec.ofBool primed ++ sess.bits ++ detail.bits ++ 0#2 ++ err.bits

/-- A model exists exactly when SESS is ENC, DEC, DONE or FAILED (10_state.md R31, 41_model.md R139). -/
def Sess.hasModel : Sess → Bool
  | .unconf => false
  | .ready => false
  | .enc => true
  | .dec => true
  | .done => true
  | .failed => true

end Sys2Proof.Machine
end

