-- ==== Sys2Proof/Machine/Ops.lean ====
section
/-! DEFINITION. The named operations the commands share: reporting success and errors (60_exceptions.md R202 to R209, the
block's only form of an exception: there is no trap, no handler and no return, R212), the bit-sink and bit-source events
(00_scope.md R4, R9), and a command's run as a sequence of such steps. -/

namespace Sys2Proof.Machine

/-- The part of a command that runs after its state check: it finishes with a value, raises an error with the cause, or
waits for ever. Each carries the state it has reached, so what was done before an error stays done (60_exceptions.md R206). -/
inductive Run (α : Type) where
  | done (a : α) (s : State)
  | raised (d : Detail) (s : State)
  | stuck (f : Fault)

/-- What follows a finished part; a raise or a wait ends the command at once (60_exceptions.md R202). -/
def Run.bind {α β : Type} (r : Run α) (k : α → State → Run β) : Run β :=
  match r with
  | .done a s => k a s
  | .raised d s => .raised d s
  | .stuck f => .stuck f

/-- The end of a command that reaches `return`: ERR = OK, DETAIL = NONE (60_exceptions.md R209). -/
def State.succeed (s : State) : State := { s with err := .ok, detail := .none }

/-- `raise K(D)` where the error is not session-fatal: only ERR and DETAIL change (60_exceptions.md R202, R204). -/
def State.raise (d : Detail) (s : State) : State := { s with err := d.kind, detail := d }

/-- `raise K(D)` where the error is session-fatal: ERR, DETAIL, SESS = FAILED (60_exceptions.md R202, R203). LOW, HIGH,
PENDING, CODE, TAIL and PRIMED are unspecified afterwards (R205, 10_state.md R42) and become free values; everything else
keeps its value. Log entry 8. -/
def State.raiseFatal (d : Detail) (s : State) : State :=
  { s with
    err := d.kind
    detail := d
    sess := .failed
    low := Config.freeWord s.draws
    high := Config.freeWord (s.draws + 1)
    pending := Config.freeWord (s.draws + 2)
    code := Config.freeWord (s.draws + 3)
    tail := Config.freeWord (s.draws + 4)
    primed := Config.freeBit (s.draws + 5)
    draws := s.draws + 6 }

/-- The outcome of a command whose errors are session-fatal, from the run of its part after the state check
(60_exceptions.md R203, R209). A command that waits for ever has no next state (70_reset_and_hazards.md R239). -/
def Run.settle (r : Run Unit) : Host.Outcome State Fault Refusal :=
  match r with
  | .done _ s => .next s.succeed
  | .raised d s => .next (s.raiseFatal d)
  | .stuck f => .fault f

/-- The sink's next answer and the sink after it; none if it never answers (20_memory.md R74). -/
def SinkPort.answer (p : SinkPort) : Option SinkAnswer × SinkPort :=
  match p.queue with
  | a :: q => (some a, { p with queue := q })
  | [] => (p.after, p)

/-- The source's next answer and the source after it; none if it never answers (20_memory.md R74). -/
def SourcePort.answer (p : SourcePort) : Option SourceAnswer × SourcePort :=
  match p.queue with
  | .bit b :: q => (some (.bit b), { p with queue := q })
  | .ioError :: q => (some .ioError, { p with queue := q })
  | [] =>
    match p.after with
    | some .eof => (some .eof, p)
    | some .ioError => (some .ioError, p)
    | none => (none, p)

/-- One event at the bit-sink port: accepted, or IoError(SINK_FAILED) (00_scope.md R9, 60_exceptions.md R220). -/
def sinkEvent (e : SinkEvent) (s : State) : Run Unit :=
  match s.sink.answer with
  | (some .ok, p) => .done () { s with sink := p, sinkLog := s.sinkLog ++ [e] }
  | (some .ioError, p) => .raised .sinkFailed { s with sink := p }
  | (none, _) => .stuck .sinkNeverAnswers

/-- `EmitBit(b)` (00_scope.md R9). -/
def emitBit (b : Bool) (s : State) : Run Unit := sinkEvent (.bit b) s

/-- `FlushSink()` (00_scope.md R9). -/
def flushSink (s : State) : Run Unit := sinkEvent .flush s

/-- `repeat k times: EmitBit(b)` (00_scope.md R9). -/
def emitMany (b : Bool) : Nat → State → Run Unit
  | 0, s => .done () s
  | k + 1, s => (emitBit b s).bind fun _ s => emitMany b k s

/-- `SourceBit()`: the source's answer (00_scope.md R9). -/
def sourceBit (s : State) : Run SourceAnswer :=
  match s.source.answer with
  | (some a, p) => .done a { s with source := p }
  | (none, _) => .stuck .sourceNeverAnswers

end Sys2Proof.Machine
end

