-- ==== Sys2Proof/Machine/Params.lean ====
section
/-! DEFINITION. The parameter unit: the validity of the widths (40_configuration.md R102), the constants derived from them
(R101), and the implementation parameters the codec uses (00_scope.md R6). -/

namespace Sys2Proof.Machine

/-- HIGH_FILL, the bit shifted into HIGH by every scaling step (00_scope.md R6). -/
def highFill : Nat := 1

/-- TAIL_BUDGET, the past-end bits a decode session may take (00_scope.md R6, 42_codec.md R172). -/
def tailBudget (cb : Nat) : Nat := cb - 2

/-- The largest value of the 64-bit PENDING counter (00_scope.md R6, 42_codec.md R167). -/
def pendingMax : Nat := 2 ^ 64 - 1

/-- `Valid(sb, fb, cb)`: conditions 1, 2, 4, 5 and 6 of 40_configuration.md R102, in that order; condition 3 is what 4 and
5 make exact. -/
def validWidths (sb fb cb : Nat) : Bool :=
  decide (1 ≤ sb) && decide (1 ≤ fb) && decide (1 ≤ cb) && decide (fb + 2 ≤ cb) && decide (cb + fb ≤ 64)
    && decide (sb + 2 ≤ fb) && decide (sb ≤ Config.maxSymbolBits)

/-- The parameter registers for accepted widths (40_configuration.md R101). -/
def Params.derive (sb fb cb : Nat) : Params where
  symbolBits := BitVec.ofNat 8 sb
  freqBits := BitVec.ofNat 8 fb
  codeBits := BitVec.ofNat 8 cb
  symbolEof := word (2 ^ sb)
  symbolCount := word (2 ^ sb + 1)
  freqMax := word (2 ^ fb - 1)
  codeMax := word (2 ^ cb - 1)
  codeOneFourth := word (2 ^ (cb - 2))
  codeHalf := word (2 ^ (cb - 1))
  codeThreeFourths := word (3 * 2 ^ (cb - 2))

/-- The PARAM register: [7:0] SYMBOL_BITS, [15:8] FREQ_BITS, [23:16] CODE_BITS, [63:24] 0 (10_state.md R21). -/
def Params.paramWord (p : Params) : Word := 0#40 ++ p.codeBits ++ p.freqBits ++ p.symbolBits

/-- CODE_MIN, hardwired 0 (10_state.md R22). -/
def codeMin : Word := 0

end Sys2Proof.Machine
end

