-- ==== Sys2Proof/Machine/Codec.lean ====
section
/-! DEFINITION. The codec's datapath: narrowing (42_codec.md R162), the renormalisation bands and scaling step (R164, R166),
the encoder's and the decoder's renormalisation loops (R165, R167, R172, R175), priming (R173) and the decoded value
(R174). Numbers are computed over the naturals and narrowed when a register is written (00_scope.md R8): log entry 12. -/

namespace Sys2Proof.Machine

/-- `HIGH - LOW + 1`, the size of the code range (42_codec.md R162). -/
def codeRange (s : State) : Nat := s.high.toNat - s.low.toNat + 1

/-- `Narrow(sl, sh, T)`: both bounds from the old LOW (42_codec.md R162). -/
def narrow (sl sh t : Nat) (s : State) : State :=
  { s with
    high := word (s.low.toNat + codeRange s * sh / t - 1)
    low := word (s.low.toNat + codeRange s * sl / t) }

/-- What `Band()` answers (42_codec.md R164). -/
inductive Band where
  /-- The low half: HIGH < CODE_HALF. -/
  | e1
  /-- The high half: LOW >= CODE_HALF. -/
  | e2
  /-- The middle band: LOW >= CODE_ONE_FOURTH and HIGH < CODE_THREE_FOURTHS. -/
  | e3
  /-- No band applies. -/
  | none
  deriving DecidableEq, Repr

/-- `Band()`: the first band that applies, in the order E1, E2, E3 (42_codec.md R164). -/
def band (s : State) : Band :=
  if s.high.toNat < s.par.codeHalf.toNat then .e1
  else if s.par.codeHalf.toNat ≤ s.low.toNat then .e2
  else if s.par.codeOneFourth.toNat ≤ s.low.toNat ∧ s.high.toNat < s.par.codeThreeFourths.toNat then .e3
  else .none

/-- `Scale(offset)`: subtract, then double; HIGH_FILL enters HIGH (42_codec.md R166). -/
def scale (offset : Nat) (s : State) : State :=
  { s with
    low := word (2 * (s.low.toNat - offset))
    high := word (2 * (s.high.toNat - offset) + highFill) }

/-- The offset each band scales by: 0 for E1, CODE_HALF for E2, CODE_ONE_FOURTH for E3 (42_codec.md R166). -/
def bandOffset (p : Params) : Band → Nat
  | .e1 => 0
  | .e2 => p.codeHalf.toNat
  | .e3 => p.codeOneFourth.toNat
  | .none => 0

/-- How many rounds a renormalisation loop is followed for: more than the CODE_BITS + 1 <= 62 rounds any loop takes in a
state the rules allow (42_codec.md R168). Log entry 13. -/
def renormFuel : Nat := 64

/-! The encoder. -/

/-- `EmitFollow(b)`: a resolved bit, then PENDING copies of the other bit (42_codec.md R165). -/
def emitFollow (b : Bool) (s : State) : Run Unit :=
  (emitBit b s).bind fun _ s =>
    (emitMany (!b) s.pending.toNat s).bind fun _ s => .done () { s with pending := 0 }

/-- `PENDING <- PENDING + 1`, or PENDING_OVERFLOW at the counter's limit (42_codec.md R167, R171). -/
def incPending (s : State) : Run Unit :=
  if s.pending.toNat = pendingMax then .raised .pendingOverflow s
  else .done () { s with pending := word (s.pending.toNat + 1) }

/-- One round of `EncRenorm()` in a band that applies: the bits it emits or the pending bit it counts, then the scaling
step (42_codec.md R167). -/
def encStep (b : Band) (s : State) : Run Unit :=
  match b with
  | .e1 => (emitFollow false s).bind fun _ s => .done () (scale (bandOffset s.par .e1) s)
  | .e2 => (emitFollow true s).bind fun _ s => .done () (scale (bandOffset s.par .e2) s)
  | .e3 => (incPending s).bind fun _ s => .done () (scale (bandOffset s.par .e3) s)
  | .none => .done () s

/-- `EncRenorm()` for at most the given number of rounds (42_codec.md R167). -/
def encRenormLoop : Nat → State → Run Unit
  | 0, _ => .stuck .renormDiverges
  | k + 1, s =>
    if band s = .none then .done () s
    else (encStep (band s) s).bind fun _ s => encRenormLoop k s

/-- `EncRenorm()` (42_codec.md R167). -/
def encRenorm (s : State) : Run Unit := encRenormLoop renormFuel s

/-! The decoder. -/

/-- `ReadCodeBit()`: a stream bit, or a tail bit 0 after Eof while the tail budget lasts (42_codec.md R172). -/
def readCodeBit (s : State) : Run Bool :=
  (sourceBit s).bind fun a s =>
    match a with
    | .bit b => .done b s
    | .ioError => .raised .sourceFailed s
    | .eof =>
      if s.tail.toNat < tailBudget s.par.codeBits.toNat then
        .done false { s with tail := word (s.tail.toNat + 1) }
      else .raised .sourceExhausted s

/-- `CODE <- 2 * CODE + ReadCodeBit()`, k times (42_codec.md R173). -/
def primeLoop : Nat → State → Run Unit
  | 0, s => .done () s
  | k + 1, s =>
    (readCodeBit s).bind fun b s => primeLoop k { s with code := word (2 * s.code.toNat + b.toNat) }

/-- `Prime()` (42_codec.md R173). -/
def prime (s : State) : Run Unit :=
  if s.primed then .done () s
  else
    (primeLoop s.par.codeBits.toNat { s with code := 0 }).bind fun _ s => .done () { s with primed := true }

/-- The decoded cumulative value `((CODE - LOW + 1) * T - 1) div (HIGH - LOW + 1)` (42_codec.md R174). -/
def decodedValue (t : Nat) (s : State) : Nat :=
  ((s.code.toNat - s.low.toNat + 1) * t - 1) / codeRange s

/-- One round of `DecRenorm()` in a band that applies: read a bit, scale the range, and move CODE with it
(42_codec.md R175). -/
def decStep (b : Band) (s : State) : Run Unit :=
  (readCodeBit s).bind fun bit s =>
    let t := scale (bandOffset s.par b) s
    .done () { t with code := word (2 * (s.code.toNat - bandOffset s.par b) + bit.toNat) }

/-- `DecRenorm()` for at most the given number of rounds (42_codec.md R175). -/
def decRenormLoop : Nat → State → Run Unit
  | 0, _ => .stuck .renormDiverges
  | k + 1, s =>
    if band s = .none then .done () s
    else (decStep (band s) s).bind fun _ s => decRenormLoop k s

/-- `DecRenorm()` (42_codec.md R175). -/
def decRenorm (s : State) : Run Unit := decRenormLoop renormFuel s

/-! The model, as the codec and the model commands update it. -/

/-- `Update(s)` on the machine's store with its FREQ_MAX (41_model.md R124). -/
def updateModel (sym : Nat) (s : State) : State :=
  { s with store := s.store.update s.par.freqMax.toNat sym }

end Sys2Proof.Machine
end

