-- ==== Sys2Proof/Machine/Operands.lean ====
section
/-! DEFINITION. Operands and results: a command reads its operands from ARG0 to ARG2 as whole 64-bit unsigned numbers
(30_encoding.md R82) and writes its results to RES0 to RES2 (R83). There is no other operand form (R81, R89). -/

namespace Sys2Proof.Machine

/-- Operand 0, the whole of ARG0 (30_encoding.md R82). -/
def operand0 (s : State) : Nat := s.arg0.toNat

/-- Operand 1, the whole of ARG1 (30_encoding.md R82). -/
def operand1 (s : State) : Nat := s.arg1.toNat

/-- Operand 2, the whole of ARG2 (30_encoding.md R82). -/
def operand2 (s : State) : Nat := s.arg2.toNat

/-- One result: RES0 (30_encoding.md R83). -/
def State.setRes1 (s : State) (a : Nat) : State := { s with res0 := word a }

/-- Two results: RES0 and RES1 (30_encoding.md R83). -/
def State.setRes2 (s : State) (a b : Nat) : State := { s with res0 := word a, res1 := word b }

/-- Three results: RES0, RES1 and RES2 (30_encoding.md R83). -/
def State.setRes3 (s : State) (a b c : Nat) : State := { s with res0 := word a, res1 := word b, res2 := word c }

end Sys2Proof.Machine
end

