-- ==== Sys2Proof/Machine/Configuration.lean ====
section
/-! DEFINITION. The configuration commands CFG and M_PARAMS (40_configuration.md R100, R103, R104), and the state check of
the model commands (41_model.md R139). -/

namespace Sys2Proof.Machine

/-- `EndSession()`: SESS = READY, no model, the codec registers 0, PRIMED = VARIANT = 0, no port event
(40_configuration.md R103). -/
def endSession (s : State) : State :=
  { s with
    sess := .ready
    store := .absent
    low := 0
    high := 0
    pending := 0
    code := 0
    tail := 0
    primed := false
    variant := .linear }

/-- CFG: check the widths, write the parameter registers, end any session (40_configuration.md R100). -/
def execCfg (s : State) : Host.Outcome State Fault Refusal :=
  if validWidths (operand0 s) (operand1 s) (operand2 s) then
    .next (State.succeed
      (endSession { s with par := Params.derive (operand0 s) (operand1 s) (operand2 s) }))
  else .next (s.raise .badParams)

/-- A model command that passed its state check and its operand check: SESS must name a state with a model, else BAD_STATE
(41_model.md R139). `body` answers the state after success or the cause of an error, which is never session-fatal
(60_exceptions.md R204). -/
def modelCommand (body : State → Except Detail State) (s : State) : Host.Outcome State Fault Refusal :=
  if s.sess.hasModel then
    match body s with
    | .ok t => .next t.succeed
    | .error d => .next (s.raise d)
  else .next (s.raise .badState)

/-- M_PARAMS: the three configured widths (40_configuration.md R104). -/
def execMParams (s : State) : Host.Outcome State Fault Refusal :=
  modelCommand
    (fun s => .ok (s.setRes3 s.par.symbolBits.toNat s.par.freqBits.toNat s.par.codeBits.toNat)) s

end Sys2Proof.Machine
end

