-- ==== Sys2Proof/Machine/ModelCommands.lean ====
section
/-! DEFINITION. The model commands M_TOTAL, M_FREQ, M_SYM and M_TABLE (41_model.md R135 to R139). -/

namespace Sys2Proof.Machine

/-- M_TOTAL: RES0 = TOTAL (41_model.md R135). -/
def execMTotal (s : State) : Host.Outcome State Fault Refusal :=
  modelCommand (fun s => .ok (s.setRes1 s.store.total)) s

/-- M_FREQ: the range of the symbol in ARG0, then one Update of it (41_model.md R136). -/
def execMFreq (s : State) : Host.Outcome State Fault Refusal :=
  modelCommand
    (fun s =>
      if s.par.symbolCount.toNat ≤ operand0 s then .error .badSymbol
      else
        let (lo, hi) := s.store.freqOf (operand0 s)
        .ok ((updateModel (operand0 s) s).setRes2 lo hi)) s

/-- M_SYM: the owner of the value in ARG0 and its range, then one Update of it (41_model.md R137). -/
def execMSym (s : State) : Host.Outcome State Fault Refusal :=
  modelCommand
    (fun s =>
      if s.store.total ≤ operand0 s then .error .badValue
      else
        let (sym, lo, hi) := s.store.symOf (operand0 s)
        .ok ((updateModel sym s).setRes3 sym lo hi)) s

/-- M_TABLE: the range of the symbol in ARG0, the model untouched (41_model.md R138). -/
def execMTable (s : State) : Host.Outcome State Fault Refusal :=
  modelCommand
    (fun s =>
      if s.par.symbolCount.toNat ≤ operand0 s then .error .badSymbol
      else
        let (lo, hi) := s.store.freqOf (operand0 s)
        .ok (s.setRes2 lo hi)) s

end Sys2Proof.Machine
end

