-- ==== Sys2Proof/Machine/Sessions.lean ====
section
/-! DEFINITION. The session commands INIT_ENC and INIT_DEC (42_codec.md R160, R161). -/

namespace Sys2Proof.Machine

/-- The variant an INIT operand names: 0 linear, 1 tree, no other (42_codec.md R160). -/
def variantOfOperand (n : Nat) : Option Variant :=
  match n with
  | 0 => some .linear
  | 1 => some .tree
  | _ => none

/-- The writes INIT_ENC and INIT_DEC share: a fresh model, the whole code range, counters and window cleared, and the
session state of the command (42_codec.md R160, R161). -/
def startSession (kind : Sess) (v : Variant) (s : State) : State :=
  { s with
    variant := v
    store := Store.init v s.par.symbolCount.toNat
    low := codeMin
    high := s.par.codeMax
    pending := 0
    code := 0
    tail := 0
    primed := false
    sess := kind }

/-- The body INIT_ENC and INIT_DEC share: state check, operand check, session start (42_codec.md R160). -/
def initSession (kind : Sess) (s : State) : Host.Outcome State Fault Refusal :=
  if s.sess = .unconf then .next (s.raise .badState)
  else
    match variantOfOperand (operand0 s) with
    | some v => .next (startSession kind v s).succeed
    | none => .next (s.raise .badVariant)

/-- INIT_ENC (42_codec.md R160). -/
def execInitEnc (s : State) : Host.Outcome State Fault Refusal := initSession .enc s

/-- INIT_DEC (42_codec.md R161). -/
def execInitDec (s : State) : Host.Outcome State Fault Refusal := initSession .dec s

end Sys2Proof.Machine
end

