-- ==== Sys2Proof/Machine/Symbols.lean ====
section
/-! DEFINITION. The symbol commands ENC_SYM, ENC_FINISH and DEC_SYM (42_codec.md R170, R171, R176). -/

namespace Sys2Proof.Machine

/-- ENC_SYM after its state check: FreqOf, Narrow by the total before the update, EncRenorm, Update, results
(42_codec.md R170). -/
def encSymBody (s : State) : Run Unit :=
  if s.par.symbolCount.toNat ≤ operand0 s then .raised .badSymbol s
  else
    let sym := operand0 s
    let (sl, sh) := s.store.freqOf sym
    (encRenorm (narrow sl sh s.store.total s)).bind fun _ s =>
      .done () ((updateModel sym s).setRes3 sym sl sh)

/-- ENC_SYM (42_codec.md R170). -/
def execEncSym (s : State) : Host.Outcome State Fault Refusal :=
  if s.sess = .enc then (encSymBody s).settle else .next (s.raise .badState)

/-- ENC_FINISH after its state check: one more pending bit, the quarter bit with its followers, the flush, SESS = DONE
(42_codec.md R171). -/
def encFinishBody (s : State) : Run Unit :=
  (incPending s).bind fun _ s =>
    (emitFollow (decide (s.par.codeOneFourth.toNat ≤ s.low.toNat)) s).bind fun _ s =>
      (flushSink s).bind fun _ s => .done () { s with sess := .done }

/-- ENC_FINISH (42_codec.md R171). -/
def execEncFinish (s : State) : Host.Outcome State Fault Refusal :=
  if s.sess = .enc then (encFinishBody s).settle else .next (s.raise .badState)

/-- The end of DEC_SYM: Update, results, and DONE at SYMBOL_EOF (42_codec.md R176). CODE keeps its value: log entry 24. -/
def decSymEnd (sym sl sh : Nat) (s : State) : State :=
  let t := (updateModel sym s).setRes3 sym sl sh
  if sym = s.par.symbolEof.toNat then { t with sess := .done } else t

/-- DEC_SYM once CODE is primed: the decoded value, its owner, Narrow by the total before the update, DecRenorm, the end
(42_codec.md R174, R176). The BAD_VALUE check of SymOf stays although R181 shows it cannot fail. -/
def decSymPrimed (s : State) : Run Unit :=
  let t := s.store.total
  let v := decodedValue t s
  if t ≤ v then .raised .badValue s
  else
    let (sym, sl, sh) := s.store.symOf v
    (decRenorm (narrow sl sh t s)).bind fun _ s => .done () (decSymEnd sym sl sh s)

/-- DEC_SYM after its state check (42_codec.md R176). -/
def decSymBody (s : State) : Run Unit := (prime s).bind fun _ s => decSymPrimed s

/-- DEC_SYM (42_codec.md R176). -/
def execDecSym (s : State) : Host.Outcome State Fault Refusal :=
  if s.sess = .dec then (decSymBody s).settle else .next (s.raise .badState)

end Sys2Proof.Machine
end

