-- ==== Sys2Proof/Machine/Dispatch.lean ====
section
/-! DEFINITION. One arm per command of the opcode map (30_encoding.md R84): each calls that command's meaning. -/

namespace Sys2Proof.Machine

/-- The effect of one command on the machine (30_encoding.md R84). -/
def exec (i : Instr) (s : State) : Host.Outcome State Fault Refusal :=
  match i with
  | .cfg => Sys2Proof.Machine.execCfg s
  | .initEnc => Sys2Proof.Machine.execInitEnc s
  | .initDec => Sys2Proof.Machine.execInitDec s
  | .encSym => Sys2Proof.Machine.execEncSym s
  | .encFinish => Sys2Proof.Machine.execEncFinish s
  | .decSym => Sys2Proof.Machine.execDecSym s
  | .mParams => Sys2Proof.Machine.execMParams s
  | .mTotal => Sys2Proof.Machine.execMTotal s
  | .mFreq => Sys2Proof.Machine.execMFreq s
  | .mSym => Sys2Proof.Machine.execMSym s
  | .mTable => Sys2Proof.Machine.execMTable s

end Sys2Proof.Machine
end

