-- ==== Sys2Proof/Machine/HostPort.lean ====
section
/-! DEFINITION. The host port: the register map (20_memory.md R61), reads and writes of it (R62 to R65), issuing a command by
a write to CMD (10_state.md R36), hardware reset as an event (70_reset_and_hazards.md R230) and the source being positioned
(R232 point 3). -/

namespace Sys2Proof.Machine

/-- What stands at an offset of the register window (20_memory.md R61). -/
inductive HostReg where
  | cmd
  | arg0
  | arg1
  | arg2
  | res0
  | res1
  | res2
  | status
  | param
  | symbolEof
  | symbolCount
  | freqMax
  | codeMin
  | codeMax
  | codeOneFourth
  | codeHalf
  | codeThreeFourths
  | low
  | high
  | pending
  | code
  | tail
  | total
  | reserved
  deriving DecidableEq, Repr

/-- A host access of `width` bits at `offset` is one the block has: 64 bits wide, at a multiple of 8, in 0x000 to 0x0F8
(20_memory.md R62). -/
def accessWellFormed (offset width : Nat) : Bool :=
  decide (width = 64) && decide (offset % 8 = 0) && decide (offset ≤ 0x0F8)

/-- The register map (20_memory.md R61); every other offset of the window is reserved. -/
def regAt (offset : Nat) : HostReg :=
  match offset with
  | 0x000 => .cmd
  | 0x008 => .arg0
  | 0x010 => .arg1
  | 0x018 => .arg2
  | 0x020 => .res0
  | 0x028 => .res1
  | 0x030 => .res2
  | 0x038 => .status
  | 0x040 => .param
  | 0x048 => .symbolEof
  | 0x050 => .symbolCount
  | 0x058 => .freqMax
  | 0x060 => .codeMin
  | 0x068 => .codeMax
  | 0x070 => .codeOneFourth
  | 0x078 => .codeHalf
  | 0x080 => .codeThreeFourths
  | 0x088 => .low
  | 0x090 => .high
  | 0x098 => .pending
  | 0x0A0 => .code
  | 0x0A8 => .tail
  | 0x0B0 => .total
  | _ => .reserved

/-- The value a register holds for a host read; none where the spec leaves it unspecified: a reserved offset
(20_memory.md R63), and LOW, HIGH, PENDING, CODE and TAIL in SESS = FAILED (10_state.md R42). PRIMED within STATUS in FAILED
is settled by `readStatus`. -/
def regValue (r : HostReg) (s : State) : Option Word :=
  match r with
  | .cmd => some 0
  | .arg0 => some s.arg0
  | .arg1 => some s.arg1
  | .arg2 => some s.arg2
  | .res0 => some s.res0
  | .res1 => some s.res1
  | .res2 => some s.res2
  | .status => some (statusWord s.err s.detail s.sess s.primed s.variant)
  | .param => some s.par.paramWord
  | .symbolEof => some s.par.symbolEof
  | .symbolCount => some s.par.symbolCount
  | .freqMax => some s.par.freqMax
  | .codeMin => some codeMin
  | .codeMax => some s.par.codeMax
  | .codeOneFourth => some s.par.codeOneFourth
  | .codeHalf => some s.par.codeHalf
  | .codeThreeFourths => some s.par.codeThreeFourths
  | .low => if s.sess = .failed then none else some s.low
  | .high => if s.sess = .failed then none else some s.high
  | .pending => if s.sess = .failed then none else some s.pending
  | .code => if s.sess = .failed then none else some s.code
  | .tail => if s.sess = .failed then none else some s.tail
  | .total => some (word s.store.total)
  | .reserved => none

/-- The host receives `v` (20_memory.md R72). Nothing else changes: reads have no side effect (R65). -/
def returnToHost (v : Word) (s : State) : State := { s with reads := s.reads ++ [v] }

/-- A read of an unspecified 64-bit value: a fresh draw (20_memory.md R63, R65, 10_state.md R42). -/
def returnDraw (s : State) : State := returnToHost (Config.freeWord s.draws) { s with draws := s.draws + 1 }

/-- A read of STATUS in SESS = FAILED: PRIMED is a fresh draw, every other field as it stands (10_state.md R42). -/
def returnFailedStatus (s : State) : State :=
  returnToHost (statusWord s.err s.detail s.sess (Config.freeBit s.draws) s.variant) { s with draws := s.draws + 1 }

/-- A host read of a register (20_memory.md R61, R63, R65). -/
def hostRead (r : HostReg) (s : State) : State :=
  if r = .status ∧ s.sess = .failed then returnFailedStatus s
  else
    match regValue r s with
    | some v => returnToHost v s
    | none => returnDraw s

/-- A write to CMD issues the command whose word is `v` (10_state.md R36); a word outside the opcode map raises
ILLEGAL_COMMAND and changes nothing else (30_encoding.md R85, R87). -/
def issue (v : Word) (s : State) : Host.Outcome State Fault Refusal :=
  match decode v with
  | .ok i => exec i s
  | .error _ => .next (s.raise .illegalCommand)

/-- A host write: CMD issues a command, ARG0 to ARG2 take the value, every other register and every reserved offset is
unaffected (20_memory.md R63 to R65). -/
def hostWrite (r : HostReg) (v : Word) (s : State) : Host.Outcome State Fault Refusal :=
  match r with
  | .cmd => issue v s
  | .arg0 => .next { s with arg0 := v }
  | .arg1 => .next { s with arg1 := v }
  | .arg2 => .next { s with arg2 := v }
  | .res0 => .next s
  | .res1 => .next s
  | .res2 => .next s
  | .status => .next s
  | .param => .next s
  | .symbolEof => .next s
  | .symbolCount => .next s
  | .freqMax => .next s
  | .codeMin => .next s
  | .codeMax => .next s
  | .codeOneFourth => .next s
  | .codeHalf => .next s
  | .codeThreeFourths => .next s
  | .low => .next s
  | .high => .next s
  | .pending => .next s
  | .code => .next s
  | .tail => .next s
  | .total => .next s
  | .reserved => .next s

/-- Hardware reset as an event: every register at its reset value, no port event (70_reset_and_hazards.md R230). What
belongs to the outside (the events to come, the ports, what they have received) is not the block's to reset. Log
entry 17. -/
def hardwareReset (s : State) : State :=
  { State.reset with
    inputs := s.inputs
    sink := s.sink
    source := s.source
    sinkLog := s.sinkLog
    reads := s.reads
    draws := s.draws }

/-- The environment positions the source at a stream (70_reset_and_hazards.md R232 point 3, R237). Within a decode session
whose source has answered Eof, which TAIL counts, that would break the source's duty (20_memory.md R74): refused. Log
entry 4. -/
def positionSource (p : SourcePort) (s : State) : Host.Outcome State Fault Refusal :=
  if s.sess = .dec ∧ s.tail ≠ 0 then .refused .sourceEofBroken else .next { s with source := p }

/-- One outside event, served whole (20_memory.md R69). -/
def serve (e : HostEvent) (s : State) : Host.Outcome State Fault Refusal :=
  match e with
  | .read offset width =>
    if accessWellFormed offset width then .next (hostRead (regAt offset) s) else .refused .badAccess
  | .write offset width value =>
    if accessWellFormed offset width then hostWrite (regAt offset) value s else .refused .badAccess
  | .reset => .next (hardwareReset s)
  | .setSource p => positionSource p s

/-- The next outside event, if any; with none the block is idle and its state persists (60_exceptions.md R219). Log
entry 2. -/
def serveNext (s : State) : Host.Outcome State Fault Refusal :=
  match s.inputs with
  | [] => .next s
  | e :: rest => serve e { s with inputs := rest }

/-- `v` written to CMD is the next outside event. -/
def placeCommand (v : Word) (s : State) : State := { s with inputs := .write 0x000 64 v :: s.inputs }

end Sys2Proof.Machine
end

