-- ==== Sys2Proof/Machine/Step.lean ====
section
/-! DEFINITION. One step: the block serves the next outside event (20_memory.md R69), a command being one such event
(10_state.md R36). There is no program counter and no fetch (R20, 20_memory.md R73). Log entries 1, 2. -/

namespace Sys2Proof.Machine

/-- One step of the machine (20_memory.md R69). -/
def step (s : State) : Host.Outcome State Fault Refusal := serveNext s

/-- `s` with the command of a table row as the next outside event: a whole 64-bit write of its word to CMD. Commands come
only this way (10_state.md R36); log entry 1 says how a program comes to run. -/
def State.withFetchWord (s : State) (nbits w : Nat) : State := placeCommand (tableWord nbits w) s

end Sys2Proof.Machine
end

