-- ==== Sys2Proof/Machine/HostPrograms.lean ====
section
/-! DEFINITION. The host's side, as the spec gives it: assembly pseudo-instructions (30_encoding.md R88), the host programs
ENCODE_BYTES (42_codec.md R183) and DECODE_BYTES (R184), and the informative byte form of a stream (20_memory.md R68). Log
entry 20. -/

namespace Sys2Proof.Machine

/-- `WR REG, value`: one whole write at the register's offset (30_encoding.md R88). -/
def wr (offset : Nat) (v : Word) : HostEvent := .write offset 64 v

/-- `RD REG`: one whole read at the register's offset (30_encoding.md R88). -/
def rd (offset : Nat) : HostEvent := .read offset 64

/-- `MNEMONIC a0, a1, a2`: operand ai written to ARGi in order, then the command word to CMD; an omitted operand writes
nothing (30_encoding.md R88). -/
def assemble (i : Instr) (operands : List Word) : List HostEvent :=
  List.zipWith wr [0x008, 0x010, 0x018] operands ++ [wr 0x000 (encode i)]

/-- The events served one after the other, ending at the first that has no next state (20_memory.md R69). -/
def serveAll : List HostEvent → State → Host.Outcome State Fault Refusal
  | [], s => .next s
  | e :: es, s =>
    match serve e s with
    | .next t => serveAll es t
    | .fault f => .fault f
    | .refused r => .refused r

/-- How a host program ends. -/
inductive ProgramEnd where
  /-- The program ran to its end; the bytes it put out. -/
  | finished (output : List (BitVec 8)) (s : State)
  /-- It stopped at a command whose STATUS.ERR is not OK: that error is the program's outcome (42_codec.md R183, R184). -/
  | commandError (output : List (BitVec 8)) (s : State)
  /-- A decoded symbol does not fit in a byte: the host-level outcome InvalidInput (42_codec.md R184). -/
  | hostInvalidInput (output : List (BitVec 8)) (s : State)
  /-- The program is not defined for SYMBOL_BITS < 8 (42_codec.md R183, 93_implementation_defined.md U18). -/
  | undefinedProgram
  /-- The block never completed a command, or had no step for an access. -/
  | stopped
  /-- The loop was followed for the given number of rounds and has not ended. -/
  | unfinished (output : List (BitVec 8)) (s : State)
  deriving DecidableEq, Repr

/-- Commands issued one after the other, stopping at the first that reports an error (30_encoding.md R88). -/
def runCommands : List (Instr × List Word) → State → ProgramEnd
  | [], s => .finished [] s
  | (i, operands) :: rest, s =>
    match serveAll (assemble i operands) s with
    | .next t => if t.err = .ok then runCommands rest t else .commandError [] t
    | .fault _ => .stopped
    | .refused _ => .stopped

/-- The commands ENCODE_BYTES expands to (30_encoding.md R88). -/
def encodeBytesCommands (bytes : List (BitVec 8)) (s : State) : List (Instr × List Word) :=
  bytes.map (fun b => (Instr.encSym, [b.setWidth 64])) ++ [(.encSym, [s.par.symbolEof]), (.encFinish, [])]

/-- ENCODE_BYTES, in an encode session (42_codec.md R183). -/
def encodeBytes (bytes : List (BitVec 8)) (s : State) : ProgramEnd :=
  if s.par.symbolBits.toNat < 8 then .undefinedProgram else runCommands (encodeBytesCommands bytes s) s

/-- DECODE_BYTES, in a decode session, for at most the given number of rounds: each issues DEC_SYM and reads STATUS and
RES0; an error ends it, SYMBOL_EOF ends it with success, any other symbol is one output byte (42_codec.md R184). -/
def decodeBytesLoop : Nat → List (BitVec 8) → State → ProgramEnd
  | 0, out, s => .unfinished out s
  | k + 1, out, s =>
    match serveAll (assemble .decSym [] ++ [rd 0x038, rd 0x020]) s with
    | .next t =>
      let status := t.reads.getD s.reads.length 0
      let res0 := t.reads.getD (s.reads.length + 1) 0
      if status.extractLsb' 0 2 ≠ 0#2 then .commandError out t
      else if res0 = t.par.symbolEof then .finished out t
      else if 255 < res0.toNat then .hostInvalidInput out t
      else decodeBytesLoop k (out ++ [res0.setWidth 8]) t
    | .fault _ => .stopped
    | .refused _ => .stopped

/-- DECODE_BYTES (42_codec.md R184), followed for `rounds` rounds (log entry 20). -/
def decodeBytes (rounds : Nat) (s : State) : ProgramEnd :=
  if s.par.symbolBits.toNat < 8 then .undefinedProgram else decodeBytesLoop rounds [] s

/-! The byte form of a stream, 20_memory.md R68: informative, it does not bind the block. -/

/-- The bits the sink has accepted, in emission order (20_memory.md R67). -/
def sinkBits (log : List SinkEvent) : List Bool :=
  log.filterMap fun e =>
    match e with
    | .bit b => some b
    | .flush => none

/-- Eight bits as a byte, the first at bit 7 (20_memory.md R68). -/
def byteOfBits (bits : List Bool) : BitVec 8 :=
  BitVec.ofNat 8 (bits.foldl (fun n b => 2 * n + b.toNat) 0)

/-- A bit sequence as bytes, the last padded with 0 bits (20_memory.md R68). -/
def packBits : List Bool → List (BitVec 8)
  | a :: b :: c :: d :: e :: f :: g :: h :: rest => byteOfBits [a, b, c, d, e, f, g, h] :: packBits rest
  | [] => []
  | short => [byteOfBits ((short ++ List.replicate 7 false).take 8)]

/-- A byte as eight bits, bit 7 first (20_memory.md R68). -/
def bitsOfByte (b : BitVec 8) : List Bool := (List.range 8).map fun i => b.getLsbD (7 - i)

/-- A source that delivers the bits of `bytes` and then Eof for ever (20_memory.md R68, R74). -/
def sourceOfBytes (bytes : List (BitVec 8)) : SourcePort where
  queue := (bytes.flatMap bitsOfByte).map SourceItem.bit
  after := some .eof

end Sys2Proof.Machine
end

