-- ==== Sys2Proof/Safety.lean ====
section
/-! DEFINITION. The terms the statements use: the invariants the spec promises (10_state.md R38 to R40 and what they rest on),
and the rules' own relations written without the machine's loops: the cumulative frequency, the scaling steps of a
renormalisation, the bits an encoder emits along them and the bits a decoder takes. -/

namespace Sys2Proof.Machine

/-! The model, 41_model.md. -/

/-- `cum(s) = F[0] + ... + F[s-1]` (41_model.md R120). -/
def cum (freqs : List Nat) (s : Nat) : Nat := (freqs.take s).sum

/-- The store of a variant that holds or represents the frequency vector F (10_state.md R31, R32). -/
def Store.ofFreqs (v : Variant) (freqs : List Nat) : Store :=
  match v with
  | .linear => .linear freqs
  | .tree => .tree (treeOf freqs)

/-- `Update(s)` on the frequency vector itself (41_model.md R124, R125). -/
def updateFreqs (freqMax s : Nat) (freqs : List Nat) : List Nat :=
  if freqMax < freqs.sum + 1 then linInc (linHalve freqs) s else linInc freqs s

/-! Invariants. -/

/-- The parameter registers hold the constants of accepted widths (40_configuration.md R101, R102). -/
def Configured (s : State) : Prop :=
  validWidths s.par.symbolBits.toNat s.par.freqBits.toNat s.par.codeBits.toNat = true
    ∧ s.par = Params.derive s.par.symbolBits.toNat s.par.freqBits.toNat s.par.codeBits.toNat

/-- The store is of the session's variant, holds one entry per symbol, and its F meets the laws of the model
(10_state.md R31, R39, 41_model.md R126). -/
def ModelOk (s : State) : Prop :=
  s.store = Store.ofFreqs s.variant s.store.freqs
    ∧ s.store.freqs.length = s.par.symbolCount.toNat
    ∧ (∀ f ∈ s.store.freqs, 1 ≤ f)
    ∧ s.store.freqs.sum ≤ s.par.freqMax.toNat

/-- `CODE_MIN <= LOW <= HIGH <= CODE_MAX`, with no band left to scale (10_state.md R38, 42_codec.md R168). -/
def RangeOk (s : State) : Prop :=
  s.low.toNat ≤ s.high.toNat ∧ s.high.toNat ≤ s.par.codeMax.toNat ∧ band s = .none

/-- In a decode session PENDING is 0 and TAIL is within its budget; CODE lies in the range once primed, and before priming
the session is as INIT_DEC left it (10_state.md R25, R26, R28, R40). -/
def WindowOk (s : State) : Prop :=
  s.pending = 0 ∧ s.tail.toNat ≤ tailBudget s.par.codeBits.toNat
    ∧ (s.primed = true → s.low.toNat ≤ s.code.toNat ∧ s.code.toNat ≤ s.high.toNat)
    ∧ (s.primed = false → s.code = 0 ∧ s.tail = 0 ∧ s.low = 0 ∧ s.high = s.par.codeMax)

/-- ERR is the kind of DETAIL (60_exceptions.md R201). -/
def StatusInv (s : State) : Prop := s.err = s.detail.kind

/-- The parameter registers are all 0 before the first successful CFG and hold accepted widths' constants after it
(10_state.md R21, R29, R41). -/
def ParamInv (s : State) : Prop :=
  (s.sess = .unconf → s.par = Params.zero) ∧ (s.sess ≠ .unconf → Configured s)

/-- With no session, no model exists and the codec registers read 0 (10_state.md R23, R24, R30, R31, R33,
40_configuration.md R103). -/
def IdleInv (s : State) : Prop :=
  s.sess.hasModel = false →
    s.store = .absent ∧ s.low = 0 ∧ s.high = 0 ∧ s.pending = 0 ∧ s.code = 0 ∧ s.tail = 0
      ∧ s.primed = false ∧ s.variant = .linear

/-- Whenever a model exists it meets the model invariant (10_state.md R39). -/
def ModelInv (s : State) : Prop := s.sess.hasModel = true → ModelOk s

/-- In ENC, DEC and DONE the range invariant holds (10_state.md R38). -/
def RangeInv (s : State) : Prop := s.sess = .enc ∨ s.sess = .dec ∨ s.sess = .done → RangeOk s

/-- In DEC the decoder invariant holds; in ENC the decoder's registers are clear (10_state.md R26 to R28, R40). -/
def WindowInv (s : State) : Prop :=
  (s.sess = .dec → WindowOk s)
    ∧ (s.sess = .enc → s.code = 0 ∧ s.tail = 0 ∧ s.primed = false)

/-- Everything the spec promises between commands. -/
def Inv (s : State) : Prop :=
  StatusInv s ∧ ParamInv s ∧ IdleInv s ∧ ModelInv s ∧ RangeInv s ∧ WindowInv s

/-! Renormalisation as a relation on the bounds, 42_codec.md R164, R166. -/

/-- The band that applies to the bounds `[lo, hi]` (42_codec.md R164). -/
def bandOf (p : Params) (lo hi : Nat) : Band :=
  if hi < p.codeHalf.toNat then .e1
  else if p.codeHalf.toNat ≤ lo then .e2
  else if p.codeOneFourth.toNat ≤ lo ∧ hi < p.codeThreeFourths.toNat then .e3
  else .none

/-- Scaling `[lo, hi]` in the listed bands, each the one that applies, ends at `[lo', hi']`, where none applies
(42_codec.md R164, R166, R167, R175). -/
inductive ScalesTo (p : Params) : Nat → Nat → List Band → Nat → Nat → Prop where
  | stop {lo hi : Nat} : bandOf p lo hi = .none → ScalesTo p lo hi [] lo hi
  | step {lo hi lo' hi' : Nat} {b : Band} {bs : List Band} :
      bandOf p lo hi = b → b ≠ .none →
      ScalesTo p (2 * (lo - bandOffset p b)) (2 * (hi - bandOffset p b) + 1) bs lo' hi' →
      ScalesTo p lo hi (b :: bs) lo' hi'

/-- The bounds Narrow gives for the range `[sl, sh)` of the total t (42_codec.md R162). -/
def narrowLow (s : State) (sl t : Nat) : Nat := s.low.toNat + (s.high.toNat - s.low.toNat + 1) * sl / t

/-- The upper bound Narrow gives (42_codec.md R162). -/
def narrowHigh (s : State) (sh t : Nat) : Nat := s.low.toNat + (s.high.toNat - s.low.toNat + 1) * sh / t - 1

/-! The encoder along a list of bands, 42_codec.md R165, R167. -/

/-- The bits emitted from PENDING = pend along the bands, and PENDING after them (42_codec.md R165, R167). -/
def scaleBits : Nat → List Band → List Bool × Nat
  | pend, [] => ([], pend)
  | pend, .e1 :: bs => (false :: List.replicate pend true ++ (scaleBits 0 bs).1, (scaleBits 0 bs).2)
  | pend, .e2 :: bs => (true :: List.replicate pend false ++ (scaleBits 0 bs).1, (scaleBits 0 bs).2)
  | pend, .e3 :: bs => scaleBits (pend + 1) bs
  | pend, .none :: bs => scaleBits pend bs

/-- No E3 step along the bands meets PENDING at its limit (42_codec.md R167). -/
def pendingFits : Nat → List Band → Bool
  | _, [] => true
  | _, .e1 :: bs => pendingFits 0 bs
  | _, .e2 :: bs => pendingFits 0 bs
  | pend, .e3 :: bs => decide (pend < pendingMax) && pendingFits (pend + 1) bs
  | pend, .none :: bs => pendingFits pend bs

/-- The sink answers ok to its next k events. -/
def SinkPort.acceptsNext : Nat → SinkPort → Bool
  | 0, _ => true
  | k + 1, p =>
    match p.answer with
    | (some .ok, q) => acceptsNext k q
    | _ => false

/-- The sink after k answers. -/
def SinkPort.dropAnswers (k : Nat) (p : SinkPort) : SinkPort := { p with queue := p.queue.drop k }

/-! The decoder along a list of bands, 42_codec.md R172 to R175. -/

/-- The bits at the head of the source's answers. -/
def leadingBits : List SourceItem → List Bool
  | .bit b :: q => b :: leadingBits q
  | .ioError :: _ => []
  | [] => []

/-- The bits the coming ReadCodeBits give: the source's bits, then, if Eof follows them, a 0 for each unit of tail budget
left (42_codec.md R172). -/
def codeBits (s : State) : List Bool :=
  leadingBits s.source.queue ++
    (if (leadingBits s.source.queue).length = s.source.queue.length ∧ s.source.after = some .eof then
      List.replicate (tailBudget s.par.codeBits.toNat - s.tail.toNat) false
    else [])

/-- The source and TAIL after k ReadCodeBits that each gave a bit (42_codec.md R172). -/
def afterCodeBits (k : Nat) (s : State) : State :=
  { s with
    source := { s.source with queue := s.source.queue.drop k }
    tail := word (s.tail.toNat + (k - s.source.queue.length)) }

/-- CODE after shifting the bits in from c, first bit most significant (42_codec.md R173, 20_memory.md R67). -/
def shiftIn (c : Nat) (bits : List Bool) : Nat := bits.foldl (fun c b => 2 * c + b.toNat) c

/-- CODE after the scaling steps in the listed bands, each taking one bit (42_codec.md R175). -/
def windowAfter (p : Params) : Nat → List Band → List Bool → Nat
  | c, b :: bs, bit :: bits => windowAfter p (2 * (c - bandOffset p b) + bit.toNat) bs bits
  | c, _, _ => c

/-- How many ReadCodeBits priming makes: CODE_BITS on the session's first DEC_SYM, else none (42_codec.md R173). -/
def primeBits (s : State) : Nat := if s.primed = true then 0 else s.par.codeBits.toNat

/-- CODE once primed (42_codec.md R173). -/
def primedCode (s : State) : Nat :=
  if s.primed = true then s.code.toNat else shiftIn 0 ((codeBits s).take s.par.codeBits.toNat)

/-! Sequences of commands, for the rules about whole sessions. -/

/-- The results RES0 to RES2 after each command of a sequence, and the state at its end; none if a command has no next
state or reports an error (42_codec.md R180). -/
def traceCommands : List (Instr × List Word) → State → Option (List (Word × Word × Word) × State)
  | [], s => some ([], s)
  | (i, operands) :: rest, s =>
    match serveAll (assemble i operands) s with
    | .next t =>
      if t.err = .ok then
        match traceCommands rest t with
        | some (rs, u) => some ((t.res0, t.res1, t.res2) :: rs, u)
        | none => none
      else none
    | .fault _ => none
    | .refused _ => none

/-- An encode session: the symbols, then SYMBOL_EOF, then the flush (42_codec.md R180). -/
def encodeSession (v eof : Word) (symbols : List Word) : List (Instr × List Word) :=
  (Instr.initEnc, [v]) :: symbols.map (fun x => (Instr.encSym, [x])) ++ [(.encSym, [eof]), (.encFinish, [])]

/-- A decode session of k symbols (42_codec.md R180). -/
def decodeSession (v : Word) (k : Nat) : List (Instr × List Word) :=
  (Instr.initDec, [v]) :: List.replicate k (Instr.decSym, [])

/-- Two states that differ at most in the model variant and the form of the store, and represent the same F
(41_model.md R134, 42_codec.md R182). -/
def SameButVariant (s t : State) : Prop :=
  t = { s with variant := t.variant, store := t.store }
    ∧ s.store.freqs = t.store.freqs

end Sys2Proof.Machine
end

