-- ==== Sys2Proof/Certificates/Slice0/Obligations.lean ====
section
/-! DEFINITION. The statements for the provers, from the numbered rules of spec/ file by file. `Inv` (Safety.lean) is the
premise that rules out states no run reaches; that it holds at reset and that every step keeps it are statements of their
own. -/

open Sys2Proof Sys2Proof.Machine

/-! Encoding, 30_encoding.md. -/

/-- 30_encoding.md R84: each command's word is `zext_64(OPC)`, and it decodes to that command, from the word and from the
opcode table's row. -/
def Obligations.DecodeEncodeRoundTrip : Prop :=
  ∀ i : Instr, i.wellFormed = true →
    decode (encode i) = .ok i ∧ decodeTableWord 64 (encode i).toNat = some i

/-- 30_encoding.md R85, R87: a word decodes to a command exactly when it is that command's word, so every other 64-bit word
is illegal. -/
def Obligations.OnlyTheOpcodeMapDecodes : Prop :=
  ∀ (v : Word) (i : Instr), decode v = .ok i ↔ v = encode i

/-- spec/opcode_table.json and 95_test_vectors.md section 2.7: words written out, and the command or refusal each is. -/
def Obligations.WrittenWordsDecode : Prop :=
  decode 0x0000000000000001#64 = .ok .cfg ∧ decode 0x0000000000000003#64 = .ok .initDec
    ∧ decode 0x0000000000000010#64 = .ok .encSym ∧ decode 0x0000000000000033#64 = .ok .mSym
    ∧ decode 0x0000000000000000#64 = .error .undefinedOpcode ∧ decode 0x00000000000000FF#64 = .error .undefinedOpcode
    ∧ decode 0x0000000000000110#64 = .error .reservedBits ∧ decode 0x8000000000000001#64 = .error .reservedBits

/-! The host port, 20_memory.md and 10_state.md. -/

/-- 10_state.md R36, 20_memory.md R69: when the next outside event is a write of a command's word to CMD, the step is that
command's effect, on the state from which the event has been taken. -/
def Obligations.StepRunsTheDecodedCommand : Prop :=
  ∀ (s : State) (v : Word) (rest : List HostEvent) (i : Instr),
    s.inputs = .write 0x000 64 v :: rest → decode v = .ok i →
      step s = exec i { s with inputs := rest }

/-- 30_encoding.md R85: a word that is no command's changes nothing but STATUS.ERR and STATUS.DETAIL (and takes the event). -/
def Obligations.IllegalWordOnlyReports : Prop :=
  ∀ (s : State) (v : Word) (rest : List HostEvent),
    s.inputs = .write 0x000 64 v :: rest → (∀ i : Instr, v ≠ encode i) →
      step s = .next { s with inputs := rest, err := .invalidInput, detail := .illegalCommand }

/-- 20_memory.md R62: an access that is not whole, aligned and within 0x000 to 0x0F8 is refused, read or write; no other
access is refused for its form. -/
def Obligations.OnlyWholeAlignedAccesses : Prop :=
  ∀ (s : State) (rest : List HostEvent) (off width : Nat) (v : Word),
    (¬(width = 64 ∧ off % 8 = 0 ∧ off ≤ 0x0F8) →
      (s.inputs = .read off width :: rest → step s = .refused .badAccess)
        ∧ (s.inputs = .write off width v :: rest → step s = .refused .badAccess))
    ∧ (width = 64 ∧ off % 8 = 0 ∧ off ≤ 0x0F8 →
      s.inputs = .read off width :: rest ∨ s.inputs = .write off width v :: rest → step s ≠ .refused .badAccess)

/-- 20_memory.md R63, R64, R65: a write to ARG0, ARG1 or ARG2 changes that register alone; a write to a read-only register or
a reserved offset has no effect. -/
def Obligations.HostWritesReachOnlyArgs : Prop :=
  ∀ (s : State) (rest : List HostEvent) (off : Nat) (v : Word),
    s.inputs = .write off 64 v :: rest → off % 8 = 0 → off ≤ 0x0F8 → off ≠ 0x000 →
      step s = .next
        (if off = 0x008 then { s with inputs := rest, arg0 := v }
        else if off = 0x010 then { s with inputs := rest, arg1 := v }
        else if off = 0x018 then { s with inputs := rest, arg2 := v }
        else { s with inputs := rest })

/-- 20_memory.md R61: what a read of each offset of the map returns, with no side effect (R65). CMD, ARG0 to ARG2, RES0 to
RES2, the parameter registers and TOTAL return their value in every session state; LOW, HIGH, PENDING, CODE, TAIL and STATUS
do when SESS is not FAILED (10_state.md R42; UnspecifiedReadsAreDraws gives them in FAILED). That the returned values are
recorded in a field is the model's choice, log entry 16. -/
def Obligations.HostReadsFollowTheMap : Prop :=
  ∀ (s : State) (rest : List HostEvent) (off : Nat) (v : Word), s.inputs = .read off 64 :: rest →
    ((off, v) ∈ [(0x000, 0), (0x008, s.arg0), (0x010, s.arg1), (0x018, s.arg2), (0x020, s.res0), (0x028, s.res1),
        (0x030, s.res2), (0x040, s.par.paramWord), (0x048, s.par.symbolEof), (0x050, s.par.symbolCount),
        (0x058, s.par.freqMax), (0x060, 0), (0x068, s.par.codeMax), (0x070, s.par.codeOneFourth),
        (0x078, s.par.codeHalf), (0x080, s.par.codeThreeFourths), (0x0B0, word s.store.total)] →
      step s = .next { s with inputs := rest, reads := s.reads ++ [v] })
    ∧ (s.sess ≠ .failed →
      (off, v) ∈ [(0x038, statusWord s.err s.detail s.sess s.primed s.variant), (0x088, s.low), (0x090, s.high),
          (0x098, s.pending), (0x0A0, s.code), (0x0A8, s.tail)] →
        step s = .next { s with inputs := rest, reads := s.reads ++ [v] })

/-- 10_state.md R37, R21, R29, R30, 60_exceptions.md R200, R201: the fields of STATUS and of PARAM stand at their bits, every
other bit reads 0, and every error kind, cause, session state and variant has the number the spec gives it. -/
def Obligations.StatusAndParamFields : Prop :=
  (∀ (e : ErrKind) (d : Detail) (ss : Sess) (p : Bool) (v : Variant),
    (statusWord e d ss p v).toNat
      = (match e with | .ok => 0 | .eof => 1 | .invalidInput => 2 | .ioError => 3)
        + 16 * (match d with
          | .none => 0 | .illegalCommand => 1 | .badState => 2 | .badParams => 3 | .badVariant => 4 | .badSymbol => 5
          | .badValue => 6 | .pendingOverflow => 7 | .sourceExhausted => 8 | .sinkFailed => 9 | .sourceFailed => 10)
        + 256 * (match ss with | .unconf => 0 | .ready => 1 | .enc => 2 | .dec => 3 | .done => 4 | .failed => 5)
        + 2048 * (match p with | false => 0 | true => 1)
        + 4096 * (match v with | .linear => 0 | .tree => 1))
  ∧ ∀ p : Params,
    p.paramWord.toNat = p.symbolBits.toNat + 256 * p.freqBits.toNat + 65536 * p.codeBits.toNat

/-- 10_state.md R42, 20_memory.md R63: a read of a reserved offset in any state, and of LOW, HIGH, PENDING, CODE or TAIL in
FAILED, returns a draw; a read of STATUS in FAILED returns every field but PRIMED as it stands and draws PRIMED. That a draw
is `Config.freeWord` or `Config.freeBit` of a counter which each read advances by one, and that STATUS draws one bit, is the
model's choice: log entry 7. -/
def Obligations.UnspecifiedReadsAreDraws : Prop :=
  ∀ (s : State) (rest : List HostEvent) (off : Nat),
    s.inputs = .read off 64 :: rest → off % 8 = 0 → off ≤ 0x0F8 →
      (0x0B8 ≤ off ∨ (s.sess = .failed ∧ 0x088 ≤ off ∧ off ≤ 0x0A8) →
        step s = .next { s with
          inputs := rest, reads := s.reads ++ [Config.freeWord s.draws], draws := s.draws + 1 })
      ∧ (s.sess = .failed → off = 0x038 →
        step s = .next { s with
          inputs := rest
          reads := s.reads ++ [statusWord s.err s.detail .failed (Config.freeBit s.draws) s.variant]
          draws := s.draws + 1 })

/-- 10_state.md R33: TOTAL reads cum(n), between n and FREQ_MAX, when a model exists, and 0 when none does. -/
def Obligations.TotalReadsCumulativeSum : Prop :=
  ∀ (s : State) (rest : List HostEvent), Inv s → s.inputs = .read 0x0B0 64 :: rest →
    (s.sess.hasModel = true →
      step s = .next { s with
        inputs := rest, reads := s.reads ++ [word (cum s.store.freqs s.par.symbolCount.toNat)] }
      ∧ s.par.symbolCount.toNat ≤ cum s.store.freqs s.par.symbolCount.toNat
      ∧ cum s.store.freqs s.par.symbolCount.toNat ≤ s.par.freqMax.toNat)
    ∧ (s.sess.hasModel = false → step s = .next { s with inputs := rest, reads := s.reads ++ [0] })

/-- 20_memory.md R65: a host read changes no state of the block: of the model's fields only the record of returned values
and the draw counter (and the event taken). -/
def Obligations.HostReadFrame : Prop :=
  ∀ (s t : State) (rest : List HostEvent) (off width : Nat),
    s.inputs = .read off width :: rest → step s = .next t →
      t = { s with inputs := rest, reads := t.reads, draws := t.draws }
        ∧ ∃ v : Word, t.reads = s.reads ++ [v]

/-! Reset, 10_state.md R41 and 70_reset_and_hazards.md. -/

/-- 10_state.md R41: the block right after reset; no statement rests on the model's own fields there. -/
def Obligations.ResetValues : Prop :=
  State.reset.arg0 = 0 ∧ State.reset.arg1 = 0 ∧ State.reset.arg2 = 0
    ∧ State.reset.res0 = 0 ∧ State.reset.res1 = 0 ∧ State.reset.res2 = 0
    ∧ statusWord State.reset.err State.reset.detail State.reset.sess State.reset.primed State.reset.variant = 0
    ∧ State.reset.par = Params.zero ∧ State.reset.low = 0 ∧ State.reset.high = 0 ∧ State.reset.pending = 0
    ∧ State.reset.code = 0 ∧ State.reset.tail = 0 ∧ State.reset.store = .absent ∧ State.reset.store.total = 0

/-- 70_reset_and_hazards.md R230: the reset event puts every register of the block into its reset state and issues no port
event (the sink, the source, the sink's record and the host's record stay); log entry 17 for what belongs to the outside. -/
def Obligations.ResetEvent : Prop :=
  ∀ (s : State) (rest : List HostEvent), s.inputs = .reset :: rest →
    step s = .next
      { State.reset with
        inputs := rest, sink := s.sink, source := s.source, sinkLog := s.sinkLog, reads := s.reads, draws := s.draws }

/-- 60_exceptions.md R219: with no outside event the block is idle and all of its state persists (log entry 2). -/
def Obligations.IdleStateSteps : Prop :=
  ∀ s : State, s.inputs = [] → step s = .next s

/-- 70_reset_and_hazards.md R231 (the spec's own inference): with SESS = UNCONF every command but CFG reports BAD_STATE, by the
state check of its own rule, and changes nothing else (60_exceptions.md R204). -/
def Obligations.OnlyCfgSucceedsUnconfigured : Prop :=
  ∀ (s : State) (i : Instr), s.sess = .unconf → i ≠ .cfg →
    exec i s = .next { s with err := .invalidInput, detail := .badState }

/-! Configuration, 40_configuration.md. -/

/-- 40_configuration.md R100, R101, R103: CFG with valid widths writes every parameter register and ends any session, with no
port event; with invalid widths it changes only ERR and DETAIL. The widths are the whole 64-bit operands. -/
def Obligations.CfgConfiguresOrRejects : Prop :=
  ∀ s : State,
    let sb := s.arg0.toNat
    let fb := s.arg1.toNat
    let cb := s.arg2.toNat
    (1 ≤ sb ∧ 1 ≤ fb ∧ 1 ≤ cb ∧ fb + 2 ≤ cb ∧ cb + fb ≤ 64 ∧ sb + 2 ≤ fb ∧ sb ≤ Config.maxSymbolBits →
      exec .cfg s = .next { s with
        par :=
          { symbolBits := BitVec.ofNat 8 sb, freqBits := BitVec.ofNat 8 fb, codeBits := BitVec.ofNat 8 cb
            symbolEof := word (2 ^ sb), symbolCount := word (2 ^ sb + 1), freqMax := word (2 ^ fb - 1)
            codeMax := word (2 ^ cb - 1), codeOneFourth := word (2 ^ (cb - 2)), codeHalf := word (2 ^ (cb - 1))
            codeThreeFourths := word (3 * 2 ^ (cb - 2)) }
        sess := .ready, store := .absent, low := 0, high := 0, pending := 0, code := 0, tail := 0
        primed := false, variant := .linear, err := .ok, detail := .none })
    ∧ (¬(1 ≤ sb ∧ 1 ≤ fb ∧ 1 ≤ cb ∧ fb + 2 ≤ cb ∧ cb + fb ≤ 64 ∧ sb + 2 ≤ fb ∧ sb ≤ Config.maxSymbolBits) →
      exec .cfg s = .next { s with err := .invalidInput, detail := .badParams })

/-- 40_configuration.md R102, R105 to R107 (the spec's own inferences): the bounds valid widths obey, that no parameter
register loses a bit, and the laws FREQ_MAX < CODE_ONE_FOURTH and SYMBOL_COUNT + 2 <= FREQ_MAX. -/
def Obligations.ConfiguredRegistersObeyLaws : Prop :=
  ∀ s : State, Configured s →
    let sb := s.par.symbolBits.toNat
    let fb := s.par.freqBits.toNat
    let cb := s.par.codeBits.toNat
    1 ≤ sb ∧ sb ≤ 29 ∧ 3 ≤ fb ∧ fb ≤ 31 ∧ 5 ≤ cb ∧ cb ≤ 61
      ∧ s.par.symbolEof.toNat = 2 ^ sb ∧ s.par.symbolCount.toNat = 2 ^ sb + 1 ∧ s.par.freqMax.toNat = 2 ^ fb - 1
      ∧ s.par.codeMax.toNat = 2 ^ cb - 1 ∧ s.par.codeHalf.toNat = 2 * s.par.codeOneFourth.toNat
      ∧ s.par.codeThreeFourths.toNat = 3 * s.par.codeOneFourth.toNat
      ∧ s.par.codeMax.toNat + 1 = 4 * s.par.codeOneFourth.toNat
      ∧ s.par.freqMax.toNat < s.par.codeOneFourth.toNat ∧ s.par.symbolCount.toNat + 2 ≤ s.par.freqMax.toNat

/-! Sessions, 42_codec.md section 1. -/

/-- 42_codec.md R160, R161: INIT_ENC and INIT_DEC start a session with a fresh model (41_model.md R121), the whole code range
and clear counters; in UNCONF they report BAD_STATE, for an operand above 1 BAD_VARIANT, changing nothing else. -/
def Obligations.InitStartsSession : Prop :=
  ∀ (s : State) (v : Variant),
    (s.sess ≠ .unconf → s.arg0 = (match v with | .linear => 0 | .tree => 1) →
      exec .initEnc s = .next { s with
        variant := v, store := Store.ofFreqs v (List.replicate s.par.symbolCount.toNat 1), low := 0
        high := s.par.codeMax, pending := 0, code := 0, tail := 0, primed := false, sess := .enc, err := .ok
        detail := .none }
      ∧ exec .initDec s = .next { s with
        variant := v, store := Store.ofFreqs v (List.replicate s.par.symbolCount.toNat 1), low := 0
        high := s.par.codeMax, pending := 0, code := 0, tail := 0, primed := false, sess := .dec, err := .ok
        detail := .none })
    ∧ ∀ i ∈ [Instr.initEnc, Instr.initDec],
      (s.sess = .unconf → exec i s = .next { s with err := .invalidInput, detail := .badState })
      ∧ (s.sess ≠ .unconf → 1 < s.arg0.toNat →
        exec i s = .next { s with err := .invalidInput, detail := .badVariant })

/-! The model commands, 41_model.md section 6 and 40_configuration.md R104. -/

/-- 40_configuration.md R104: M_PARAMS returns the three widths when a model exists and reports BAD_STATE otherwise. -/
def Obligations.MParamsReturnsWidths : Prop :=
  ∀ s : State,
    (s.sess.hasModel = true →
      exec .mParams s = .next { s with
        res0 := word s.par.symbolBits.toNat, res1 := word s.par.freqBits.toNat, res2 := word s.par.codeBits.toNat
        err := .ok, detail := .none })
    ∧ (s.sess.hasModel = false → exec .mParams s = .next { s with err := .invalidInput, detail := .badState })

/-- 41_model.md R135: M_TOTAL returns TOTAL, which lies between n and FREQ_MAX, and updates nothing else; without a model it
reports BAD_STATE. -/
def Obligations.MTotalReturnsTotal : Prop :=
  ∀ s : State, Inv s →
    (s.sess.hasModel = true →
      exec .mTotal s = .next { s with
        res0 := word (cum s.store.freqs s.par.symbolCount.toNat), err := .ok, detail := .none }
      ∧ s.par.symbolCount.toNat ≤ cum s.store.freqs s.par.symbolCount.toNat
      ∧ cum s.store.freqs s.par.symbolCount.toNat ≤ s.par.freqMax.toNat)
    ∧ (s.sess.hasModel = false → exec .mTotal s = .next { s with err := .invalidInput, detail := .badState })

/-- 41_model.md R138: M_TABLE returns (cum(s), cum(s+1)) and leaves the model as it is; BAD_SYMBOL from SYMBOL_COUNT up,
BAD_STATE without a model. -/
def Obligations.MTableReturnsRange : Prop :=
  ∀ s : State, Inv s →
    (s.sess.hasModel = true → s.arg0.toNat < s.par.symbolCount.toNat →
      exec .mTable s = .next { s with
        res0 := word (cum s.store.freqs s.arg0.toNat), res1 := word (cum s.store.freqs (s.arg0.toNat + 1))
        err := .ok, detail := .none })
    ∧ (s.sess.hasModel = true → s.par.symbolCount.toNat ≤ s.arg0.toNat →
      exec .mTable s = .next { s with err := .invalidInput, detail := .badSymbol })
    ∧ (s.sess.hasModel = false → exec .mTable s = .next { s with err := .invalidInput, detail := .badState })

/-- 41_model.md R136 with R124, R125: M_FREQ returns (cum(s), cum(s+1)) from before the update and counts s once, halving
first when the total stands at FREQ_MAX. -/
def Obligations.MFreqReturnsRangeAndCounts : Prop :=
  ∀ s : State, Inv s →
    (s.sess.hasModel = true → s.arg0.toNat < s.par.symbolCount.toNat →
      exec .mFreq s = .next { s with
        res0 := word (cum s.store.freqs s.arg0.toNat), res1 := word (cum s.store.freqs (s.arg0.toNat + 1))
        store := Store.ofFreqs s.variant (updateFreqs s.par.freqMax.toNat s.arg0.toNat s.store.freqs)
        err := .ok, detail := .none })
    ∧ (s.sess.hasModel = true → s.par.symbolCount.toNat ≤ s.arg0.toNat →
      exec .mFreq s = .next { s with err := .invalidInput, detail := .badSymbol })
    ∧ (s.sess.hasModel = false → exec .mFreq s = .next { s with err := .invalidInput, detail := .badState })

/-- 41_model.md R137 with R123: M_SYM returns the one symbol that owns the value, with its range from before the update, and
counts it once; BAD_VALUE from TOTAL up, BAD_STATE without a model. -/
def Obligations.MSymReturnsOwnerAndCounts : Prop :=
  ∀ s : State, Inv s →
    (s.sess.hasModel = true → s.arg0.toNat < s.store.freqs.sum →
      ∃ sym : Nat, sym < s.par.symbolCount.toNat
        ∧ cum s.store.freqs sym ≤ s.arg0.toNat ∧ s.arg0.toNat < cum s.store.freqs (sym + 1)
        ∧ exec .mSym s = .next { s with
          res0 := word sym, res1 := word (cum s.store.freqs sym), res2 := word (cum s.store.freqs (sym + 1))
          store := Store.ofFreqs s.variant (updateFreqs s.par.freqMax.toNat sym s.store.freqs)
          err := .ok, detail := .none })
    ∧ (s.sess.hasModel = true → s.store.freqs.sum ≤ s.arg0.toNat →
      exec .mSym s = .next { s with err := .invalidInput, detail := .badValue })
    ∧ (s.sess.hasModel = false → exec .mSym s = .next { s with err := .invalidInput, detail := .badState })

/-! The laws of the model and the tree, 41_model.md sections 2 to 5. -/

/-- 41_model.md R126 (the spec's own inference): one Update keeps the number of entries, every entry at least 1 and the total
at most FREQ_MAX, when n + 2 <= FREQ_MAX. -/
def Obligations.UpdateKeepsModelLaws : Prop :=
  ∀ (freqs : List Nat) (freqMax s : Nat),
    (∀ f ∈ freqs, 1 ≤ f) → freqs.sum ≤ freqMax → freqs.length + 2 ≤ freqMax → s < freqs.length →
      (updateFreqs freqMax s freqs).length = freqs.length
        ∧ (∀ f ∈ updateFreqs freqMax s freqs, 1 ≤ f)
        ∧ (updateFreqs freqMax s freqs).sum ≤ freqMax

/-- 41_model.md R129 (R134, the spec's own inference): on the tree of F, Prefix(k) is cum(k), FreqOf is the linear scan's, and
every frequency is recovered. -/
def Obligations.TreeQueriesMatchLinear : Prop :=
  ∀ freqs : List Nat, freqs.length < 2 ^ 64 →
    (∀ k : Nat, k ≤ freqs.length → treePrefix (treeOf freqs) k = cum freqs k)
      ∧ (∀ s : Nat, s < freqs.length → treeFreqOf (treeOf freqs) s = linFreqOf freqs s 0)
      ∧ treeFreqs (treeOf freqs) = freqs

/-- 41_model.md R130, R132, R133 (R134, the spec's own inference): the point update, the rescale and the initial tree are
those of the frequency vector. -/
def Obligations.TreeUpdatesMatchLinear : Prop :=
  ∀ freqs : List Nat, freqs.length < 2 ^ 63 →
    (∀ s : Nat, s < freqs.length → treeInc (treeOf freqs) s = treeOf (linInc freqs s))
      ∧ treeRescale (treeOf freqs) = treeOf (linHalve freqs)
      ∧ treeInit freqs.length = treeOf (List.replicate freqs.length 1)

/-- 41_model.md R131, R127 (R134, the spec's own inference): for v below the total, the descending search and the linear scan
give the same symbol and range, which is the owner of v. -/
def Obligations.TreeSearchMatchesLinear : Prop :=
  ∀ (freqs : List Nat) (v : Nat), freqs.length < 2 ^ 63 → (∀ f ∈ freqs, 1 ≤ f) → v < freqs.sum →
    treeSymOf (treeOf freqs) v = linSymOf freqs v 0 0
      ∧ ∃ s : Nat, s < freqs.length ∧ cum freqs s ≤ v ∧ v < cum freqs (s + 1)
        ∧ linSymOf freqs v 0 0 = (s, cum freqs s, cum freqs (s + 1))

/-- 41_model.md R134, 42_codec.md R182 (the spec's own inference): from two states that differ only in the variant and the
form of the same F, every command form of the same F, every command gives the same outcome but for variant and form: same results, registers, bits, errors
and ports, and again the same F. That LOW, HIGH, PENDING, CODE, TAIL and PRIMED are equal after a session-fatal error too
rests on the model's choice that equal draw counters give equal draws: log entry 7. -/
def Obligations.VariantsAreEquivalent : Prop :=
  ∀ (i : Instr) (s t : State), Inv s → Inv t → SameButVariant s t →
    match exec i s, exec i t with
    | .next s', .next t' => SameButVariant s' t'
    | .fault f, .fault g => f = g
    | _, _ => False

/-! Renormalisation, 42_codec.md section 2. -/

/-- 42_codec.md R163 (the spec's own inference): within an ENC or DEC session, narrowing to a symbol's range keeps the range
non-empty and inside the old one. -/
def Obligations.NarrowingNeverEmptiesTheRange : Prop :=
  ∀ (s : State) (sym : Nat), Inv s → s.sess = .enc ∨ s.sess = .dec → sym < s.par.symbolCount.toNat →
    let sl := cum s.store.freqs sym
    let sh := cum s.store.freqs (sym + 1)
    let t := s.store.freqs.sum
    s.low.toNat ≤ narrowLow s sl t ∧ narrowLow s sl t ≤ narrowHigh s sh t ∧ narrowHigh s sh t ≤ s.high.toNat
      ∧ (narrow sl sh t s).low.toNat = narrowLow s sl t ∧ (narrow sl sh t s).high.toNat = narrowHigh s sh t

/-- 42_codec.md R168 (the spec's own inference): from any bounds within the code range, scaling ends after at most CODE_BITS
steps, within the code range, and the range is then at least CODE_ONE_FOURTH + 2. -/
def Obligations.ScalingEndsWithinCodeBits : Prop :=
  ∀ (s : State) (lo hi : Nat), Configured s → lo ≤ hi → hi ≤ s.par.codeMax.toNat →
    ∃ (steps : List Band) (lo' hi' : Nat), ScalesTo s.par lo hi steps lo' hi'
      ∧ steps.length ≤ s.par.codeBits.toNat ∧ lo' ≤ hi' ∧ hi' ≤ s.par.codeMax.toNat
      ∧ s.par.codeOneFourth.toNat + 2 ≤ hi' - lo' + 1

/-- 42_codec.md R178 (the spec's own inference): along any scaling steps, the bits emitted and the bits left pending together
are the bits pending before and one per step. -/
def Obligations.OneBitPerScalingStep : Prop :=
  ∀ (p : Params) (lo hi lo' hi' pend : Nat) (steps : List Band), ScalesTo p lo hi steps lo' hi' →
    (scaleBits pend steps).1.length + (scaleBits pend steps).2 = pend + steps.length

/-! The encoder, 42_codec.md section 3. -/

/-- 42_codec.md R170 with R162, R165 to R167 and 41_model.md R124: the whole effect of ENC_SYM when the sink accepts the bits
it emits and PENDING stays within its width. `steps` are the scaling steps the narrowed bounds take. -/
def Obligations.EncSymResult : Prop :=
  ∀ (s : State) (steps : List Band) (lo hi : Nat), Inv s → s.sess = .enc →
    s.arg0.toNat < s.par.symbolCount.toNat →
    let sl := cum s.store.freqs s.arg0.toNat
    let sh := cum s.store.freqs (s.arg0.toNat + 1)
    let t := s.store.freqs.sum
    let bits := (scaleBits s.pending.toNat steps).1
    ScalesTo s.par (narrowLow s sl t) (narrowHigh s sh t) steps lo hi →
    pendingFits s.pending.toNat steps = true → s.sink.acceptsNext bits.length = true →
      exec .encSym s = .next { s with
        low := word lo, high := word hi, pending := word (scaleBits s.pending.toNat steps).2
        store := Store.ofFreqs s.variant (updateFreqs s.par.freqMax.toNat s.arg0.toNat s.store.freqs)
        res0 := s.arg0, res1 := word sl, res2 := word sh, err := .ok, detail := .none
        sink := s.sink.dropAnswers bits.length, sinkLog := s.sinkLog ++ bits.map SinkEvent.bit }

/-- 42_codec.md R170, R167, R168: in an encode session, a valid symbol is encoded whenever the sink accepts every event and
PENDING is not within 64 of its limit: ENC_SYM ends with OK, the session goes on, the results are the symbol and its range,
and the symbol is counted. -/
def Obligations.EncSymCompletes : Prop :=
  ∀ s : State, Inv s → s.sess = .enc → s.arg0.toNat < s.par.symbolCount.toNat →
    s.pending.toNat + 64 < 2 ^ 64 → (∀ a ∈ s.sink.queue, a = .ok) → s.sink.after = some .ok →
      ∃ t : State, exec .encSym s = .next t ∧ t.err = .ok ∧ t.detail = .none ∧ t.sess = .enc
        ∧ t.res0 = s.arg0 ∧ t.res1 = word (cum s.store.freqs s.arg0.toNat)
        ∧ t.res2 = word (cum s.store.freqs (s.arg0.toNat + 1))
        ∧ t.store = Store.ofFreqs s.variant (updateFreqs s.par.freqMax.toNat s.arg0.toNat s.store.freqs)
        ∧ RangeOk t

/-- 42_codec.md R170, 60_exceptions.md R202, R205, R206, R220, 70_reset_and_hazards.md R239: when the sink accepts only the
first m bits of an ENC_SYM and then answers IoError, the command ends with IoError(SINK_FAILED) in FAILED, the m bits stay
with the sink and the model is untouched; when it then never answers, the command never completes, which the model writes as
a fault (log entry 5). -/
def Obligations.EncSymStopsAtSink : Prop :=
  ∀ (s : State) (steps : List Band) (lo hi m : Nat), Inv s → s.sess = .enc →
    s.arg0.toNat < s.par.symbolCount.toNat →
    let bits := (scaleBits s.pending.toNat steps).1
    ScalesTo s.par (narrowLow s (cum s.store.freqs s.arg0.toNat) s.store.freqs.sum)
      (narrowHigh s (cum s.store.freqs (s.arg0.toNat + 1)) s.store.freqs.sum) steps lo hi →
    pendingFits s.pending.toNat steps = true → m < bits.length → s.sink.acceptsNext m = true →
      ((s.sink.dropAnswers m).answer.1 = some .ioError →
        ∃ t : State, exec .encSym s = .next t ∧ t.err = .ioError ∧ t.detail = .sinkFailed ∧ t.sess = .failed
          ∧ t.sinkLog = s.sinkLog ++ (bits.take m).map SinkEvent.bit ∧ t.store = s.store ∧ t.par = s.par
          ∧ t.res0 = s.res0 ∧ t.res1 = s.res1 ∧ t.res2 = s.res2)
      ∧ ((s.sink.dropAnswers m).answer.1 = none → exec .encSym s = .fault .sinkNeverAnswers)

/-- 42_codec.md R167, R170: an ENC_SYM that comes to an E3 step with PENDING at 2^64 - 1 ends with
InvalidInput(PENDING_OVERFLOW) in FAILED, the bits emitted before it staying with the sink. -/
def Obligations.EncSymPendingOverflow : Prop :=
  ∀ (s : State) (before later : List Band) (lo hi : Nat), Inv s → s.sess = .enc →
    s.arg0.toNat < s.par.symbolCount.toNat →
    let bits := (scaleBits s.pending.toNat before).1
    ScalesTo s.par (narrowLow s (cum s.store.freqs s.arg0.toNat) s.store.freqs.sum)
      (narrowHigh s (cum s.store.freqs (s.arg0.toNat + 1)) s.store.freqs.sum) (before ++ .e3 :: later) lo hi →
    pendingFits s.pending.toNat before = true → (scaleBits s.pending.toNat before).2 = pendingMax →
    s.sink.acceptsNext bits.length = true →
      ∃ t : State, exec .encSym s = .next t ∧ t.err = .invalidInput ∧ t.detail = .pendingOverflow ∧ t.sess = .failed
        ∧ t.sinkLog = s.sinkLog ++ bits.map SinkEvent.bit ∧ t.store = s.store

/-- 42_codec.md R170, 60_exceptions.md R203, R205: ENC_SYM outside ENC reports BAD_STATE and changes nothing else; an invalid
symbol in ENC ends the session with BAD_SYMBOL, no bit emitted and the model untouched. -/
def Obligations.EncSymStaticErrors : Prop :=
  ∀ s : State,
    (s.sess ≠ .enc → exec .encSym s = .next { s with err := .invalidInput, detail := .badState })
    ∧ (s.sess = .enc → s.par.symbolCount.toNat ≤ s.arg0.toNat →
      ∃ t : State, exec .encSym s = .next t ∧ t.err = .invalidInput ∧ t.detail = .badSymbol ∧ t.sess = .failed
        ∧ t.sinkLog = s.sinkLog ∧ t.sink = s.sink ∧ t.store = s.store ∧ t.par = s.par)

/-- 42_codec.md R171: ENC_FINISH emits the quarter bit and PENDING + 1 copies of the other, then one FlushSink, and the
session is DONE with PENDING 0, LOW and HIGH unchanged; its errors are BAD_STATE outside ENC, PENDING_OVERFLOW at the
counter's limit, and SINK_FAILED at the first event the sink answers with IoError, the events before it kept; a sink that
never answers leaves it waiting: that clause is 70_reset_and_hazards.md R239 in the model's form, a fault (log entry 5), and
not R171. -/
def Obligations.EncFinishFlushes : Prop :=
  ∀ s : State,
    let b := decide (s.par.codeOneFourth.toNat ≤ s.low.toNat)
    let events := ((b :: List.replicate (s.pending.toNat + 1) (!b)).map SinkEvent.bit) ++ [SinkEvent.flush]
    (s.sess ≠ .enc → exec .encFinish s = .next { s with err := .invalidInput, detail := .badState })
    ∧ (s.sess = .enc → s.pending.toNat = 2 ^ 64 - 1 →
      ∃ t : State, exec .encFinish s = .next t ∧ t.err = .invalidInput ∧ t.detail = .pendingOverflow
        ∧ t.sess = .failed ∧ t.sinkLog = s.sinkLog ∧ t.store = s.store)
    ∧ (s.sess = .enc → s.pending.toNat < 2 ^ 64 - 1 → s.sink.acceptsNext events.length = true →
      exec .encFinish s = .next { s with
        pending := 0, sess := .done, err := .ok, detail := .none, sink := s.sink.dropAnswers events.length
        sinkLog := s.sinkLog ++ events })
    ∧ ∀ m : Nat, s.sess = .enc → s.pending.toNat < 2 ^ 64 - 1 → m < events.length → s.sink.acceptsNext m = true →
      ((s.sink.dropAnswers m).answer.1 = some .ioError →
        ∃ t : State, exec .encFinish s = .next t ∧ t.err = .ioError ∧ t.detail = .sinkFailed ∧ t.sess = .failed
          ∧ t.sinkLog = s.sinkLog ++ events.take m ∧ t.store = s.store)
      ∧ ((s.sink.dropAnswers m).answer.1 = none → exec .encFinish s = .fault .sinkNeverAnswers)

/-! The decoder, 42_codec.md section 4. -/

/-- 42_codec.md R172: ReadCodeBit takes the source's bit; at Eof it supplies a 0 and counts it while TAIL is below
CODE_BITS - 2, and raises SOURCE_EXHAUSTED after; an IoError raises SOURCE_FAILED. After Eof the source is where it was, so
every later ReadCodeBit finds Eof again. -/
def Obligations.ReadCodeBitRules : Prop :=
  ∀ (s : State) (p : SourcePort),
    (s.source.answer = (some .eof, p) → p = s.source)
    ∧ (∀ b : Bool, s.source.answer = (some (.bit b), p) → readCodeBit s = .done b { s with source := p })
    ∧ (s.source.answer = (some .ioError, p) → readCodeBit s = .raised .sourceFailed { s with source := p })
    ∧ (s.source.answer = (some .eof, p) → s.tail.toNat < s.par.codeBits.toNat - 2 →
      readCodeBit s = .done false { s with source := p, tail := word (s.tail.toNat + 1) })
    ∧ (s.source.answer = (some .eof, p) → s.par.codeBits.toNat - 2 ≤ s.tail.toNat →
      readCodeBit s = .raised .sourceExhausted { s with source := p })

/-- 42_codec.md R176 with R162, R172 to R175 and 41_model.md R124: the whole effect of DEC_SYM when the source and the tail
budget give the bits it takes: `sym` owns the decoded value, `steps` are the scaling steps of the narrowed bounds. That CODE
and TAIL keep these values when SESS becomes DONE is the model's reading of R176 against 10_state.md R26: log entry 24. -/
def Obligations.DecSymResult : Prop :=
  ∀ (s : State) (sym : Nat) (steps : List Band) (lo hi : Nat), Inv s → s.sess = .dec →
    let sl := cum s.store.freqs sym
    let sh := cum s.store.freqs (sym + 1)
    let t := s.store.freqs.sum
    let v := ((primedCode s - s.low.toNat + 1) * t - 1) / (s.high.toNat - s.low.toNat + 1)
    let k := primeBits s + steps.length
    sym < s.par.symbolCount.toNat → sl ≤ v → v < sh →
    ScalesTo s.par (narrowLow s sl t) (narrowHigh s sh t) steps lo hi → k ≤ (codeBits s).length →
      exec .decSym s = .next { s with
        low := word lo, high := word hi, source := (afterCodeBits k s).source, tail := (afterCodeBits k s).tail
        code := word (windowAfter s.par (primedCode s) steps ((codeBits s).drop (primeBits s)))
        primed := true
        store := Store.ofFreqs s.variant (updateFreqs s.par.freqMax.toNat sym s.store.freqs)
        res0 := word sym, res1 := word sl, res2 := word sh, err := .ok, detail := .none
        sess := if word sym = s.par.symbolEof then .done else .dec }

/-- 42_codec.md R176, R177, R181 (the last two the spec's own inferences): in a decode session, DEC_SYM completes with OK
whenever two windows of bits are at hand, whatever the bits are: it returns a symbol with its range, counts it, and ends the
session exactly when the symbol is SYMBOL_EOF. -/
def Obligations.DecSymCompletes : Prop :=
  ∀ s : State, Inv s → s.sess = .dec → 2 * s.par.codeBits.toNat ≤ (codeBits s).length →
    ∃ (t : State) (sym : Nat), exec .decSym s = .next t ∧ sym < s.par.symbolCount.toNat
      ∧ t.err = .ok ∧ t.detail = .none ∧ t.primed = true ∧ t.res0 = word sym
      ∧ t.res1 = word (cum s.store.freqs sym) ∧ t.res2 = word (cum s.store.freqs (sym + 1))
      ∧ t.store = Store.ofFreqs s.variant (updateFreqs s.par.freqMax.toNat sym s.store.freqs)
      ∧ (t.sess = .done ↔ word sym = s.par.symbolEof) ∧ (t.sess = .dec ↔ word sym ≠ s.par.symbolEof)

/-- 42_codec.md R172, R176, 60_exceptions.md R205, R220, 70_reset_and_hazards.md R239: when the bits at hand run out, in
priming or in the renormalisation, DEC_SYM ends the session with Eof(SOURCE_EXHAUSTED) if the source is at Eof, with
IoError(SOURCE_FAILED) if it answers IoError, the model untouched; if it never answers, the command never completes, which
the model writes as a fault (log entry 5). -/
def Obligations.DecSymStopsAtSource : Prop :=
  ∀ (s : State) (sym : Nat) (steps : List Band) (lo hi : Nat), Inv s → s.sess = .dec →
    let sl := cum s.store.freqs sym
    let sh := cum s.store.freqs (sym + 1)
    let t := s.store.freqs.sum
    let v := ((primedCode s - s.low.toNat + 1) * t - 1) / (s.high.toNat - s.low.toNat + 1)
    let answer := ({ s.source with queue := s.source.queue.drop (leadingBits s.source.queue).length } : SourcePort).answer.1
    ((codeBits s).length < primeBits s
      ∨ (primeBits s ≤ (codeBits s).length ∧ sym < s.par.symbolCount.toNat ∧ sl ≤ v ∧ v < sh
        ∧ ScalesTo s.par (narrowLow s sl t) (narrowHigh s sh t) steps lo hi
        ∧ (codeBits s).length < primeBits s + steps.length)) →
      (answer = some .eof →
        ∃ u : State, exec .decSym s = .next u ∧ u.err = .eof ∧ u.detail = .sourceExhausted ∧ u.sess = .failed
          ∧ u.store = s.store ∧ u.par = s.par ∧ u.res0 = s.res0 ∧ u.res1 = s.res1 ∧ u.res2 = s.res2)
      ∧ (answer = some .ioError →
        ∃ u : State, exec .decSym s = .next u ∧ u.err = .ioError ∧ u.detail = .sourceFailed ∧ u.sess = .failed
          ∧ u.store = s.store ∧ u.par = s.par ∧ u.res0 = s.res0 ∧ u.res1 = s.res1 ∧ u.res2 = s.res2)
      ∧ (answer = none → exec .decSym s = .fault .sourceNeverAnswers)

/-- 42_codec.md R176: DEC_SYM outside DEC reports BAD_STATE and changes nothing else. -/
def Obligations.DecSymNeedsDecodeSession : Prop :=
  ∀ s : State, s.sess ≠ .dec → exec .decSym s = .next { s with err := .invalidInput, detail := .badState }

/-- 42_codec.md R181 (the spec's own inference): from a state that meets the invariants, DEC_SYM never reports BAD_VALUE,
whatever the source delivers. -/
def Obligations.DecSymNeverBadValue : Prop :=
  ∀ s t : State, Inv s → s.sess = .dec → exec .decSym s = .next t → t.detail ≠ .badValue

/-! Invariants, 10_state.md section 6. -/

/-- The invariants hold right after reset (10_state.md R41). -/
def Obligations.ResetMeetsInvariants : Prop := Inv State.reset

/-- 60_exceptions.md R201, 10_state.md R21, R23, R30, R33: every step keeps ERR the kind of DETAIL, the parameter registers
all 0 in UNCONF and the constants of valid widths elsewhere, and everything of a session clear when there is none. -/
def Obligations.StepKeepsConfiguration : Prop :=
  ∀ s t : State, StatusInv s → ParamInv s → IdleInv s → step s = .next t →
    StatusInv t ∧ ParamInv t ∧ IdleInv t

/-- 10_state.md R38, R39, R40 (the spec's own inferences among them): every step keeps every invariant: configuration, model,
range, and decoder window. -/
def Obligations.StepKeepsInvariants : Prop :=
  ∀ s t : State, Inv s → step s = .next t → Inv t

/-- 42_codec.md R168, 70_reset_and_hazards.md R239: from a state that meets the invariants, no step's renormalisation fails to
end: a command faults only where a collaborator never answers, in a command of that port's session, and a command is never
refused. The faults are the model's form of a command that never completes: log entries 5 and 13. -/
def Obligations.CommandsEndUnlessPortsHang : Prop :=
  ∀ (s : State) (i : Instr), Inv s →
    (∀ r : Refusal, exec i s ≠ .refused r)
    ∧ (∀ f : Fault, exec i s = .fault f →
      (f = .sinkNeverAnswers ∧ s.sess = .enc ∧ s.sink.after = none ∧ (i = .encSym ∨ i = .encFinish))
      ∨ (f = .sourceNeverAnswers ∧ s.sess = .dec ∧ s.source.after = none ∧ i = .decSym))

/-! Frames and whole-machine rules. -/

/-- 41_model.md R135, R138, 40_configuration.md R104: M_PARAMS, M_TOTAL and M_TABLE change only STATUS.ERR, STATUS.DETAIL and
the results their rows name (RES0 to RES2; RES0; RES0 and RES1). -/
def Obligations.QueryCommandsFrame : Prop :=
  ∀ s t : State,
    (exec .mParams s = .next t →
      t = { s with err := t.err, detail := t.detail, res0 := t.res0, res1 := t.res1, res2 := t.res2 })
    ∧ (exec .mTotal s = .next t → t = { s with err := t.err, detail := t.detail, res0 := t.res0 })
    ∧ (exec .mTable s = .next t → t = { s with err := t.err, detail := t.detail, res0 := t.res0, res1 := t.res1 })

/-- 41_model.md R136, R137: M_FREQ and M_SYM change only STATUS.ERR, STATUS.DETAIL, the model store and the results their rows
name. -/
def Obligations.CountingCommandsFrame : Prop :=
  ∀ s t : State,
    (exec .mFreq s = .next t →
      t = { s with err := t.err, detail := t.detail, store := t.store, res0 := t.res0, res1 := t.res1 })
    ∧ (exec .mSym s = .next t →
      t = { s with
        err := t.err, detail := t.detail, store := t.store, res0 := t.res0, res1 := t.res1, res2 := t.res2 })

/-- 40_configuration.md R100, R103, 42_codec.md R160, R161: CFG and the INIT commands write no ARG or RES register and touch no
port; the INIT commands write no parameter register. -/
def Obligations.ConfigurationCommandsFrame : Prop :=
  ∀ s t : State,
    (exec .cfg s = .next t →
      t = { s with
        err := t.err, detail := t.detail, sess := t.sess, primed := t.primed, variant := t.variant, par := t.par
        low := t.low, high := t.high, pending := t.pending, code := t.code, tail := t.tail, store := t.store })
    ∧ (exec .initEnc s = .next t ∨ exec .initDec s = .next t →
      t = { s with
        err := t.err, detail := t.detail, sess := t.sess, primed := t.primed, variant := t.variant
        low := t.low, high := t.high, pending := t.pending, code := t.code, tail := t.tail, store := t.store })

/-- 42_codec.md R170, R171, R176: a symbol command that ends with OK changes, besides ERR and DETAIL: for ENC_SYM LOW, HIGH,
PENDING, the store, RES0 to RES2 and the sink side; for ENC_FINISH PENDING, SESS and the sink side; for DEC_SYM LOW, HIGH,
CODE, TAIL, PRIMED, SESS, the store, RES0 to RES2 and the source. Nothing else. -/
def Obligations.SymbolCommandsFrame : Prop :=
  ∀ s t : State, t.err = .ok →
    (exec .encSym s = .next t →
      t = { s with
        err := .ok, detail := .none, low := t.low, high := t.high, pending := t.pending, store := t.store
        res0 := t.res0, res1 := t.res1, res2 := t.res2, sink := t.sink, sinkLog := t.sinkLog })
    ∧ (exec .encFinish s = .next t →
      t = { s with
        err := .ok, detail := .none, pending := t.pending, sess := .done, sink := t.sink, sinkLog := t.sinkLog })
    ∧ (exec .decSym s = .next t →
      t = { s with
        err := .ok, detail := .none, low := t.low, high := t.high, code := t.code, tail := t.tail
        primed := t.primed, sess := t.sess, store := t.store, res0 := t.res0, res1 := t.res1, res2 := t.res2
        source := t.source })

/-- 60_exceptions.md R203, R205, R206: an error of ENC_SYM, ENC_FINISH or DEC_SYM after its state check sets SESS to FAILED and
keeps the model, TOTAL, VARIANT, the parameter registers, ARG0 to ARG2 and RES0 to RES2; nothing the sink had is retracted.
LOW, HIGH, PENDING, CODE, TAIL and PRIMED become free values: log entries 7 and 8. -/
def Obligations.FatalErrorsKeepTheRest : Prop :=
  ∀ s t : State,
    (s.sess = .enc ∧ (exec .encSym s = .next t ∨ exec .encFinish s = .next t)
      ∨ s.sess = .dec ∧ exec .decSym s = .next t) → t.err ≠ .ok →
      t.sess = .failed ∧ t.err = t.detail.kind
        ∧ t = { s with
          err := t.err, detail := t.detail, sess := .failed, low := t.low, high := t.high, pending := t.pending
          code := t.code, tail := t.tail, primed := t.primed, draws := t.draws, sink := t.sink, source := t.source
          sinkLog := t.sinkLog }
        ∧ ∃ later : List SinkEvent, t.sinkLog = s.sinkLog ++ later

/-- 60_exceptions.md R204: an error that is not session-fatal changes only STATUS.ERR and STATUS.DETAIL: every error of CFG,
the INIT commands and the model commands, and BAD_STATE of the symbol commands. -/
def Obligations.OtherErrorsChangeOnlyStatus : Prop :=
  ∀ (s t : State) (i : Instr), exec i s = .next t → t.err ≠ .ok →
    (i = .encSym ∨ i = .encFinish → s.sess ≠ .enc) → (i = .decSym → s.sess ≠ .dec) →
      t = { s with err := .invalidInput, detail := t.detail }

/-- 30_encoding.md R82, R83, 60_exceptions.md R202, R209: no command writes an ARG register, takes an outside event or answers
a host read; a command that ends with an error writes no RES register; a command that ends with OK leaves DETAIL at NONE. -/
def Obligations.EveryCommandFrame : Prop :=
  ∀ (s t : State) (i : Instr), exec i s = .next t →
    t.arg0 = s.arg0 ∧ t.arg1 = s.arg1 ∧ t.arg2 = s.arg2 ∧ t.inputs = s.inputs ∧ t.reads = s.reads
      ∧ (t.err ≠ .ok → t.res0 = s.res0 ∧ t.res1 = s.res1 ∧ t.res2 = s.res2)
      ∧ (t.err = .ok → t.detail = .none)

/-- 10_state.md R21: between two successful CFG commands nothing changes a parameter register; only a hardware reset does
besides (R41). -/
def Obligations.OnlyCfgOrResetWritesParameters : Prop :=
  ∀ s t : State, step s = .next t → t.par ≠ s.par →
    ∃ rest : List HostEvent,
      s.inputs = .write 0x000 64 (encode .cfg) :: rest ∧ t.err = .ok ∨ s.inputs = .reset :: rest

/-- 10_state.md R29, R41: SESS changes only as the table of its values says: UNCONF by reset alone, READY by CFG, ENC by
INIT_ENC, DEC by INIT_DEC, DONE by ENC_FINISH or by a DEC_SYM that decoded SYMBOL_EOF, FAILED by an error of a symbol
command of the live session. -/
def Obligations.SessionChangesFollowTheTable : Prop :=
  ∀ s t : State, step s = .next t → t.sess ≠ s.sess →
    match t.sess with
    | .unconf => s.inputs.head? = some .reset
    | .ready => s.inputs.head? = some (.write 0x000 64 (encode .cfg))
    | .enc => s.inputs.head? = some (.write 0x000 64 (encode .initEnc))
    | .dec => s.inputs.head? = some (.write 0x000 64 (encode .initDec))
    | .done =>
      (s.sess = .enc ∧ s.inputs.head? = some (.write 0x000 64 (encode .encFinish)))
        ∨ (s.sess = .dec ∧ s.inputs.head? = some (.write 0x000 64 (encode .decSym)) ∧ t.res0 = s.par.symbolEof)
    | .failed =>
      t.err ≠ .ok
        ∧ ((s.sess = .enc ∧ (s.inputs.head? = some (.write 0x000 64 (encode .encSym))
            ∨ s.inputs.head? = some (.write 0x000 64 (encode .encFinish))))
          ∨ (s.sess = .dec ∧ s.inputs.head? = some (.write 0x000 64 (encode .decSym))))

/-- 60_exceptions.md R206, 20_memory.md R71: what the sink has accepted is never retracted or reordered, and only a command of
an encode session adds to it; only a command of a decode session, or the environment, moves the source (SetSourceEvent says
how). -/
def Obligations.PortTrafficFollowsTheSession : Prop :=
  ∀ s t : State, step s = .next t →
    (∃ later : List SinkEvent, t.sinkLog = s.sinkLog ++ later ∧ (later ≠ [] → s.sess = .enc))
      ∧ (t.source ≠ s.source → s.sess = .dec ∨ ∃ p : SourcePort, s.inputs.head? = some (.setSource p))

/-- 42_codec.md R180 (the spec's own inference), the document's Round-trip and EOF scenario: what an encode session emits,
followed by any bits and then Eof, a decode session with the same parameters and either variant decodes to the same symbols
with the same results, and it ends DONE at SYMBOL_EOF. -/
def Obligations.RoundTrip : Prop :=
  ∀ (s d e : State) (sv dv : Word) (symbols : List Word) (after : List Bool) (results : List (Word × Word × Word)),
    Inv s → Inv d → s.sess ≠ .unconf → d.sess ≠ .unconf → d.par = s.par → dv.toNat ≤ 1 →
    (∀ x ∈ symbols, x.toNat < s.par.symbolEof.toNat) →
    traceCommands (encodeSession sv s.par.symbolEof symbols) s = some (results, e) →
    d.source =
      { queue := (sinkBits (e.sinkLog.drop s.sinkLog.length) ++ after).map SourceItem.bit, after := some .eof } →
      ∃ (results' : List (Word × Word × Word)) (u : State),
        traceCommands (decodeSession dv (symbols.length + 1)) d = some (results', u) ∧ u.sess = .done
          ∧ results'.drop 1 = (results.drop 1).take (symbols.length + 1)
          ∧ u.store.freqs = e.store.freqs

/-- The model's choice, log entry 4, after 70_reset_and_hazards.md R232 and 20_memory.md R74: the environment's setSource event
puts the given source in place and changes nothing else; within a decode session whose source has answered Eof, which a TAIL
above 0 shows, it is refused. -/
def Obligations.SetSourceEvent : Prop :=
  ∀ (s : State) (rest : List HostEvent) (p : SourcePort), s.inputs = .setSource p :: rest →
    (s.sess ≠ .dec ∨ s.tail = 0 → step s = .next { s with inputs := rest, source := p })
    ∧ (s.sess = .dec → s.tail ≠ 0 → step s = .refused .sourceEofBroken)
end

