-- ==== Sys2Proof/Laws/State.lean ====
section
/-! SUPPORT. One lemma per field per named update of the state, true by unfolding the update, so that no later proof unfolds
a record update. -/

namespace Sys2Proof.Machine

/-! `State.setRes1`. -/

@[simp] theorem State.setRes1_arg0 (s : State) (a : Nat) : (s.setRes1 a).arg0 = s.arg0 := rfl
@[simp] theorem State.setRes1_arg1 (s : State) (a : Nat) : (s.setRes1 a).arg1 = s.arg1 := rfl
@[simp] theorem State.setRes1_arg2 (s : State) (a : Nat) : (s.setRes1 a).arg2 = s.arg2 := rfl
@[simp] theorem State.setRes1_res0 (s : State) (a : Nat) : (s.setRes1 a).res0 = word a := rfl
@[simp] theorem State.setRes1_res1 (s : State) (a : Nat) : (s.setRes1 a).res1 = s.res1 := rfl
@[simp] theorem State.setRes1_res2 (s : State) (a : Nat) : (s.setRes1 a).res2 = s.res2 := rfl
@[simp] theorem State.setRes1_err (s : State) (a : Nat) : (s.setRes1 a).err = s.err := rfl
@[simp] theorem State.setRes1_detail (s : State) (a : Nat) : (s.setRes1 a).detail = s.detail := rfl
@[simp] theorem State.setRes1_sess (s : State) (a : Nat) : (s.setRes1 a).sess = s.sess := rfl
@[simp] theorem State.setRes1_primed (s : State) (a : Nat) : (s.setRes1 a).primed = s.primed := rfl
@[simp] theorem State.setRes1_variant (s : State) (a : Nat) : (s.setRes1 a).variant = s.variant := rfl
@[simp] theorem State.setRes1_par (s : State) (a : Nat) : (s.setRes1 a).par = s.par := rfl
@[simp] theorem State.setRes1_low (s : State) (a : Nat) : (s.setRes1 a).low = s.low := rfl
@[simp] theorem State.setRes1_high (s : State) (a : Nat) : (s.setRes1 a).high = s.high := rfl
@[simp] theorem State.setRes1_pending (s : State) (a : Nat) : (s.setRes1 a).pending = s.pending := rfl
@[simp] theorem State.setRes1_code (s : State) (a : Nat) : (s.setRes1 a).code = s.code := rfl
@[simp] theorem State.setRes1_tail (s : State) (a : Nat) : (s.setRes1 a).tail = s.tail := rfl
@[simp] theorem State.setRes1_store (s : State) (a : Nat) : (s.setRes1 a).store = s.store := rfl
@[simp] theorem State.setRes1_inputs (s : State) (a : Nat) : (s.setRes1 a).inputs = s.inputs := rfl
@[simp] theorem State.setRes1_sink (s : State) (a : Nat) : (s.setRes1 a).sink = s.sink := rfl
@[simp] theorem State.setRes1_source (s : State) (a : Nat) : (s.setRes1 a).source = s.source := rfl
@[simp] theorem State.setRes1_sinkLog (s : State) (a : Nat) : (s.setRes1 a).sinkLog = s.sinkLog := rfl
@[simp] theorem State.setRes1_reads (s : State) (a : Nat) : (s.setRes1 a).reads = s.reads := rfl
@[simp] theorem State.setRes1_draws (s : State) (a : Nat) : (s.setRes1 a).draws = s.draws := rfl

/-! `State.setRes2`. -/

@[simp] theorem State.setRes2_arg0 (s : State) (a b : Nat) : (s.setRes2 a b).arg0 = s.arg0 := rfl
@[simp] theorem State.setRes2_arg1 (s : State) (a b : Nat) : (s.setRes2 a b).arg1 = s.arg1 := rfl
@[simp] theorem State.setRes2_arg2 (s : State) (a b : Nat) : (s.setRes2 a b).arg2 = s.arg2 := rfl
@[simp] theorem State.setRes2_res0 (s : State) (a b : Nat) : (s.setRes2 a b).res0 = word a := rfl
@[simp] theorem State.setRes2_res1 (s : State) (a b : Nat) : (s.setRes2 a b).res1 = word b := rfl
@[simp] theorem State.setRes2_res2 (s : State) (a b : Nat) : (s.setRes2 a b).res2 = s.res2 := rfl
@[simp] theorem State.setRes2_err (s : State) (a b : Nat) : (s.setRes2 a b).err = s.err := rfl
@[simp] theorem State.setRes2_detail (s : State) (a b : Nat) : (s.setRes2 a b).detail = s.detail := rfl
@[simp] theorem State.setRes2_sess (s : State) (a b : Nat) : (s.setRes2 a b).sess = s.sess := rfl
@[simp] theorem State.setRes2_primed (s : State) (a b : Nat) : (s.setRes2 a b).primed = s.primed := rfl
@[simp] theorem State.setRes2_variant (s : State) (a b : Nat) : (s.setRes2 a b).variant = s.variant := rfl
@[simp] theorem State.setRes2_par (s : State) (a b : Nat) : (s.setRes2 a b).par = s.par := rfl
@[simp] theorem State.setRes2_low (s : State) (a b : Nat) : (s.setRes2 a b).low = s.low := rfl
@[simp] theorem State.setRes2_high (s : State) (a b : Nat) : (s.setRes2 a b).high = s.high := rfl
@[simp] theorem State.setRes2_pending (s : State) (a b : Nat) : (s.setRes2 a b).pending = s.pending := rfl
@[simp] theorem State.setRes2_code (s : State) (a b : Nat) : (s.setRes2 a b).code = s.code := rfl
@[simp] theorem State.setRes2_tail (s : State) (a b : Nat) : (s.setRes2 a b).tail = s.tail := rfl
@[simp] theorem State.setRes2_store (s : State) (a b : Nat) : (s.setRes2 a b).store = s.store := rfl
@[simp] theorem State.setRes2_inputs (s : State) (a b : Nat) : (s.setRes2 a b).inputs = s.inputs := rfl
@[simp] theorem State.setRes2_sink (s : State) (a b : Nat) : (s.setRes2 a b).sink = s.sink := rfl
@[simp] theorem State.setRes2_source (s : State) (a b : Nat) : (s.setRes2 a b).source = s.source := rfl
@[simp] theorem State.setRes2_sinkLog (s : State) (a b : Nat) : (s.setRes2 a b).sinkLog = s.sinkLog := rfl
@[simp] theorem State.setRes2_reads (s : State) (a b : Nat) : (s.setRes2 a b).reads = s.reads := rfl
@[simp] theorem State.setRes2_draws (s : State) (a b : Nat) : (s.setRes2 a b).draws = s.draws := rfl

/-! `State.setRes3`. -/

@[simp] theorem State.setRes3_arg0 (s : State) (a b c : Nat) : (s.setRes3 a b c).arg0 = s.arg0 := rfl
@[simp] theorem State.setRes3_arg1 (s : State) (a b c : Nat) : (s.setRes3 a b c).arg1 = s.arg1 := rfl
@[simp] theorem State.setRes3_arg2 (s : State) (a b c : Nat) : (s.setRes3 a b c).arg2 = s.arg2 := rfl
@[simp] theorem State.setRes3_res0 (s : State) (a b c : Nat) : (s.setRes3 a b c).res0 = word a := rfl
@[simp] theorem State.setRes3_res1 (s : State) (a b c : Nat) : (s.setRes3 a b c).res1 = word b := rfl
@[simp] theorem State.setRes3_res2 (s : State) (a b c : Nat) : (s.setRes3 a b c).res2 = word c := rfl
@[simp] theorem State.setRes3_err (s : State) (a b c : Nat) : (s.setRes3 a b c).err = s.err := rfl
@[simp] theorem State.setRes3_detail (s : State) (a b c : Nat) : (s.setRes3 a b c).detail = s.detail := rfl
@[simp] theorem State.setRes3_sess (s : State) (a b c : Nat) : (s.setRes3 a b c).sess = s.sess := rfl
@[simp] theorem State.setRes3_primed (s : State) (a b c : Nat) : (s.setRes3 a b c).primed = s.primed := rfl
@[simp] theorem State.setRes3_variant (s : State) (a b c : Nat) : (s.setRes3 a b c).variant = s.variant := rfl
@[simp] theorem State.setRes3_par (s : State) (a b c : Nat) : (s.setRes3 a b c).par = s.par := rfl
@[simp] theorem State.setRes3_low (s : State) (a b c : Nat) : (s.setRes3 a b c).low = s.low := rfl
@[simp] theorem State.setRes3_high (s : State) (a b c : Nat) : (s.setRes3 a b c).high = s.high := rfl
@[simp] theorem State.setRes3_pending (s : State) (a b c : Nat) : (s.setRes3 a b c).pending = s.pending := rfl
@[simp] theorem State.setRes3_code (s : State) (a b c : Nat) : (s.setRes3 a b c).code = s.code := rfl
@[simp] theorem State.setRes3_tail (s : State) (a b c : Nat) : (s.setRes3 a b c).tail = s.tail := rfl
@[simp] theorem State.setRes3_store (s : State) (a b c : Nat) : (s.setRes3 a b c).store = s.store := rfl
@[simp] theorem State.setRes3_inputs (s : State) (a b c : Nat) : (s.setRes3 a b c).inputs = s.inputs := rfl
@[simp] theorem State.setRes3_sink (s : State) (a b c : Nat) : (s.setRes3 a b c).sink = s.sink := rfl
@[simp] theorem State.setRes3_source (s : State) (a b c : Nat) : (s.setRes3 a b c).source = s.source := rfl
@[simp] theorem State.setRes3_sinkLog (s : State) (a b c : Nat) : (s.setRes3 a b c).sinkLog = s.sinkLog := rfl
@[simp] theorem State.setRes3_reads (s : State) (a b c : Nat) : (s.setRes3 a b c).reads = s.reads := rfl
@[simp] theorem State.setRes3_draws (s : State) (a b c : Nat) : (s.setRes3 a b c).draws = s.draws := rfl

/-! `State.succeed`. -/

@[simp] theorem State.succeed_arg0 (s : State) : (s.succeed).arg0 = s.arg0 := rfl
@[simp] theorem State.succeed_arg1 (s : State) : (s.succeed).arg1 = s.arg1 := rfl
@[simp] theorem State.succeed_arg2 (s : State) : (s.succeed).arg2 = s.arg2 := rfl
@[simp] theorem State.succeed_res0 (s : State) : (s.succeed).res0 = s.res0 := rfl
@[simp] theorem State.succeed_res1 (s : State) : (s.succeed).res1 = s.res1 := rfl
@[simp] theorem State.succeed_res2 (s : State) : (s.succeed).res2 = s.res2 := rfl
@[simp] theorem State.succeed_err (s : State) : (s.succeed).err = .ok := rfl
@[simp] theorem State.succeed_detail (s : State) : (s.succeed).detail = .none := rfl
@[simp] theorem State.succeed_sess (s : State) : (s.succeed).sess = s.sess := rfl
@[simp] theorem State.succeed_primed (s : State) : (s.succeed).primed = s.primed := rfl
@[simp] theorem State.succeed_variant (s : State) : (s.succeed).variant = s.variant := rfl
@[simp] theorem State.succeed_par (s : State) : (s.succeed).par = s.par := rfl
@[simp] theorem State.succeed_low (s : State) : (s.succeed).low = s.low := rfl
@[simp] theorem State.succeed_high (s : State) : (s.succeed).high = s.high := rfl
@[simp] theorem State.succeed_pending (s : State) : (s.succeed).pending = s.pending := rfl
@[simp] theorem State.succeed_code (s : State) : (s.succeed).code = s.code := rfl
@[simp] theorem State.succeed_tail (s : State) : (s.succeed).tail = s.tail := rfl
@[simp] theorem State.succeed_store (s : State) : (s.succeed).store = s.store := rfl
@[simp] theorem State.succeed_inputs (s : State) : (s.succeed).inputs = s.inputs := rfl
@[simp] theorem State.succeed_sink (s : State) : (s.succeed).sink = s.sink := rfl
@[simp] theorem State.succeed_source (s : State) : (s.succeed).source = s.source := rfl
@[simp] theorem State.succeed_sinkLog (s : State) : (s.succeed).sinkLog = s.sinkLog := rfl
@[simp] theorem State.succeed_reads (s : State) : (s.succeed).reads = s.reads := rfl
@[simp] theorem State.succeed_draws (s : State) : (s.succeed).draws = s.draws := rfl

/-! `State.raise`. -/

@[simp] theorem State.raise_arg0 (s : State) (d : Detail) : (s.raise d).arg0 = s.arg0 := rfl
@[simp] theorem State.raise_arg1 (s : State) (d : Detail) : (s.raise d).arg1 = s.arg1 := rfl
@[simp] theorem State.raise_arg2 (s : State) (d : Detail) : (s.raise d).arg2 = s.arg2 := rfl
@[simp] theorem State.raise_res0 (s : State) (d : Detail) : (s.raise d).res0 = s.res0 := rfl
@[simp] theorem State.raise_res1 (s : State) (d : Detail) : (s.raise d).res1 = s.res1 := rfl
@[simp] theorem State.raise_res2 (s : State) (d : Detail) : (s.raise d).res2 = s.res2 := rfl
@[simp] theorem State.raise_err (s : State) (d : Detail) : (s.raise d).err = d.kind := rfl
@[simp] theorem State.raise_detail (s : State) (d : Detail) : (s.raise d).detail = d := rfl
@[simp] theorem State.raise_sess (s : State) (d : Detail) : (s.raise d).sess = s.sess := rfl
@[simp] theorem State.raise_primed (s : State) (d : Detail) : (s.raise d).primed = s.primed := rfl
@[simp] theorem State.raise_variant (s : State) (d : Detail) : (s.raise d).variant = s.variant := rfl
@[simp] theorem State.raise_par (s : State) (d : Detail) : (s.raise d).par = s.par := rfl
@[simp] theorem State.raise_low (s : State) (d : Detail) : (s.raise d).low = s.low := rfl
@[simp] theorem State.raise_high (s : State) (d : Detail) : (s.raise d).high = s.high := rfl
@[simp] theorem State.raise_pending (s : State) (d : Detail) : (s.raise d).pending = s.pending := rfl
@[simp] theorem State.raise_code (s : State) (d : Detail) : (s.raise d).code = s.code := rfl
@[simp] theorem State.raise_tail (s : State) (d : Detail) : (s.raise d).tail = s.tail := rfl
@[simp] theorem State.raise_store (s : State) (d : Detail) : (s.raise d).store = s.store := rfl
@[simp] theorem State.raise_inputs (s : State) (d : Detail) : (s.raise d).inputs = s.inputs := rfl
@[simp] theorem State.raise_sink (s : State) (d : Detail) : (s.raise d).sink = s.sink := rfl
@[simp] theorem State.raise_source (s : State) (d : Detail) : (s.raise d).source = s.source := rfl
@[simp] theorem State.raise_sinkLog (s : State) (d : Detail) : (s.raise d).sinkLog = s.sinkLog := rfl
@[simp] theorem State.raise_reads (s : State) (d : Detail) : (s.raise d).reads = s.reads := rfl
@[simp] theorem State.raise_draws (s : State) (d : Detail) : (s.raise d).draws = s.draws := rfl

/-! `State.raiseFatal`. -/

@[simp] theorem State.raiseFatal_arg0 (s : State) (d : Detail) : (s.raiseFatal d).arg0 = s.arg0 := rfl
@[simp] theorem State.raiseFatal_arg1 (s : State) (d : Detail) : (s.raiseFatal d).arg1 = s.arg1 := rfl
@[simp] theorem State.raiseFatal_arg2 (s : State) (d : Detail) : (s.raiseFatal d).arg2 = s.arg2 := rfl
@[simp] theorem State.raiseFatal_res0 (s : State) (d : Detail) : (s.raiseFatal d).res0 = s.res0 := rfl
@[simp] theorem State.raiseFatal_res1 (s : State) (d : Detail) : (s.raiseFatal d).res1 = s.res1 := rfl
@[simp] theorem State.raiseFatal_res2 (s : State) (d : Detail) : (s.raiseFatal d).res2 = s.res2 := rfl
@[simp] theorem State.raiseFatal_err (s : State) (d : Detail) : (s.raiseFatal d).err = d.kind := rfl
@[simp] theorem State.raiseFatal_detail (s : State) (d : Detail) : (s.raiseFatal d).detail = d := rfl
@[simp] theorem State.raiseFatal_sess (s : State) (d : Detail) : (s.raiseFatal d).sess = .failed := rfl
@[simp] theorem State.raiseFatal_primed (s : State) (d : Detail) :
    (s.raiseFatal d).primed = Config.freeBit (s.draws + 5) := rfl
@[simp] theorem State.raiseFatal_variant (s : State) (d : Detail) : (s.raiseFatal d).variant = s.variant := rfl
@[simp] theorem State.raiseFatal_par (s : State) (d : Detail) : (s.raiseFatal d).par = s.par := rfl
@[simp] theorem State.raiseFatal_low (s : State) (d : Detail) : (s.raiseFatal d).low = Config.freeWord s.draws := rfl
@[simp] theorem State.raiseFatal_high (s : State) (d : Detail) :
    (s.raiseFatal d).high = Config.freeWord (s.draws + 1) := rfl
@[simp] theorem State.raiseFatal_pending (s : State) (d : Detail) :
    (s.raiseFatal d).pending = Config.freeWord (s.draws + 2) := rfl
@[simp] theorem State.raiseFatal_code (s : State) (d : Detail) :
    (s.raiseFatal d).code = Config.freeWord (s.draws + 3) := rfl
@[simp] theorem State.raiseFatal_tail (s : State) (d : Detail) :
    (s.raiseFatal d).tail = Config.freeWord (s.draws + 4) := rfl
@[simp] theorem State.raiseFatal_store (s : State) (d : Detail) : (s.raiseFatal d).store = s.store := rfl
@[simp] theorem State.raiseFatal_inputs (s : State) (d : Detail) : (s.raiseFatal d).inputs = s.inputs := rfl
@[simp] theorem State.raiseFatal_sink (s : State) (d : Detail) : (s.raiseFatal d).sink = s.sink := rfl
@[simp] theorem State.raiseFatal_source (s : State) (d : Detail) : (s.raiseFatal d).source = s.source := rfl
@[simp] theorem State.raiseFatal_sinkLog (s : State) (d : Detail) : (s.raiseFatal d).sinkLog = s.sinkLog := rfl
@[simp] theorem State.raiseFatal_reads (s : State) (d : Detail) : (s.raiseFatal d).reads = s.reads := rfl
@[simp] theorem State.raiseFatal_draws (s : State) (d : Detail) : (s.raiseFatal d).draws = s.draws + 6 := rfl

/-! `endSession`. -/

@[simp] theorem endSession_arg0 (s : State) : (endSession s).arg0 = s.arg0 := rfl
@[simp] theorem endSession_arg1 (s : State) : (endSession s).arg1 = s.arg1 := rfl
@[simp] theorem endSession_arg2 (s : State) : (endSession s).arg2 = s.arg2 := rfl
@[simp] theorem endSession_res0 (s : State) : (endSession s).res0 = s.res0 := rfl
@[simp] theorem endSession_res1 (s : State) : (endSession s).res1 = s.res1 := rfl
@[simp] theorem endSession_res2 (s : State) : (endSession s).res2 = s.res2 := rfl
@[simp] theorem endSession_err (s : State) : (endSession s).err = s.err := rfl
@[simp] theorem endSession_detail (s : State) : (endSession s).detail = s.detail := rfl
@[simp] theorem endSession_sess (s : State) : (endSession s).sess = .ready := rfl
@[simp] theorem endSession_primed (s : State) : (endSession s).primed = false := rfl
@[simp] theorem endSession_variant (s : State) : (endSession s).variant = .linear := rfl
@[simp] theorem endSession_par (s : State) : (endSession s).par = s.par := rfl
@[simp] theorem endSession_low (s : State) : (endSession s).low = 0 := rfl
@[simp] theorem endSession_high (s : State) : (endSession s).high = 0 := rfl
@[simp] theorem endSession_pending (s : State) : (endSession s).pending = 0 := rfl
@[simp] theorem endSession_code (s : State) : (endSession s).code = 0 := rfl
@[simp] theorem endSession_tail (s : State) : (endSession s).tail = 0 := rfl
@[simp] theorem endSession_store (s : State) : (endSession s).store = .absent := rfl
@[simp] theorem endSession_inputs (s : State) : (endSession s).inputs = s.inputs := rfl
@[simp] theorem endSession_sink (s : State) : (endSession s).sink = s.sink := rfl
@[simp] theorem endSession_source (s : State) : (endSession s).source = s.source := rfl
@[simp] theorem endSession_sinkLog (s : State) : (endSession s).sinkLog = s.sinkLog := rfl
@[simp] theorem endSession_reads (s : State) : (endSession s).reads = s.reads := rfl
@[simp] theorem endSession_draws (s : State) : (endSession s).draws = s.draws := rfl

/-! `startSession`. -/

@[simp] theorem startSession_arg0 (s : State) (k : Sess) (v : Variant) : (startSession k v s).arg0 = s.arg0 := rfl
@[simp] theorem startSession_arg1 (s : State) (k : Sess) (v : Variant) : (startSession k v s).arg1 = s.arg1 := rfl
@[simp] theorem startSession_arg2 (s : State) (k : Sess) (v : Variant) : (startSession k v s).arg2 = s.arg2 := rfl
@[simp] theorem startSession_res0 (s : State) (k : Sess) (v : Variant) : (startSession k v s).res0 = s.res0 := rfl
@[simp] theorem startSession_res1 (s : State) (k : Sess) (v : Variant) : (startSession k v s).res1 = s.res1 := rfl
@[simp] theorem startSession_res2 (s : State) (k : Sess) (v : Variant) : (startSession k v s).res2 = s.res2 := rfl
@[simp] theorem startSession_err (s : State) (k : Sess) (v : Variant) : (startSession k v s).err = s.err := rfl
@[simp] theorem startSession_detail (s : State) (k : Sess) (v : Variant) :
    (startSession k v s).detail = s.detail := rfl
@[simp] theorem startSession_sess (s : State) (k : Sess) (v : Variant) : (startSession k v s).sess = k := rfl
@[simp] theorem startSession_primed (s : State) (k : Sess) (v : Variant) : (startSession k v s).primed = false := rfl
@[simp] theorem startSession_variant (s : State) (k : Sess) (v : Variant) : (startSession k v s).variant = v := rfl
@[simp] theorem startSession_par (s : State) (k : Sess) (v : Variant) : (startSession k v s).par = s.par := rfl
@[simp] theorem startSession_low (s : State) (k : Sess) (v : Variant) : (startSession k v s).low = 0 := rfl
@[simp] theorem startSession_high (s : State) (k : Sess) (v : Variant) :
    (startSession k v s).high = s.par.codeMax := rfl
@[simp] theorem startSession_pending (s : State) (k : Sess) (v : Variant) : (startSession k v s).pending = 0 := rfl
@[simp] theorem startSession_code (s : State) (k : Sess) (v : Variant) : (startSession k v s).code = 0 := rfl
@[simp] theorem startSession_tail (s : State) (k : Sess) (v : Variant) : (startSession k v s).tail = 0 := rfl
@[simp] theorem startSession_store (s : State) (k : Sess) (v : Variant) :
    (startSession k v s).store = Store.init v s.par.symbolCount.toNat := rfl
@[simp] theorem startSession_inputs (s : State) (k : Sess) (v : Variant) :
    (startSession k v s).inputs = s.inputs := rfl
@[simp] theorem startSession_sink (s : State) (k : Sess) (v : Variant) : (startSession k v s).sink = s.sink := rfl
@[simp] theorem startSession_source (s : State) (k : Sess) (v : Variant) :
    (startSession k v s).source = s.source := rfl
@[simp] theorem startSession_sinkLog (s : State) (k : Sess) (v : Variant) :
    (startSession k v s).sinkLog = s.sinkLog := rfl
@[simp] theorem startSession_reads (s : State) (k : Sess) (v : Variant) : (startSession k v s).reads = s.reads := rfl
@[simp] theorem startSession_draws (s : State) (k : Sess) (v : Variant) : (startSession k v s).draws = s.draws := rfl

/-! `narrow`. -/

@[simp] theorem narrow_arg0 (s : State) (sl sh t : Nat) : (narrow sl sh t s).arg0 = s.arg0 := rfl
@[simp] theorem narrow_arg1 (s : State) (sl sh t : Nat) : (narrow sl sh t s).arg1 = s.arg1 := rfl
@[simp] theorem narrow_arg2 (s : State) (sl sh t : Nat) : (narrow sl sh t s).arg2 = s.arg2 := rfl
@[simp] theorem narrow_res0 (s : State) (sl sh t : Nat) : (narrow sl sh t s).res0 = s.res0 := rfl
@[simp] theorem narrow_res1 (s : State) (sl sh t : Nat) : (narrow sl sh t s).res1 = s.res1 := rfl
@[simp] theorem narrow_res2 (s : State) (sl sh t : Nat) : (narrow sl sh t s).res2 = s.res2 := rfl
@[simp] theorem narrow_err (s : State) (sl sh t : Nat) : (narrow sl sh t s).err = s.err := rfl
@[simp] theorem narrow_detail (s : State) (sl sh t : Nat) : (narrow sl sh t s).detail = s.detail := rfl
@[simp] theorem narrow_sess (s : State) (sl sh t : Nat) : (narrow sl sh t s).sess = s.sess := rfl
@[simp] theorem narrow_primed (s : State) (sl sh t : Nat) : (narrow sl sh t s).primed = s.primed := rfl
@[simp] theorem narrow_variant (s : State) (sl sh t : Nat) : (narrow sl sh t s).variant = s.variant := rfl
@[simp] theorem narrow_par (s : State) (sl sh t : Nat) : (narrow sl sh t s).par = s.par := rfl
@[simp] theorem narrow_low (s : State) (sl sh t : Nat) :
    (narrow sl sh t s).low = word (s.low.toNat + codeRange s * sl / t) := rfl
@[simp] theorem narrow_high (s : State) (sl sh t : Nat) :
    (narrow sl sh t s).high = word (s.low.toNat + codeRange s * sh / t - 1) := rfl
@[simp] theorem narrow_pending (s : State) (sl sh t : Nat) : (narrow sl sh t s).pending = s.pending := rfl
@[simp] theorem narrow_code (s : State) (sl sh t : Nat) : (narrow sl sh t s).code = s.code := rfl
@[simp] theorem narrow_tail (s : State) (sl sh t : Nat) : (narrow sl sh t s).tail = s.tail := rfl
@[simp] theorem narrow_store (s : State) (sl sh t : Nat) : (narrow sl sh t s).store = s.store := rfl
@[simp] theorem narrow_inputs (s : State) (sl sh t : Nat) : (narrow sl sh t s).inputs = s.inputs := rfl
@[simp] theorem narrow_sink (s : State) (sl sh t : Nat) : (narrow sl sh t s).sink = s.sink := rfl
@[simp] theorem narrow_source (s : State) (sl sh t : Nat) : (narrow sl sh t s).source = s.source := rfl
@[simp] theorem narrow_sinkLog (s : State) (sl sh t : Nat) : (narrow sl sh t s).sinkLog = s.sinkLog := rfl
@[simp] theorem narrow_reads (s : State) (sl sh t : Nat) : (narrow sl sh t s).reads = s.reads := rfl
@[simp] theorem narrow_draws (s : State) (sl sh t : Nat) : (narrow sl sh t s).draws = s.draws := rfl

/-! `scale`. -/

@[simp] theorem scale_arg0 (s : State) (off : Nat) : (scale off s).arg0 = s.arg0 := rfl
@[simp] theorem scale_arg1 (s : State) (off : Nat) : (scale off s).arg1 = s.arg1 := rfl
@[simp] theorem scale_arg2 (s : State) (off : Nat) : (scale off s).arg2 = s.arg2 := rfl
@[simp] theorem scale_res0 (s : State) (off : Nat) : (scale off s).res0 = s.res0 := rfl
@[simp] theorem scale_res1 (s : State) (off : Nat) : (scale off s).res1 = s.res1 := rfl
@[simp] theorem scale_res2 (s : State) (off : Nat) : (scale off s).res2 = s.res2 := rfl
@[simp] theorem scale_err (s : State) (off : Nat) : (scale off s).err = s.err := rfl
@[simp] theorem scale_detail (s : State) (off : Nat) : (scale off s).detail = s.detail := rfl
@[simp] theorem scale_sess (s : State) (off : Nat) : (scale off s).sess = s.sess := rfl
@[simp] theorem scale_primed (s : State) (off : Nat) : (scale off s).primed = s.primed := rfl
@[simp] theorem scale_variant (s : State) (off : Nat) : (scale off s).variant = s.variant := rfl
@[simp] theorem scale_par (s : State) (off : Nat) : (scale off s).par = s.par := rfl
@[simp] theorem scale_low (s : State) (off : Nat) : (scale off s).low = word (2 * (s.low.toNat - off)) := rfl
@[simp] theorem scale_high (s : State) (off : Nat) : (scale off s).high = word (2 * (s.high.toNat - off) + 1) := rfl
@[simp] theorem scale_pending (s : State) (off : Nat) : (scale off s).pending = s.pending := rfl
@[simp] theorem scale_code (s : State) (off : Nat) : (scale off s).code = s.code := rfl
@[simp] theorem scale_tail (s : State) (off : Nat) : (scale off s).tail = s.tail := rfl
@[simp] theorem scale_store (s : State) (off : Nat) : (scale off s).store = s.store := rfl
@[simp] theorem scale_inputs (s : State) (off : Nat) : (scale off s).inputs = s.inputs := rfl
@[simp] theorem scale_sink (s : State) (off : Nat) : (scale off s).sink = s.sink := rfl
@[simp] theorem scale_source (s : State) (off : Nat) : (scale off s).source = s.source := rfl
@[simp] theorem scale_sinkLog (s : State) (off : Nat) : (scale off s).sinkLog = s.sinkLog := rfl
@[simp] theorem scale_reads (s : State) (off : Nat) : (scale off s).reads = s.reads := rfl
@[simp] theorem scale_draws (s : State) (off : Nat) : (scale off s).draws = s.draws := rfl

/-! `updateModel`. -/

@[simp] theorem updateModel_arg0 (s : State) (sym : Nat) : (updateModel sym s).arg0 = s.arg0 := rfl
@[simp] theorem updateModel_arg1 (s : State) (sym : Nat) : (updateModel sym s).arg1 = s.arg1 := rfl
@[simp] theorem updateModel_arg2 (s : State) (sym : Nat) : (updateModel sym s).arg2 = s.arg2 := rfl
@[simp] theorem updateModel_res0 (s : State) (sym : Nat) : (updateModel sym s).res0 = s.res0 := rfl
@[simp] theorem updateModel_res1 (s : State) (sym : Nat) : (updateModel sym s).res1 = s.res1 := rfl
@[simp] theorem updateModel_res2 (s : State) (sym : Nat) : (updateModel sym s).res2 = s.res2 := rfl
@[simp] theorem updateModel_err (s : State) (sym : Nat) : (updateModel sym s).err = s.err := rfl
@[simp] theorem updateModel_detail (s : State) (sym : Nat) : (updateModel sym s).detail = s.detail := rfl
@[simp] theorem updateModel_sess (s : State) (sym : Nat) : (updateModel sym s).sess = s.sess := rfl
@[simp] theorem updateModel_primed (s : State) (sym : Nat) : (updateModel sym s).primed = s.primed := rfl
@[simp] theorem updateModel_variant (s : State) (sym : Nat) : (updateModel sym s).variant = s.variant := rfl
@[simp] theorem updateModel_par (s : State) (sym : Nat) : (updateModel sym s).par = s.par := rfl
@[simp] theorem updateModel_low (s : State) (sym : Nat) : (updateModel sym s).low = s.low := rfl
@[simp] theorem updateModel_high (s : State) (sym : Nat) : (updateModel sym s).high = s.high := rfl
@[simp] theorem updateModel_pending (s : State) (sym : Nat) : (updateModel sym s).pending = s.pending := rfl
@[simp] theorem updateModel_code (s : State) (sym : Nat) : (updateModel sym s).code = s.code := rfl
@[simp] theorem updateModel_tail (s : State) (sym : Nat) : (updateModel sym s).tail = s.tail := rfl
@[simp] theorem updateModel_store (s : State) (sym : Nat) :
    (updateModel sym s).store = s.store.update s.par.freqMax.toNat sym := rfl
@[simp] theorem updateModel_inputs (s : State) (sym : Nat) : (updateModel sym s).inputs = s.inputs := rfl
@[simp] theorem updateModel_sink (s : State) (sym : Nat) : (updateModel sym s).sink = s.sink := rfl
@[simp] theorem updateModel_source (s : State) (sym : Nat) : (updateModel sym s).source = s.source := rfl
@[simp] theorem updateModel_sinkLog (s : State) (sym : Nat) : (updateModel sym s).sinkLog = s.sinkLog := rfl
@[simp] theorem updateModel_reads (s : State) (sym : Nat) : (updateModel sym s).reads = s.reads := rfl
@[simp] theorem updateModel_draws (s : State) (sym : Nat) : (updateModel sym s).draws = s.draws := rfl

/-! `returnToHost`. -/

@[simp] theorem returnToHost_arg0 (s : State) (v : Word) : (returnToHost v s).arg0 = s.arg0 := rfl
@[simp] theorem returnToHost_arg1 (s : State) (v : Word) : (returnToHost v s).arg1 = s.arg1 := rfl
@[simp] theorem returnToHost_arg2 (s : State) (v : Word) : (returnToHost v s).arg2 = s.arg2 := rfl
@[simp] theorem returnToHost_res0 (s : State) (v : Word) : (returnToHost v s).res0 = s.res0 := rfl
@[simp] theorem returnToHost_res1 (s : State) (v : Word) : (returnToHost v s).res1 = s.res1 := rfl
@[simp] theorem returnToHost_res2 (s : State) (v : Word) : (returnToHost v s).res2 = s.res2 := rfl
@[simp] theorem returnToHost_err (s : State) (v : Word) : (returnToHost v s).err = s.err := rfl
@[simp] theorem returnToHost_detail (s : State) (v : Word) : (returnToHost v s).detail = s.detail := rfl
@[simp] theorem returnToHost_sess (s : State) (v : Word) : (returnToHost v s).sess = s.sess := rfl
@[simp] theorem returnToHost_primed (s : State) (v : Word) : (returnToHost v s).primed = s.primed := rfl
@[simp] theorem returnToHost_variant (s : State) (v : Word) : (returnToHost v s).variant = s.variant := rfl
@[simp] theorem returnToHost_par (s : State) (v : Word) : (returnToHost v s).par = s.par := rfl
@[simp] theorem returnToHost_low (s : State) (v : Word) : (returnToHost v s).low = s.low := rfl
@[simp] theorem returnToHost_high (s : State) (v : Word) : (returnToHost v s).high = s.high := rfl
@[simp] theorem returnToHost_pending (s : State) (v : Word) : (returnToHost v s).pending = s.pending := rfl
@[simp] theorem returnToHost_code (s : State) (v : Word) : (returnToHost v s).code = s.code := rfl
@[simp] theorem returnToHost_tail (s : State) (v : Word) : (returnToHost v s).tail = s.tail := rfl
@[simp] theorem returnToHost_store (s : State) (v : Word) : (returnToHost v s).store = s.store := rfl
@[simp] theorem returnToHost_inputs (s : State) (v : Word) : (returnToHost v s).inputs = s.inputs := rfl
@[simp] theorem returnToHost_sink (s : State) (v : Word) : (returnToHost v s).sink = s.sink := rfl
@[simp] theorem returnToHost_source (s : State) (v : Word) : (returnToHost v s).source = s.source := rfl
@[simp] theorem returnToHost_sinkLog (s : State) (v : Word) : (returnToHost v s).sinkLog = s.sinkLog := rfl
@[simp] theorem returnToHost_reads (s : State) (v : Word) : (returnToHost v s).reads = s.reads ++ [v] := rfl
@[simp] theorem returnToHost_draws (s : State) (v : Word) : (returnToHost v s).draws = s.draws := rfl

/-! `returnDraw`. -/

@[simp] theorem returnDraw_arg0 (s : State) : (returnDraw s).arg0 = s.arg0 := rfl
@[simp] theorem returnDraw_arg1 (s : State) : (returnDraw s).arg1 = s.arg1 := rfl
@[simp] theorem returnDraw_arg2 (s : State) : (returnDraw s).arg2 = s.arg2 := rfl
@[simp] theorem returnDraw_res0 (s : State) : (returnDraw s).res0 = s.res0 := rfl
@[simp] theorem returnDraw_res1 (s : State) : (returnDraw s).res1 = s.res1 := rfl
@[simp] theorem returnDraw_res2 (s : State) : (returnDraw s).res2 = s.res2 := rfl
@[simp] theorem returnDraw_err (s : State) : (returnDraw s).err = s.err := rfl
@[simp] theorem returnDraw_detail (s : State) : (returnDraw s).detail = s.detail := rfl
@[simp] theorem returnDraw_sess (s : State) : (returnDraw s).sess = s.sess := rfl
@[simp] theorem returnDraw_primed (s : State) : (returnDraw s).primed = s.primed := rfl
@[simp] theorem returnDraw_variant (s : State) : (returnDraw s).variant = s.variant := rfl
@[simp] theorem returnDraw_par (s : State) : (returnDraw s).par = s.par := rfl
@[simp] theorem returnDraw_low (s : State) : (returnDraw s).low = s.low := rfl
@[simp] theorem returnDraw_high (s : State) : (returnDraw s).high = s.high := rfl
@[simp] theorem returnDraw_pending (s : State) : (returnDraw s).pending = s.pending := rfl
@[simp] theorem returnDraw_code (s : State) : (returnDraw s).code = s.code := rfl
@[simp] theorem returnDraw_tail (s : State) : (returnDraw s).tail = s.tail := rfl
@[simp] theorem returnDraw_store (s : State) : (returnDraw s).store = s.store := rfl
@[simp] theorem returnDraw_inputs (s : State) : (returnDraw s).inputs = s.inputs := rfl
@[simp] theorem returnDraw_sink (s : State) : (returnDraw s).sink = s.sink := rfl
@[simp] theorem returnDraw_source (s : State) : (returnDraw s).source = s.source := rfl
@[simp] theorem returnDraw_sinkLog (s : State) : (returnDraw s).sinkLog = s.sinkLog := rfl
@[simp] theorem returnDraw_reads (s : State) : (returnDraw s).reads = s.reads ++ [Config.freeWord s.draws] := rfl
@[simp] theorem returnDraw_draws (s : State) : (returnDraw s).draws = s.draws + 1 := rfl

/-! `hardwareReset`. -/

@[simp] theorem hardwareReset_arg0 (s : State) : (hardwareReset s).arg0 = State.reset.arg0 := rfl
@[simp] theorem hardwareReset_arg1 (s : State) : (hardwareReset s).arg1 = State.reset.arg1 := rfl
@[simp] theorem hardwareReset_arg2 (s : State) : (hardwareReset s).arg2 = State.reset.arg2 := rfl
@[simp] theorem hardwareReset_res0 (s : State) : (hardwareReset s).res0 = State.reset.res0 := rfl
@[simp] theorem hardwareReset_res1 (s : State) : (hardwareReset s).res1 = State.reset.res1 := rfl
@[simp] theorem hardwareReset_res2 (s : State) : (hardwareReset s).res2 = State.reset.res2 := rfl
@[simp] theorem hardwareReset_err (s : State) : (hardwareReset s).err = State.reset.err := rfl
@[simp] theorem hardwareReset_detail (s : State) : (hardwareReset s).detail = State.reset.detail := rfl
@[simp] theorem hardwareReset_sess (s : State) : (hardwareReset s).sess = State.reset.sess := rfl
@[simp] theorem hardwareReset_primed (s : State) : (hardwareReset s).primed = State.reset.primed := rfl
@[simp] theorem hardwareReset_variant (s : State) : (hardwareReset s).variant = State.reset.variant := rfl
@[simp] theorem hardwareReset_par (s : State) : (hardwareReset s).par = State.reset.par := rfl
@[simp] theorem hardwareReset_low (s : State) : (hardwareReset s).low = State.reset.low := rfl
@[simp] theorem hardwareReset_high (s : State) : (hardwareReset s).high = State.reset.high := rfl
@[simp] theorem hardwareReset_pending (s : State) : (hardwareReset s).pending = State.reset.pending := rfl
@[simp] theorem hardwareReset_code (s : State) : (hardwareReset s).code = State.reset.code := rfl
@[simp] theorem hardwareReset_tail (s : State) : (hardwareReset s).tail = State.reset.tail := rfl
@[simp] theorem hardwareReset_store (s : State) : (hardwareReset s).store = State.reset.store := rfl
@[simp] theorem hardwareReset_inputs (s : State) : (hardwareReset s).inputs = s.inputs := rfl
@[simp] theorem hardwareReset_sink (s : State) : (hardwareReset s).sink = s.sink := rfl
@[simp] theorem hardwareReset_source (s : State) : (hardwareReset s).source = s.source := rfl
@[simp] theorem hardwareReset_sinkLog (s : State) : (hardwareReset s).sinkLog = s.sinkLog := rfl
@[simp] theorem hardwareReset_reads (s : State) : (hardwareReset s).reads = s.reads := rfl
@[simp] theorem hardwareReset_draws (s : State) : (hardwareReset s).draws = s.draws := rfl

/-! `placeCommand`. -/

@[simp] theorem placeCommand_arg0 (s : State) (v : Word) : (placeCommand v s).arg0 = s.arg0 := rfl
@[simp] theorem placeCommand_arg1 (s : State) (v : Word) : (placeCommand v s).arg1 = s.arg1 := rfl
@[simp] theorem placeCommand_arg2 (s : State) (v : Word) : (placeCommand v s).arg2 = s.arg2 := rfl
@[simp] theorem placeCommand_res0 (s : State) (v : Word) : (placeCommand v s).res0 = s.res0 := rfl
@[simp] theorem placeCommand_res1 (s : State) (v : Word) : (placeCommand v s).res1 = s.res1 := rfl
@[simp] theorem placeCommand_res2 (s : State) (v : Word) : (placeCommand v s).res2 = s.res2 := rfl
@[simp] theorem placeCommand_err (s : State) (v : Word) : (placeCommand v s).err = s.err := rfl
@[simp] theorem placeCommand_detail (s : State) (v : Word) : (placeCommand v s).detail = s.detail := rfl
@[simp] theorem placeCommand_sess (s : State) (v : Word) : (placeCommand v s).sess = s.sess := rfl
@[simp] theorem placeCommand_primed (s : State) (v : Word) : (placeCommand v s).primed = s.primed := rfl
@[simp] theorem placeCommand_variant (s : State) (v : Word) : (placeCommand v s).variant = s.variant := rfl
@[simp] theorem placeCommand_par (s : State) (v : Word) : (placeCommand v s).par = s.par := rfl
@[simp] theorem placeCommand_low (s : State) (v : Word) : (placeCommand v s).low = s.low := rfl
@[simp] theorem placeCommand_high (s : State) (v : Word) : (placeCommand v s).high = s.high := rfl
@[simp] theorem placeCommand_pending (s : State) (v : Word) : (placeCommand v s).pending = s.pending := rfl
@[simp] theorem placeCommand_code (s : State) (v : Word) : (placeCommand v s).code = s.code := rfl
@[simp] theorem placeCommand_tail (s : State) (v : Word) : (placeCommand v s).tail = s.tail := rfl
@[simp] theorem placeCommand_store (s : State) (v : Word) : (placeCommand v s).store = s.store := rfl
@[simp] theorem placeCommand_inputs (s : State) (v : Word) :
    (placeCommand v s).inputs = HostEvent.write 0x000 64 v :: s.inputs := rfl
@[simp] theorem placeCommand_sink (s : State) (v : Word) : (placeCommand v s).sink = s.sink := rfl
@[simp] theorem placeCommand_source (s : State) (v : Word) : (placeCommand v s).source = s.source := rfl
@[simp] theorem placeCommand_sinkLog (s : State) (v : Word) : (placeCommand v s).sinkLog = s.sinkLog := rfl
@[simp] theorem placeCommand_reads (s : State) (v : Word) : (placeCommand v s).reads = s.reads := rfl
@[simp] theorem placeCommand_draws (s : State) (v : Word) : (placeCommand v s).draws = s.draws := rfl

end Sys2Proof.Machine
end

