-- ==== Sys2Proof/Laws/Ops.lean ====
section
/-! SUPPORT. What the shared operations of Machine/Ops.lean can do: runs and their composition, the port events, and the
outcome of a command. Each is said once here. -/

namespace Sys2Proof.Machine

/-! Runs. -/

@[simp] theorem Run.bind_done {α β : Type} (a : α) (s : State) (k : α → State → Run β) :
    (Run.done a s).bind k = k a s := rfl

@[simp] theorem Run.bind_raised {α β : Type} (d : Detail) (s : State) (k : α → State → Run β) :
    (Run.raised d s : Run α).bind k = .raised d s := rfl

@[simp] theorem Run.bind_stuck {α β : Type} (f : Fault) (k : α → State → Run β) :
    (Run.stuck f : Run α).bind k = .stuck f := rfl

theorem Run.bind_assoc {α β γ : Type} (r : Run α) (k : α → State → Run β) (l : β → State → Run γ) :
    (r.bind k).bind l = r.bind fun a s => (k a s).bind l := by
  cases r <;> rfl

/-- A composed run finishes exactly when both parts do. -/
theorem Run.bind_eq_done {α β : Type} {r : Run α} {k : α → State → Run β} {b : β} {u : State} :
    r.bind k = .done b u ↔ ∃ a s, r = .done a s ∧ k a s = .done b u := by
  cases r <;> simp [Run.bind]

/-- A composed run raises exactly when its first part does, or its second does after the first finished. -/
theorem Run.bind_eq_raised {α β : Type} {r : Run α} {k : α → State → Run β} {d : Detail} {u : State} :
    r.bind k = .raised d u ↔ r = .raised d u ∨ ∃ a s, r = .done a s ∧ k a s = .raised d u := by
  cases r <;> simp [Run.bind]

/-- A composed run waits for ever exactly when its first part does, or its second does after the first finished. -/
theorem Run.bind_eq_stuck {α β : Type} {r : Run α} {k : α → State → Run β} {f : Fault} :
    r.bind k = .stuck f ↔ r = .stuck f ∨ ∃ a s, r = .done a s ∧ k a s = .stuck f := by
  cases r <;> simp [Run.bind]

/-- Where a run may end, as a relation between the state it starts from and the states it finishes or raises in. -/
def Run.Within {α : Type} (r : Run α) (P : State → Prop) : Prop :=
  (∀ a t, r = .done a t → P t) ∧ ∀ d t, r = .raised d t → P t

/-- Composition of two bounded parts is bounded. -/
theorem Run.within_bind {α β : Type} {r : Run α} {k : α → State → Run β} {P Q : State → Prop}
    (hr : r.Within P) (hk : ∀ a t, P t → (k a t).Within Q) (hPQ : ∀ t, P t → Q t) : (r.bind k).Within Q := by
  constructor
  · intro b u h
    obtain ⟨a, s, h1, h2⟩ := Run.bind_eq_done.1 h
    exact (hk a s (hr.1 a s h1)).1 b u h2
  · intro d u h
    rcases Run.bind_eq_raised.1 h with h | ⟨a, s, h1, h2⟩
    · exact hPQ u (hr.2 d u h)
    · exact (hk a s (hr.1 a s h1)).2 d u h2

@[simp] theorem Run.within_done {α : Type} {a : α} {s : State} {P : State → Prop} :
    (Run.done a s).Within P ↔ P s := by
  constructor
  · intro h
    exact h.1 a s rfl
  · intro h
    constructor
    · intro b t e
      cases e
      exact h
    · intro d t e
      cases e

@[simp] theorem Run.within_raised {α : Type} {d : Detail} {s : State} {P : State → Prop} :
    (Run.raised d s : Run α).Within P ↔ P s := by
  constructor
  · intro h
    exact h.2 d s rfl
  · intro h
    constructor
    · intro b t e
      cases e
    · intro d t e
      cases e
      exact h

@[simp] theorem Run.within_stuck {α : Type} {f : Fault} {P : State → Prop} : (Run.stuck f : Run α).Within P := by
  constructor
  · intro b t e
    cases e
  · intro d t e
    cases e

/-- The three ways a symbol command's run settles (60_exceptions.md R203, R209, 70_reset_and_hazards.md R239). -/
theorem Run.settle_eq_next {r : Run Unit} {t : State} :
    r.settle = .next t ↔
      (∃ u, r = .done () u ∧ t = u.succeed) ∨ ∃ d u, r = .raised d u ∧ t = u.raiseFatal d := by
  cases r <;> simp [Run.settle, eq_comm]

theorem Run.settle_eq_fault {r : Run Unit} {f : Fault} : r.settle = .fault f ↔ r = .stuck f := by
  cases r <;> simp [Run.settle]

/-! Kinds of the causes. -/

/-- Every cause but NONE is an error (60_exceptions.md R201). -/
theorem Detail.kind_ne_ok {d : Detail} (h : d ≠ .none) : d.kind ≠ .ok := by
  cases d <;> simp_all [Detail.kind]

/-! The bit-sink port. -/

@[simp] theorem SinkPort.dropAnswers_zero (p : SinkPort) : p.dropAnswers 0 = p := rfl

@[simp] theorem SinkPort.answer_cons (a : SinkAnswer) (q : List SinkAnswer) (x : Option SinkAnswer) :
    SinkPort.answer ⟨a :: q, x⟩ = (some a, ⟨q, x⟩) := rfl

@[simp] theorem SinkPort.answer_nil (x : Option SinkAnswer) : SinkPort.answer ⟨[], x⟩ = (x, ⟨[], x⟩) := rfl

/-- Taking an answer drops it from the queue. -/
theorem SinkPort.answer_snd (p : SinkPort) : p.answer.2 = p.dropAnswers 1 := by
  rcases p with ⟨_ | ⟨a, q⟩, x⟩ <;> rfl

theorem SinkPort.dropAnswers_add (p : SinkPort) (j k : Nat) :
    (p.dropAnswers j).dropAnswers k = p.dropAnswers (j + k) := by
  simp [SinkPort.dropAnswers, List.drop_drop]

/-- Accepting k + 1 events is accepting one, and then k. -/
theorem SinkPort.acceptsNext_succ (k : Nat) (p : SinkPort) :
    p.acceptsNext (k + 1) = true ↔ p.answer.1 = some .ok ∧ (p.dropAnswers 1).acceptsNext k = true := by
  rw [← SinkPort.answer_snd, SinkPort.acceptsNext]
  split <;> rename_i h
  · simp [h]
  · constructor
    · intro e
      cases e
    · rintro ⟨e, -⟩
      exact absurd (Prod.ext e rfl : p.answer = (some .ok, p.answer.2)) (h _)

/-- Accepting j + k events is accepting j, and then k. -/
theorem SinkPort.acceptsNext_add (j k : Nat) (p : SinkPort) :
    p.acceptsNext (j + k) = true ↔ p.acceptsNext j = true ∧ (p.dropAnswers j).acceptsNext k = true := by
  induction j generalizing p with
  | zero => simp [SinkPort.acceptsNext]
  | succ j ih =>
    rw [Nat.add_right_comm, SinkPort.acceptsNext_succ, SinkPort.acceptsNext_succ, ih, SinkPort.dropAnswers_add,
      Nat.add_comm 1 j, and_assoc]

/-- What one sink event can do (60_exceptions.md R220, 70_reset_and_hazards.md R239). -/
theorem sinkEvent_cases (e : SinkEvent) (s : State) :
    (s.sink.answer.1 = some .ok ∧
      sinkEvent e s = .done () { s with sink := s.sink.dropAnswers 1, sinkLog := s.sinkLog ++ [e] })
    ∨ (s.sink.answer.1 = some .ioError ∧
      sinkEvent e s = .raised .sinkFailed { s with sink := s.sink.dropAnswers 1 })
    ∨ (s.sink.answer.1 = none ∧ sinkEvent e s = .stuck .sinkNeverAnswers) := by
  rw [← SinkPort.answer_snd]
  unfold sinkEvent
  split <;> rename_i h <;> simp [h]

/-- The sink events of a list, one after the other. -/
def sinkEvents : List SinkEvent → State → Run Unit
  | [], s => .done () s
  | e :: es, s => (sinkEvent e s).bind fun _ s => sinkEvents es s

theorem sinkEvents_append (es fs : List SinkEvent) (s : State) :
    sinkEvents (es ++ fs) s = (sinkEvents es s).bind fun _ s => sinkEvents fs s := by
  induction es generalizing s with
  | nil => rfl
  | cons e es ih => simp only [List.cons_append, sinkEvents, Run.bind_assoc, ih]

theorem emitMany_eq_sinkEvents (b : Bool) (k : Nat) (s : State) :
    emitMany b k s = sinkEvents (List.replicate k (SinkEvent.bit b)) s := by
  induction k generalizing s with
  | zero => rfl
  | succ k ih => simp only [emitMany, emitBit, List.replicate_succ, sinkEvents, ih]

/-- A sink that accepts every event of the list receives them in order (20_memory.md R71). -/
theorem sinkEvents_accepted (es : List SinkEvent) (s : State) (h : s.sink.acceptsNext es.length = true) :
    sinkEvents es s =
      .done () { s with sink := s.sink.dropAnswers es.length, sinkLog := s.sinkLog ++ es } := by
  induction es generalizing s with
  | nil => simp [sinkEvents]
  | cons e es ih =>
    obtain ⟨h1, h2⟩ := (SinkPort.acceptsNext_succ es.length s.sink).1 h
    rcases sinkEvent_cases e s with ⟨-, h3⟩ | ⟨h3, -⟩ | ⟨h3, -⟩
    · simp only [sinkEvents, h3, Run.bind_done]
      rw [ih _ h2]
      simp [SinkPort.dropAnswers_add, Nat.add_comm]
    · simp [h1] at h3
    · simp [h1] at h3

/-- A sink that accepts the first m events of a list and not the next: it keeps those m, and the run raises SINK_FAILED or
waits for ever as the next answer says (60_exceptions.md R206, R220). -/
theorem sinkEvents_cut (es : List SinkEvent) (m : Nat) (s : State) (hm : m < es.length)
    (h : s.sink.acceptsNext m = true) :
    ((s.sink.dropAnswers m).answer.1 = some .ioError →
      sinkEvents es s = .raised .sinkFailed
        { s with sink := s.sink.dropAnswers (m + 1), sinkLog := s.sinkLog ++ es.take m })
    ∧ ((s.sink.dropAnswers m).answer.1 = none → sinkEvents es s = .stuck .sinkNeverAnswers) := by
  have hsplit : es = es.take m ++ es[m] :: es.drop (m + 1) := by
    rw [List.getElem_cons_drop, List.take_append_drop]
  have hacc := sinkEvents_accepted (es.take m) s (by simpa [Nat.le_of_lt hm] using h)
  have hlen : (es.take m).length = m := by simp [Nat.le_of_lt hm]
  rw [hlen] at hacc
  have hgo : sinkEvents es s =
      (sinkEvent es[m] { s with sink := s.sink.dropAnswers m, sinkLog := s.sinkLog ++ es.take m }).bind
        fun _ s => sinkEvents (es.drop (m + 1)) s := by
    conv_lhs => rw [hsplit, sinkEvents_append, hacc]
    rfl
  rw [hgo]
  rcases sinkEvent_cases es[m] { s with sink := s.sink.dropAnswers m, sinkLog := s.sinkLog ++ es.take m }
    with ⟨h3, -⟩ | ⟨h3, h4⟩ | ⟨h3, h4⟩
  · constructor <;> intro h5 <;> simp [h5] at h3
  · constructor <;> intro h5
    · simp [h4, SinkPort.dropAnswers_add]
    · simp [h5] at h3
  · constructor <;> intro h5
    · simp [h5] at h3
    · simp [h4]

/-- Sink events change the sink side only, and only by adding to what the sink has. -/
def SinkOnly (s t : State) : Prop :=
  ∃ later : List SinkEvent, t = { s with sink := t.sink, sinkLog := s.sinkLog ++ later }

theorem sinkEvents_within (es : List SinkEvent) (s : State) : (sinkEvents es s).Within (SinkOnly s) := by
  induction es generalizing s with
  | nil => exact Run.within_done.2 ⟨[], by simp⟩
  | cons e es ih =>
    refine Run.within_bind (P := SinkOnly s) ?_ ?_ fun _ h => h
    · rcases sinkEvent_cases e s with ⟨-, h⟩ | ⟨-, h⟩ | ⟨-, h⟩ <;> rw [h]
      · exact Run.within_done.2 ⟨[e], rfl⟩
      · exact Run.within_raised.2 ⟨[], by simp⟩
      · exact Run.within_stuck
    · rintro - t ⟨later, h⟩
      have grow : ∀ u, SinkOnly t u → SinkOnly s u := by
        rintro u ⟨more, hu⟩
        refine ⟨later ++ more, ?_⟩
        rw [hu, h]
        simp
      exact ⟨fun a u hu => grow u ((ih t).1 a u hu), fun d u hu => grow u ((ih t).2 d u hu)⟩

/-! The bit-source port. -/

@[simp] theorem SourcePort.answer_bit (b : Bool) (q : List SourceItem) (x : Option SourceEnd) :
    SourcePort.answer ⟨.bit b :: q, x⟩ = (some (.bit b), ⟨q, x⟩) := rfl

@[simp] theorem SourcePort.answer_ioError (q : List SourceItem) (x : Option SourceEnd) :
    SourcePort.answer ⟨.ioError :: q, x⟩ = (some .ioError, ⟨q, x⟩) := rfl

@[simp] theorem SourcePort.answer_end_eof : SourcePort.answer ⟨[], some .eof⟩ = (some .eof, ⟨[], some .eof⟩) := rfl

@[simp] theorem SourcePort.answer_end_ioError :
    SourcePort.answer ⟨[], some .ioError⟩ = (some .ioError, ⟨[], some .ioError⟩) := rfl

@[simp] theorem SourcePort.answer_end_none : SourcePort.answer ⟨[], none⟩ = (none, ⟨[], none⟩) := rfl

/-- Taking an answer drops it from the queue. -/
theorem SourcePort.answer_snd (p : SourcePort) : p.answer.2 = { p with queue := p.queue.drop 1 } := by
  rcases p with ⟨_ | ⟨_ | _, q⟩, _ | _ | _⟩ <;> rfl

/-- Once Eof, always Eof: the source's duty of 20_memory.md R74. -/
theorem SourcePort.answer_eof_sticky (p : SourcePort) (h : p.answer.1 = some .eof) : p.answer.2 = p := by
  rcases p with ⟨_ | ⟨_ | _, q⟩, _ | _ | _⟩ <;> simp_all [SourcePort.answer]

/-- What one source event can do (70_reset_and_hazards.md R239). -/
theorem sourceBit_cases (s : State) :
    (∃ a, s.source.answer.1 = some a ∧ sourceBit s = .done a { s with source := s.source.answer.2 })
    ∨ (s.source.answer.1 = none ∧ sourceBit s = .stuck .sourceNeverAnswers) := by
  unfold sourceBit
  split <;> rename_i h <;> simp [h]

end Sys2Proof.Machine
end

