-- ==== Sys2Proof/Laws/Codec.lean ====
section
/-! SUPPORT. What the codec's operations can do (Machine/Codec.lean): the bands and bounds as the rules' own relation, which
fields each operation may change, and the two renormalisation loops run along the scaling steps of `ScalesTo`. -/

namespace Sys2Proof.Machine

/-! Bands and bounds. -/

theorem band_eq_bandOf (s : State) : band s = bandOf s.par s.low.toNat s.high.toNat := rfl

theorem narrow_low_eq (s : State) (sl sh t : Nat) : (narrow sl sh t s).low = word (narrowLow s sl t) := rfl

theorem narrow_high_eq (s : State) (sl sh t : Nat) : (narrow sl sh t s).high = word (narrowHigh s sh t) := rfl

/-- The band that applies is one of the three, with its condition, or none of the conditions holds (42_codec.md R164). -/
theorem bandOf_cases (p : Params) (lo hi : Nat) :
    (bandOf p lo hi = .e1 ∧ hi < p.codeHalf.toNat)
    ∨ (bandOf p lo hi = .e2 ∧ p.codeHalf.toNat ≤ hi ∧ p.codeHalf.toNat ≤ lo)
    ∨ (bandOf p lo hi = .e3 ∧ p.codeHalf.toNat ≤ hi ∧ lo < p.codeHalf.toNat ∧ p.codeOneFourth.toNat ≤ lo
      ∧ hi < p.codeThreeFourths.toNat)
    ∨ (bandOf p lo hi = .none ∧ p.codeHalf.toNat ≤ hi ∧ lo < p.codeHalf.toNat
      ∧ (lo < p.codeOneFourth.toNat ∨ p.codeThreeFourths.toNat ≤ hi)) := by
  unfold bandOf
  split
  · simp_all
  · split
    · simp_all
    · split <;> simp_all
      omega

/-- The scaling steps of given bounds are determined (42_codec.md R164). -/
theorem ScalesTo.unique {p : Params} {lo hi lo₁ hi₁ lo₂ hi₂ : Nat} {bs₁ bs₂ : List Band}
    (h₁ : ScalesTo p lo hi bs₁ lo₁ hi₁) (h₂ : ScalesTo p lo hi bs₂ lo₂ hi₂) :
    bs₁ = bs₂ ∧ lo₁ = lo₂ ∧ hi₁ = hi₂ := by
  induction h₁ generalizing bs₂ with
  | stop h =>
    cases h₂ with
    | stop => exact ⟨rfl, rfl, rfl⟩
    | step hb hn _ => exact absurd (hb.symm.trans h) hn
  | step hb hn _ ih =>
    cases h₂ with
    | stop h => exact absurd (hb.symm.trans h) hn
    | step hb' _ hs =>
      obtain rfl := hb.symm.trans hb'
      obtain ⟨rfl, rfl, rfl⟩ := ih hs
      exact ⟨rfl, rfl, rfl⟩

/-- Scaling ends where no band applies. -/
theorem ScalesTo.band_none {p : Params} {lo hi lo' hi' : Nat} {bs : List Band}
    (h : ScalesTo p lo hi bs lo' hi') : bandOf p lo' hi' = .none := by
  induction h with
  | stop h => exact h
  | step _ _ _ ih => exact ih

/-! The quarter points of configured registers (40_configuration.md R101). -/

/-- What the loops need of the code registers: four quarters of one size, below 2^62. -/
def Quarters (p : Params) : Prop :=
  p.codeHalf.toNat = 2 * p.codeOneFourth.toNat
    ∧ p.codeThreeFourths.toNat = 3 * p.codeOneFourth.toNat
    ∧ p.codeMax.toNat + 1 = 4 * p.codeOneFourth.toNat
    ∧ 4 * p.codeOneFourth.toNat < 2 ^ 64

/-- A scaling step of bounds within the code range stays within it, keeps their order, and doubles the range
(42_codec.md R166, R168). -/
theorem scaled_bounds {p : Params} (hq : Quarters p) {lo hi : Nat} (hle : lo ≤ hi) (hmax : hi ≤ p.codeMax.toNat)
    (hb : bandOf p lo hi ≠ .none) :
    2 * (lo - bandOffset p (bandOf p lo hi)) ≤ 2 * (hi - bandOffset p (bandOf p lo hi)) + 1
      ∧ 2 * (hi - bandOffset p (bandOf p lo hi)) + 1 ≤ p.codeMax.toNat
      ∧ (2 * (hi - bandOffset p (bandOf p lo hi)) + 1) + 1 - 2 * (lo - bandOffset p (bandOf p lo hi))
        = 2 * (hi + 1 - lo) := by
  obtain ⟨h1, h2, h3, -⟩ := hq
  rcases bandOf_cases p lo hi with ⟨e, h⟩ | ⟨e, h⟩ | ⟨e, h⟩ | ⟨e, h⟩
  · rw [e]
    simp only [bandOffset]
    omega
  · rw [e]
    simp only [bandOffset]
    omega
  · rw [e]
    simp only [bandOffset]
    omega
  · exact absurd e hb

/-! The encoder. -/

/-- What the encoder's renormalisation may change: LOW, HIGH, PENDING and the sink side, adding to what the sink has. -/
def EncoderOnly (s t : State) : Prop :=
  ∃ later : List SinkEvent,
    t = { s with low := t.low, high := t.high, pending := t.pending, sink := t.sink, sinkLog := s.sinkLog ++ later }

theorem EncoderOnly.refl (s : State) : EncoderOnly s s := ⟨[], by simp⟩

theorem EncoderOnly.trans {s t u : State} (h₁ : EncoderOnly s t) (h₂ : EncoderOnly t u) : EncoderOnly s u := by
  obtain ⟨l₁, h₁⟩ := h₁
  obtain ⟨l₂, h₂⟩ := h₂
  refine ⟨l₁ ++ l₂, ?_⟩
  rw [h₂, h₁]
  simp

theorem EncoderOnly.of_sinkOnly {s t : State} (h : SinkOnly s t) : EncoderOnly s t := by
  obtain ⟨l, h⟩ := h
  refine ⟨l, ?_⟩
  rw [h]

/-- EmitFollow is the events of the resolved bit and its followers, and then PENDING is 0 (42_codec.md R165). -/
theorem emitFollow_eq (b : Bool) (s : State) :
    emitFollow b s =
      (sinkEvents ((b :: List.replicate s.pending.toNat (!b)).map SinkEvent.bit) s).bind
        fun _ s => .done () { s with pending := 0 } := by
  unfold emitFollow emitBit
  rw [List.map_cons, List.map_replicate, sinkEvents, Run.bind_assoc]
  rcases sinkEvent_cases (.bit b) s with ⟨-, h⟩ | ⟨-, h⟩ | ⟨-, h⟩ <;> simp [h, emitMany_eq_sinkEvents]

theorem emitFollow_within (b : Bool) (s : State) : (emitFollow b s).Within (EncoderOnly s) := by
  rw [emitFollow_eq]
  refine Run.within_bind (sinkEvents_within _ s) ?_ fun t h => EncoderOnly.of_sinkOnly h
  rintro - t ⟨l, h⟩
  refine Run.within_done.2 ⟨l, ?_⟩
  rw [h]

theorem incPending_within (s : State) : (incPending s).Within (EncoderOnly s) := by
  unfold incPending
  split
  · exact Run.within_raised.2 (EncoderOnly.refl s)
  · exact Run.within_done.2 ⟨[], by simp⟩

theorem scale_encoderOnly (off : Nat) (s : State) : EncoderOnly s (scale off s) := ⟨[], by simp [scale]⟩

theorem encStep_within (b : Band) (s : State) : (encStep b s).Within (EncoderOnly s) := by
  have close : ∀ (r : Run Unit) (x : Band), r.Within (EncoderOnly s) →
      (r.bind fun _ t => .done () (scale (bandOffset t.par x) t)).Within (EncoderOnly s) := fun r x h =>
    Run.within_bind h (fun _ t ht => Run.within_done.2 (ht.trans (scale_encoderOnly _ t))) fun _ ht => ht
  cases b with
  | e1 => exact close _ _ (emitFollow_within false s)
  | e2 => exact close _ _ (emitFollow_within true s)
  | e3 => exact close _ _ (incPending_within s)
  | none => exact Run.within_done.2 (EncoderOnly.refl s)

/-- EncRenorm changes LOW, HIGH, PENDING and the sink side only, however it ends (42_codec.md R167). -/
theorem encRenormLoop_within (k : Nat) (s : State) : (encRenormLoop k s).Within (EncoderOnly s) := by
  induction k generalizing s with
  | zero => exact Run.within_stuck
  | succ k ih =>
    rw [encRenormLoop]
    split
    · exact Run.within_done.2 (EncoderOnly.refl s)
    · refine Run.within_bind (encStep_within _ s) ?_ fun _ h => h
      intro _ t ht
      exact ⟨fun a u hu => ht.trans ((ih t).1 a u hu), fun d u hu => ht.trans ((ih t).2 d u hu)⟩

theorem encRenorm_within (s : State) : (encRenorm s).Within (EncoderOnly s) := encRenormLoop_within renormFuel s

/-- One scaling step of the encoder whose events the sink accepts and whose PENDING stays within its width
(42_codec.md R165 to R167). -/
theorem encStep_accepted (b : Band) (s : State) (hb : b ≠ .none)
    (hfits : pendingFits s.pending.toNat [b] = true)
    (hsink : s.sink.acceptsNext (scaleBits s.pending.toNat [b]).1.length = true) :
    encStep b s = .done () { s with
      low := word (2 * (s.low.toNat - bandOffset s.par b))
      high := word (2 * (s.high.toNat - bandOffset s.par b) + 1)
      pending := word (scaleBits s.pending.toNat [b]).2
      sink := s.sink.dropAnswers (scaleBits s.pending.toNat [b]).1.length
      sinkLog := s.sinkLog ++ (scaleBits s.pending.toNat [b]).1.map SinkEvent.bit } := by
  have follow : ∀ x : Bool,
      s.sink.acceptsNext (List.map SinkEvent.bit (x :: List.replicate s.pending.toNat (!x))).length = true →
      emitFollow x s = .done () { s with
        pending := 0
        sink := s.sink.dropAnswers (x :: List.replicate s.pending.toNat (!x)).length
        sinkLog := s.sinkLog ++ (x :: List.replicate s.pending.toNat (!x)).map SinkEvent.bit } := by
    intro x hx
    rw [emitFollow_eq, sinkEvents_accepted _ s hx]
    simp
  cases b with
  | e1 =>
    simp only [scaleBits, List.append_nil] at hsink ⊢
    rw [encStep, follow false (by simpa using hsink)]
    rfl
  | e2 =>
    simp only [scaleBits, List.append_nil] at hsink ⊢
    rw [encStep, follow true (by simpa using hsink)]
    rfl
  | e3 =>
    have hne : s.pending.toNat ≠ pendingMax := by
      simp only [pendingFits, Bool.and_true, decide_eq_true_eq] at hfits
      omega
    simp [encStep, incPending, hne, scaleBits, scale, highFill]
  | none => exact absurd rfl hb

/-- The bits of a step and of the steps after it. -/
theorem scaleBits_cons (pend : Nat) (b : Band) (bs : List Band) :
    scaleBits pend (b :: bs) =
      ((scaleBits pend [b]).1 ++ (scaleBits (scaleBits pend [b]).2 bs).1,
        (scaleBits (scaleBits pend [b]).2 bs).2) := by
  cases b <;> simp [scaleBits]

theorem pendingFits_cons (pend : Nat) (b : Band) (bs : List Band) :
    pendingFits pend (b :: bs) = (pendingFits pend [b] && pendingFits (scaleBits pend [b]).2 bs) := by
  cases b <;> simp [scaleBits, pendingFits]

theorem scaleBits_le_pendingMax {pend : Nat} {b : Band} (h : pend ≤ pendingMax) (hf : pendingFits pend [b] = true) :
    (scaleBits pend [b]).2 ≤ pendingMax := by
  cases b <;> simp_all [scaleBits, pendingFits]

/-- EncRenorm along its scaling steps, when the sink accepts what they emit and PENDING stays within its width: the bounds
are those of `ScalesTo`, the bits and PENDING those of `scaleBits` (42_codec.md R167). -/
theorem encRenormLoop_along (steps : List Band) :
    ∀ (k : Nat) (s : State) (lo hi : Nat), Quarters s.par → s.low.toNat ≤ s.high.toNat →
      s.high.toNat ≤ s.par.codeMax.toNat → ScalesTo s.par s.low.toNat s.high.toNat steps lo hi →
      pendingFits s.pending.toNat steps = true →
      s.sink.acceptsNext (scaleBits s.pending.toNat steps).1.length = true →
      encRenormLoop (steps.length + 1 + k) s = .done () { s with
        low := word lo, high := word hi, pending := word (scaleBits s.pending.toNat steps).2
        sink := s.sink.dropAnswers (scaleBits s.pending.toNat steps).1.length
        sinkLog := s.sinkLog ++ (scaleBits s.pending.toNat steps).1.map SinkEvent.bit } := by
  induction steps with
  | nil =>
    intro k s lo hi _ _ _ hs _ _
    cases hs with
    | stop h =>
      rw [List.length_nil, Nat.zero_add, Nat.add_comm, encRenormLoop, if_pos (by rw [band_eq_bandOf, h])]
      simp [scaleBits]
  | cons b bs ih =>
    intro k s lo hi hq hle hmax hs hfits hsink
    cases hs with
    | step hb hn hrest =>
      have hbs := scaled_bounds hq hle hmax (by rw [hb]; exact hn)
      rw [hb] at hbs
      have hlt : s.par.codeMax.toNat < 2 ^ 64 := s.par.codeMax.isLt
      rw [scaleBits_cons] at hsink ⊢
      rw [pendingFits_cons, Bool.and_eq_true] at hfits
      simp only [List.length_append] at hsink
      obtain ⟨hs1, hs2⟩ := (SinkPort.acceptsNext_add _ _ _).1 hsink
      have hpend := scaleBits_le_pendingMax (by unfold pendingMax; have := s.pending.isLt; omega) hfits.1
      have hpw : (word (scaleBits s.pending.toNat [b]).2).toNat = (scaleBits s.pending.toNat [b]).2 := by
        rw [word, BitVec.toNat_ofNat, Nat.mod_eq_of_lt]
        unfold pendingMax at hpend
        omega
      have hlo : (word (2 * (s.low.toNat - bandOffset s.par b))).toNat = 2 * (s.low.toNat - bandOffset s.par b) := by
        rw [word, BitVec.toNat_ofNat, Nat.mod_eq_of_lt]
        omega
      have hhi : (word (2 * (s.high.toNat - bandOffset s.par b) + 1)).toNat
          = 2 * (s.high.toNat - bandOffset s.par b) + 1 := by
        rw [word, BitVec.toNat_ofNat, Nat.mod_eq_of_lt]
        omega
      rw [List.length_cons, show bs.length + 1 + 1 + k = (bs.length + 1 + k) + 1 by omega, encRenormLoop,
        if_neg (by rw [band_eq_bandOf, hb]; exact hn), band_eq_bandOf, hb, encStep_accepted b s hn hfits.1 hs1,
        Run.bind_done]
      refine (ih k _ lo hi ?_ ?_ ?_ ?_ ?_ ?_).trans ?_
      · exact hq
      · simpa only [hlo, hhi] using hbs.1
      · simpa only [hhi] using hbs.2.1
      · simpa only [hlo, hhi] using hrest
      · simpa only [hpw] using hfits.2
      · simpa only [hpw] using hs2
      · simp [hpw, SinkPort.dropAnswers_add]

/-! The decoder. -/

/-- What taking bits may change: the source and TAIL. -/
def SourceOnly (s t : State) : Prop := t = { s with source := t.source, tail := t.tail }

/-- What the decoder's part of a command may change: LOW, HIGH, CODE, PRIMED, TAIL and the source. -/
def DecoderOnly (s t : State) : Prop :=
  t = { s with
    low := t.low, high := t.high, code := t.code, primed := t.primed, tail := t.tail, source := t.source }

theorem DecoderOnly.refl (s : State) : DecoderOnly s s := rfl

theorem DecoderOnly.trans {s t u : State} (h₁ : DecoderOnly s t) (h₂ : DecoderOnly t u) : DecoderOnly s u := by
  unfold DecoderOnly at *
  rw [h₂, h₁]

theorem DecoderOnly.of_sourceOnly {s t : State} (h : SourceOnly s t) : DecoderOnly s t := by
  unfold DecoderOnly SourceOnly at *
  rw [h]

theorem readCodeBit_within (s : State) : (readCodeBit s).Within (SourceOnly s) := by
  unfold readCodeBit
  rcases sourceBit_cases s with ⟨a, -, h⟩ | ⟨-, h⟩
  · rw [h, Run.bind_done]
    cases a with
    | bit b => exact Run.within_done.2 rfl
    | ioError => exact Run.within_raised.2 rfl
    | eof =>
      simp only
      split
      · exact Run.within_done.2 rfl
      · exact Run.within_raised.2 rfl
  · rw [h]
    exact Run.within_stuck

theorem primeLoop_within (k : Nat) (s : State) : (primeLoop k s).Within (DecoderOnly s) := by
  induction k generalizing s with
  | zero => exact Run.within_done.2 (DecoderOnly.refl s)
  | succ k ih =>
    rw [primeLoop]
    refine Run.within_bind (readCodeBit_within s) ?_ fun _ h => .of_sourceOnly h
    intro b t ht
    have hstep : DecoderOnly s { t with code := word (2 * t.code.toNat + b.toNat) } :=
      (DecoderOnly.of_sourceOnly ht).trans rfl
    exact ⟨fun a u hu => hstep.trans ((ih _).1 a u hu), fun d u hu => hstep.trans ((ih _).2 d u hu)⟩

/-- Prime changes CODE, PRIMED, TAIL and the source only, however it ends (42_codec.md R173). -/
theorem prime_within (s : State) : (prime s).Within (DecoderOnly s) := by
  unfold prime
  split
  · exact Run.within_done.2 (DecoderOnly.refl s)
  · have h0 : DecoderOnly s { s with code := 0 } := rfl
    refine Run.within_bind (primeLoop_within _ _) ?_ fun t ht => h0.trans ht
    intro _ t ht
    exact Run.within_done.2 ((h0.trans ht).trans rfl)

theorem decStep_within (b : Band) (s : State) : (decStep b s).Within (DecoderOnly s) := by
  unfold decStep
  refine Run.within_bind (readCodeBit_within s) ?_ fun _ h => .of_sourceOnly h
  intro bit t ht
  exact Run.within_done.2 ((DecoderOnly.of_sourceOnly ht).trans rfl)

theorem decRenormLoop_within (k : Nat) (s : State) : (decRenormLoop k s).Within (DecoderOnly s) := by
  induction k generalizing s with
  | zero => exact Run.within_stuck
  | succ k ih =>
    rw [decRenormLoop]
    split
    · exact Run.within_done.2 (DecoderOnly.refl s)
    · refine Run.within_bind (decStep_within _ s) ?_ fun _ h => h
      intro _ t ht
      exact ⟨fun a u hu => ht.trans ((ih t).1 a u hu), fun d u hu => ht.trans ((ih t).2 d u hu)⟩

/-- DecRenorm changes LOW, HIGH, CODE, TAIL and the source only, however it ends (42_codec.md R175). -/
theorem decRenorm_within (s : State) : (decRenorm s).Within (DecoderOnly s) := decRenormLoop_within renormFuel s

end Sys2Proof.Machine
end

