-- ==== Sys2Proof/Laws/Decoder.lean ====
section
/-! SUPPORT. The decoder's loops along the bits at hand: reading a code bit, priming, and the renormalisation run along the
scaling steps of `ScalesTo`. -/

namespace Sys2Proof.Machine

@[simp] theorem word_toNat_self (w : Word) : word w.toNat = w := BitVec.ofNat_toNat 64 w

/-- The update of 42_codec.md R172 by one bit taken is the first of `afterCodeBits`. -/
@[simp] theorem afterCodeBits_zero (s : State) : afterCodeBits 0 s = s := by
  simp [afterCodeBits]

theorem afterCodeBits_add (j k : Nat) (s : State) :
    afterCodeBits j (afterCodeBits k s) = afterCodeBits (k + j) s := by
  have e : k - s.source.queue.length + (j - (s.source.queue.length - k)) = k + j - s.source.queue.length := by omega
  have ht : word ((word (s.tail.toNat + (k - s.source.queue.length))).toNat + (j - (s.source.queue.length - k)))
      = word (s.tail.toNat + (k + j - s.source.queue.length)) := by
    apply BitVec.eq_of_toNat_eq
    simp only [word, BitVec.toNat_ofNat]
    rw [Nat.mod_add_mod, Nat.add_assoc, e]
  simp only [afterCodeBits, List.length_drop, List.drop_drop, ht]

@[simp] theorem afterCodeBits_par (k : Nat) (s : State) : (afterCodeBits k s).par = s.par := rfl

/-- `afterCodeBits` and `codeBits` read only the source, TAIL and CODE_BITS. -/
theorem codeBits_congr {s t : State} (h1 : s.source = t.source) (h2 : s.tail = t.tail) (h3 : s.par = t.par) :
    codeBits s = codeBits t := by
  simp only [codeBits, h1, h2, h3]

/-- ReadCodeBit while a bit is at hand: it gives that bit, and the others stay at hand (42_codec.md R172). -/
theorem readCodeBit_of_codeBits {s : State} {b : Bool} {bs : List Bool} (h : codeBits s = b :: bs) :
    readCodeBit s = .done b (afterCodeBits 1 s) ∧ codeBits (afterCodeBits 1 s) = bs := by
  rcases hs : s.source with ⟨_ | ⟨c | _, q⟩, x⟩
  · rcases x with _ | _ | _
    · simp [codeBits, hs, leadingBits] at h
    · simp only [codeBits, hs, leadingBits, List.length_nil, and_self, if_true, List.nil_append] at h
      have hpos : 0 < tailBudget s.par.codeBits.toNat - s.tail.toNat := by
        rcases Nat.eq_zero_or_pos (tailBudget s.par.codeBits.toNat - s.tail.toNat) with e | e
        · rw [e] at h
          simp at h
        · exact e
      obtain ⟨m, hm⟩ : ∃ m, tailBudget s.par.codeBits.toNat - s.tail.toNat = m + 1 := ⟨_, (Nat.succ_pred_eq_of_pos hpos).symm⟩
      rw [hm, List.replicate_succ, List.cons.injEq] at h
      obtain ⟨rfl, rfl⟩ := h
      have hlt : s.tail.toNat < tailBudget s.par.codeBits.toNat := by omega
      have hw : (s.tail.toNat + 1) % 18446744073709551616 = s.tail.toNat + 1 := by
        apply Nat.mod_eq_of_lt
        have := s.par.codeBits.isLt
        unfold tailBudget at hlt
        omega
      constructor
      · simp only [readCodeBit, sourceBit, hs, SourcePort.answer_end_eof, Run.bind_done, hlt, if_true]
        simp [afterCodeBits, hs]
      · have hm' : tailBudget s.par.codeBits.toNat - (s.tail.toNat + 1) = m := by omega
        simp [codeBits, afterCodeBits, hs, leadingBits, hw, hm']
    · simp [codeBits, hs, leadingBits] at h
  · simp only [codeBits, hs, leadingBits, List.length_cons, Nat.add_right_cancel_iff, List.cons_append,
      List.cons.injEq] at h
    obtain ⟨rfl, rfl⟩ := h
    constructor
    · simp [readCodeBit, sourceBit, hs, afterCodeBits]
    · simp [codeBits, afterCodeBits, hs]
  · simp [codeBits, hs, leadingBits] at h

/-- Taking bits at hand leaves the rest of them at hand. -/
theorem codeBits_afterCodeBits (k : Nat) :
    ∀ s : State, k ≤ (codeBits s).length → codeBits (afterCodeBits k s) = (codeBits s).drop k := by
  induction k with
  | zero => intro s _; simp
  | succ k ih =>
    intro s h
    cases hc : codeBits s with
    | nil => simp [hc] at h
    | cons b bs =>
      obtain ⟨-, h2⟩ := readCodeBit_of_codeBits hc
      rw [Nat.add_comm, ← afterCodeBits_add, ih _ (by rw [h2]; simpa [hc] using h), h2, Nat.add_comm, List.drop_succ_cons]

/-- ReadCodeBit when no bit is at hand, by what the source answers (42_codec.md R172). -/
theorem readCodeBit_of_none {s : State} (h : codeBits s = []) :
    (s.source.answer.1 = some .eof ∧ readCodeBit s = .raised .sourceExhausted s)
    ∨ (s.source.answer.1 = some .ioError ∧ readCodeBit s = .raised .sourceFailed { s with source := s.source.answer.2 })
    ∨ (s.source.answer.1 = none ∧ readCodeBit s = .stuck .sourceNeverAnswers) := by
  rcases hs : s.source with ⟨_ | ⟨c | _, q⟩, x⟩
  · rcases x with _ | _ | _
    · simp [readCodeBit, sourceBit, hs]
    · simp only [codeBits, hs, leadingBits, List.length_nil, and_self, if_true, List.nil_append,
        List.replicate_eq_nil_iff] at h
      have hlt : ¬s.tail.toNat < tailBudget s.par.codeBits.toNat := by omega
      refine .inl ⟨rfl, ?_⟩
      simp only [readCodeBit, sourceBit, hs, SourcePort.answer_end_eof, Run.bind_done, hlt, if_false]
      rw [← hs]
    · simp [readCodeBit, sourceBit, hs]
  · simp [codeBits, hs, leadingBits] at h
  · simp [readCodeBit, sourceBit, hs]

/-- Priming's loop along the bits at hand (42_codec.md R173). -/
theorem primeLoop_along (k : Nat) :
    ∀ s : State, k ≤ (codeBits s).length →
      primeLoop k s = .done ()
        { s with
          source := (afterCodeBits k s).source
          tail := (afterCodeBits k s).tail
          code := word (shiftIn s.code.toNat ((codeBits s).take k)) } := by
  induction k with
  | zero =>
    intro s _
    simp [primeLoop, shiftIn]
  | succ k ih =>
    intro s h
    cases hc : codeBits s with
    | nil => simp [hc] at h
    | cons b bs =>
      obtain ⟨h1, h2⟩ := readCodeBit_of_codeBits hc
      have hcode : ∀ (l : List Bool) (n : Nat), word (shiftIn (word n).toNat l) = word (shiftIn n l) := by
        intro l
        induction l with
        | nil =>
          intro n
          simp only [shiftIn, List.foldl_nil]
          exact word_toNat_self (word n)
        | cons x l ih2 =>
          intro n
          have e1 := ih2 (2 * (word n).toNat + x.toNat)
          have e2 := ih2 (2 * n + x.toNat)
          have e3 : word (2 * (word n).toNat + x.toNat) = word (2 * n + x.toNat) := by
            apply BitVec.eq_of_toNat_eq
            simp only [word, BitVec.toNat_ofNat]
            omega
          rw [e3] at e1
          simp only [shiftIn, List.foldl_cons] at e1 e2 ⊢
          rw [← e1, e2]
      rw [primeLoop, h1, Run.bind_done]
      have hcb : codeBits { afterCodeBits 1 s with code := word (2 * (afterCodeBits 1 s).code.toNat + b.toNat) } = bs :=
        (codeBits_congr rfl rfl rfl).trans h2
      rw [ih _ (by rw [hcb]; simpa [hc] using h), hcb]
      have hadd := afterCodeBits_add k 1 s
      have hsrc : (afterCodeBits (k + 1) s).source = (afterCodeBits k (afterCodeBits 1 s)).source := by
        rw [hadd, Nat.add_comm]
      have htl : (afterCodeBits (k + 1) s).tail = (afterCodeBits k (afterCodeBits 1 s)).tail := by
        rw [hadd, Nat.add_comm]
      rw [hsrc, htl, List.take_succ_cons, hcode]
      rfl

/-- DecRenorm along its scaling steps, when a bit is at hand for each and CODE lies in the range (42_codec.md R175). -/
theorem decRenormLoop_along (steps : List Band) :
    ∀ (k : Nat) (s : State) (lo hi : Nat), Quarters s.par → s.low.toNat ≤ s.code.toNat →
      s.code.toNat ≤ s.high.toNat → s.high.toNat ≤ s.par.codeMax.toNat →
      ScalesTo s.par s.low.toNat s.high.toNat steps lo hi → steps.length ≤ (codeBits s).length →
      decRenormLoop (steps.length + 1 + k) s = .done ()
        { s with
          low := word lo
          high := word hi
          code := word (windowAfter s.par s.code.toNat steps (codeBits s))
          source := (afterCodeBits steps.length s).source
          tail := (afterCodeBits steps.length s).tail } := by
  induction steps with
  | nil =>
    intro k s lo hi _ _ _ _ hs _
    cases hs with
    | stop h =>
      rw [List.length_nil, Nat.zero_add, Nat.add_comm, decRenormLoop, if_pos (by rw [band_eq_bandOf, h])]
      simp [windowAfter]
  | cons b bs ih =>
    intro k s lo hi hq hlc hch hmax hs hlen
    cases hs with
    | step hb hn hrest =>
      cases hc : codeBits s with
      | nil => simp [hc] at hlen
      | cons x xs =>
        obtain ⟨h1, h2⟩ := readCodeBit_of_codeBits hc
        have hle := hlc.trans hch
        have hbs := scaled_bounds hq hle hmax (by rw [hb]; exact hn)
        rw [hb] at hbs
        have hx : x.toNat ≤ 1 := Bool.toNat_le x
        have hlt : s.par.codeMax.toNat < 2 ^ 64 := s.par.codeMax.isLt
        have hlo : (word (2 * (s.low.toNat - bandOffset s.par b))).toNat
            = 2 * (s.low.toNat - bandOffset s.par b) := by
          rw [word, BitVec.toNat_ofNat, Nat.mod_eq_of_lt]
          omega
        have hhi : (word (2 * (s.high.toNat - bandOffset s.par b) + 1)).toNat
            = 2 * (s.high.toNat - bandOffset s.par b) + 1 := by
          rw [word, BitVec.toNat_ofNat, Nat.mod_eq_of_lt]
          omega
        have hco : (word (2 * (s.code.toNat - bandOffset s.par b) + x.toNat)).toNat
            = 2 * (s.code.toNat - bandOffset s.par b) + x.toNat := by
          rw [word, BitVec.toNat_ofNat, Nat.mod_eq_of_lt]
          omega
        rw [List.length_cons, show bs.length + 1 + 1 + k = (bs.length + 1 + k) + 1 by omega, decRenormLoop,
          if_neg (by rw [band_eq_bandOf, hb]; exact hn), band_eq_bandOf, hb, decStep, h1, Run.bind_done]
        simp only [Run.bind_done, scale, highFill, afterCodeBits_par]
        set u : State := { s with
          low := word (2 * (s.low.toNat - bandOffset s.par b))
          high := word (2 * (s.high.toNat - bandOffset s.par b) + 1)
          code := word (2 * (s.code.toNat - bandOffset s.par b) + x.toNat)
          source := (afterCodeBits 1 s).source
          tail := (afterCodeBits 1 s).tail } with hu
        have hcb : codeBits u = xs := (codeBits_congr rfl rfl rfl).trans h2
        have hstep : decRenormLoop (bs.length + 1 + k) u = _ := ih k u lo hi hq (by rw [hu]; simp only [hlo, hco]; omega)
          (by rw [hu]; simp only [hhi, hco]; omega) (by rw [hu]; simp only [hhi]; exact hbs.2.1)
          (by rw [hu]; simp only [hlo, hhi]; exact hrest) (by rw [hcb]; simpa [hc] using hlen)
        refine hstep.trans ?_
        have hadd := afterCodeBits_add bs.length 1 s
        have hsrc : (afterCodeBits (bs.length + 1) s).source = (afterCodeBits bs.length (afterCodeBits 1 s)).source := by
          rw [hadd, Nat.add_comm]
        have htl : (afterCodeBits (bs.length + 1) s).tail = (afterCodeBits bs.length (afterCodeBits 1 s)).tail := by
          rw [hadd, Nat.add_comm]
        rw [hsrc, htl, hcb, windowAfter]
        have huc : u.code.toNat = 2 * (s.code.toNat - bandOffset s.par b) + x.toNat := hco
        rw [huc]
        rfl

end Sys2Proof.Machine
end

