-- ==== Sys2Proof/Laws/HostPort.lean ====
section
/-! SUPPORT. What a step and a command can do: a step by the next outside event (Machine/HostPort.lean, Machine/Step.lean), and
each family of commands by its outcome, so that no later proof unfolds the dispatch. -/

namespace Sys2Proof.Machine

/-! A step, by the next outside event (20_memory.md R69). -/

theorem step_idle {s : State} (h : s.inputs = []) : step s = .next s := by
  rw [step, serveNext, h]

theorem step_serve {s : State} {e : HostEvent} {rest : List HostEvent} (h : s.inputs = e :: rest) :
    step s = serve e { s with inputs := rest } := by
  rw [step, serveNext, h]

/-- Everything a step can do: nothing without an event, else that event served on the state it has been taken from. -/
theorem step_cases (s : State) :
    (s.inputs = [] ∧ step s = .next s)
    ∨ ∃ e rest, s.inputs = e :: rest ∧ step s = serve e { s with inputs := rest } := by
  cases h : s.inputs with
  | nil => exact .inl ⟨rfl, step_idle h⟩
  | cons e rest => exact .inr ⟨e, rest, rfl, step_serve h⟩

/-- The next state of a served event, kind by kind; the block's form of the events of 20_memory.md R61 and
70_reset_and_hazards.md R230, R232. -/
theorem serve_eq_next {e : HostEvent} {s t : State} (h : serve e s = .next t) :
    (∃ off w, e = .read off w ∧ accessWellFormed off w = true ∧ t = hostRead (regAt off) s)
    ∨ (∃ off w v, e = .write off w v ∧ accessWellFormed off w = true ∧ hostWrite (regAt off) v s = .next t)
    ∨ (e = .reset ∧ t = hardwareReset s)
    ∨ ∃ p, e = .setSource p ∧ ¬(s.sess = .dec ∧ s.tail ≠ 0) ∧ t = { s with source := p } := by
  cases e with
  | read off w =>
    simp only [serve] at h
    split at h
    · rename_i hw
      exact .inl ⟨off, w, rfl, hw, (by simpa using h.symm)⟩
    · cases h
  | write off w v =>
    simp only [serve] at h
    split at h
    · rename_i hw
      exact .inr (.inl ⟨off, w, v, rfl, hw, h⟩)
    · cases h
  | reset =>
    simp only [serve] at h
    exact .inr (.inr (.inl ⟨rfl, by simpa using h.symm⟩))
  | setSource p =>
    simp only [serve, positionSource] at h
    split at h
    · cases h
    · rename_i hn
      exact .inr (.inr (.inr ⟨p, rfl, hn, by simpa using h.symm⟩))

/-- A host write either issues a command, or sets an ARG register, or does nothing (20_memory.md R63, R64). -/
theorem hostWrite_cases (r : HostReg) (v : Word) (s : State) :
    (r = .cmd ∧ hostWrite r v s = issue v s)
    ∨ (r = .arg0 ∧ hostWrite r v s = .next { s with arg0 := v })
    ∨ (r = .arg1 ∧ hostWrite r v s = .next { s with arg1 := v })
    ∨ (r = .arg2 ∧ hostWrite r v s = .next { s with arg2 := v })
    ∨ hostWrite r v s = .next s := by
  cases r <;> simp [hostWrite]

/-- A command word runs its command; any other word reports ILLEGAL_COMMAND (30_encoding.md R85, R87). -/
theorem issue_cases (v : Word) (s : State) :
    (∃ i, decode v = .ok i ∧ issue v s = exec i s)
    ∨ ((∃ d, decode v = .error d) ∧ issue v s = .next (s.raise .illegalCommand)) := by
  unfold issue
  split <;> rename_i x h
  · exact .inl ⟨x, h, rfl⟩
  · exact .inr ⟨⟨x, h⟩, rfl⟩

/-- A host read returns one value and may draw one free value; it changes nothing else (20_memory.md R65). -/
theorem hostRead_cases (r : HostReg) (s : State) :
    (∃ v, hostRead r s = { s with reads := s.reads ++ [v] })
    ∨ ∃ v, hostRead r s = { s with reads := s.reads ++ [v], draws := s.draws + 1 } := by
  unfold hostRead
  split
  · exact .inr ⟨_, rfl⟩
  · split
    · exact .inl ⟨_, rfl⟩
    · exact .inr ⟨_, rfl⟩

/-- A well-formed access is whole, aligned and in the window (20_memory.md R62). -/
theorem accessWellFormed_iff {off w : Nat} : accessWellFormed off w = true ↔ w = 64 ∧ off % 8 = 0 ∧ off ≤ 0x0F8 := by
  simp [accessWellFormed, and_assoc]

/-- Only the offset 0 is CMD (20_memory.md R61). -/
theorem regAt_eq_cmd {off : Nat} : regAt off = .cmd ↔ off = 0 := by
  unfold regAt
  split <;> simp_all

/-! The commands, by their outcome. -/

/-- A model command's next state (41_model.md R139, 60_exceptions.md R204, R209). -/
theorem modelCommand_eq_next {body : State → Except Detail State} {s t : State} :
    modelCommand body s = .next t ↔
      (s.sess.hasModel = true ∧ ((∃ u, body s = .ok u ∧ t = u.succeed) ∨ ∃ d, body s = .error d ∧ t = s.raise d))
      ∨ (s.sess.hasModel = false ∧ t = s.raise .badState) := by
  unfold modelCommand
  cases hm : s.sess.hasModel with
  | false => simp [eq_comm]
  | true => cases hb : body s <;> simp [eq_comm]

/-- A model command always has a next state. -/
theorem modelCommand_isNext (body : State → Except Detail State) (s : State) :
    ∃ t, modelCommand body s = .next t := by
  unfold modelCommand
  split
  · split <;> exact ⟨_, rfl⟩
  · exact ⟨_, rfl⟩

/-- CFG's next state (40_configuration.md R100). -/
theorem execCfg_cases (s : State) :
    (validWidths s.arg0.toNat s.arg1.toNat s.arg2.toNat = true
      ∧ execCfg s = .next (State.succeed
        (endSession { s with par := Params.derive s.arg0.toNat s.arg1.toNat s.arg2.toNat })))
    ∨ (validWidths s.arg0.toNat s.arg1.toNat s.arg2.toNat = false ∧ execCfg s = .next (s.raise .badParams)) := by
  unfold execCfg operand0 operand1 operand2
  cases h : validWidths s.arg0.toNat s.arg1.toNat s.arg2.toNat <;> simp

/-- The next state of INIT_ENC and INIT_DEC (42_codec.md R160, R161). -/
theorem initSession_cases (kind : Sess) (s : State) :
    (s.sess = .unconf ∧ initSession kind s = .next (s.raise .badState))
    ∨ (s.sess ≠ .unconf ∧ (∃ v, variantOfOperand s.arg0.toNat = some v
      ∧ initSession kind s = .next (startSession kind v s).succeed))
    ∨ (s.sess ≠ .unconf ∧ variantOfOperand s.arg0.toNat = none ∧ initSession kind s = .next (s.raise .badVariant)) := by
  unfold initSession operand0
  by_cases h : s.sess = .unconf
  · exact .inl ⟨h, by rw [if_pos h]⟩
  · rw [if_neg h]
    cases hv : variantOfOperand s.arg0.toNat with
    | none => exact .inr (.inr ⟨h, rfl, rfl⟩)
    | some v => exact .inr (.inl ⟨h, v, rfl, rfl⟩)

/-- An INIT operand names a variant exactly when it is 0 or 1 (42_codec.md R160). -/
theorem variantOfOperand_eq_none {n : Nat} : variantOfOperand n = none ↔ 1 < n := by
  unfold variantOfOperand
  split
  · simp
  · simp
  · rename_i h0 h1
    have : n ≠ 0 := h0
    have : n ≠ 1 := h1
    simp
    omega

/-- A symbol command's outcome outside its session and inside it (42_codec.md R170, R171, R176). -/
theorem execEncSym_of_enc {s : State} (h : s.sess = .enc) : execEncSym s = (encSymBody s).settle := if_pos h

theorem execEncSym_of_not_enc {s : State} (h : s.sess ≠ .enc) : execEncSym s = .next (s.raise .badState) := if_neg h

theorem execEncFinish_of_enc {s : State} (h : s.sess = .enc) : execEncFinish s = (encFinishBody s).settle := if_pos h

theorem execEncFinish_of_not_enc {s : State} (h : s.sess ≠ .enc) : execEncFinish s = .next (s.raise .badState) :=
  if_neg h

theorem execDecSym_of_dec {s : State} (h : s.sess = .dec) : execDecSym s = (decSymBody s).settle := if_pos h

theorem execDecSym_of_not_dec {s : State} (h : s.sess ≠ .dec) : execDecSym s = .next (s.raise .badState) := if_neg h

/-! What the parts of a symbol command may change, however it ends. -/

/-- ENC_SYM may change LOW, HIGH, PENDING, the store, RES0 to RES2 and the sink side (42_codec.md R170). -/
def EncSymOnly (s t : State) : Prop :=
  ∃ later : List SinkEvent, t = { s with
    low := t.low, high := t.high, pending := t.pending, store := t.store, res0 := t.res0, res1 := t.res1
    res2 := t.res2, sink := t.sink, sinkLog := s.sinkLog ++ later }

theorem encSymBody_within (s : State) : (encSymBody s).Within (EncSymOnly s) := by
  unfold encSymBody
  split
  · exact Run.within_raised.2 ⟨[], by simp⟩
  · have hen : ∀ a b c u, EncoderOnly (narrow a b c s) u → EncSymOnly s u := by
      rintro a b c u ⟨later, hu⟩
      exact ⟨later, by rw [hu]; rfl⟩
    simp only
    refine Run.within_bind (encRenorm_within _) ?_ (hen _ _ _)
    rintro - u hu
    obtain ⟨later, hu⟩ := hen _ _ _ u hu
    exact Run.within_done.2 ⟨later, by rw [hu]; rfl⟩

/-- ENC_FINISH may change PENDING, SESS and the sink side (42_codec.md R171). -/
def EncFinishOnly (s t : State) : Prop :=
  ∃ later : List SinkEvent, t = { s with
    pending := t.pending, sess := t.sess, sink := t.sink, sinkLog := s.sinkLog ++ later }

theorem EncFinishOnly.trans {s t u : State} (h₁ : EncFinishOnly s t) (h₂ : EncFinishOnly t u) : EncFinishOnly s u := by
  obtain ⟨l, h₁⟩ := h₁
  obtain ⟨m, h₂⟩ := h₂
  exact ⟨l ++ m, by rw [h₂, h₁]; simp⟩

/-- A run bounded from the state a part has reached is bounded from where that part started. -/
theorem Run.within_of_trans {α : Type} {P : State → State → Prop} (htr : ∀ {s t u}, P s t → P t u → P s u)
    {s t : State} {r : Run α} (h : P s t) (hr : r.Within (P t)) : r.Within (P s) :=
  ⟨fun a u hu => htr h (hr.1 a u hu), fun d u hu => htr h (hr.2 d u hu)⟩

theorem encFinishBody_within (s : State) : (encFinishBody s).Within (EncFinishOnly s) := by
  have hsink : ∀ s t, SinkOnly s t → EncFinishOnly s t := by
    rintro s t ⟨later, h⟩
    exact ⟨later, by rw [h]⟩
  have hinc : ∀ s, (incPending s).Within (EncFinishOnly s) := by
    intro s
    unfold incPending
    split
    · exact Run.within_raised.2 ⟨[], by simp⟩
    · exact Run.within_done.2 ⟨[], by simp⟩
  have hfollow : ∀ b s, (emitFollow b s).Within (EncFinishOnly s) := by
    intro b s
    rw [emitFollow_eq]
    refine Run.within_bind (sinkEvents_within _ s) ?_ (hsink s)
    rintro - t ht
    refine Run.within_done.2 ?_
    exact (hsink s t ht).trans ⟨[], by simp⟩
  have hflush : ∀ s, (flushSink s).Within (EncFinishOnly s) := by
    intro s
    unfold flushSink
    rcases sinkEvent_cases .flush s with ⟨-, h⟩ | ⟨-, h⟩ | ⟨-, h⟩ <;> rw [h]
    · exact Run.within_done.2 ⟨[.flush], rfl⟩
    · exact Run.within_raised.2 ⟨[], by simp⟩
    · exact Run.within_stuck
  unfold encFinishBody
  refine Run.within_bind (hinc s) ?_ fun _ h => h
  rintro - t ht
  refine Run.within_of_trans (P := EncFinishOnly) EncFinishOnly.trans ht (Run.within_bind (hfollow _ t) ?_ fun _ h => h)
  rintro - u hu
  refine Run.within_of_trans (P := EncFinishOnly) EncFinishOnly.trans hu (Run.within_bind (hflush u) ?_ fun _ h => h)
  rintro - w hw
  exact Run.within_done.2 (hw.trans ⟨[], by simp⟩)

/-- DEC_SYM may change LOW, HIGH, CODE, TAIL, PRIMED, SESS, the store, RES0 to RES2 and the source (42_codec.md R176). -/
def DecSymOnly (s t : State) : Prop :=
  t = { s with
    low := t.low, high := t.high, code := t.code, tail := t.tail, primed := t.primed, sess := t.sess
    store := t.store, res0 := t.res0, res1 := t.res1, res2 := t.res2, source := t.source }

theorem decSymEnd_only (sym sl sh : Nat) (s : State) : DecSymOnly s (decSymEnd sym sl sh s) := by
  unfold decSymEnd DecSymOnly
  simp only
  split <;> rfl

theorem decSymBody_within (s : State) : (decSymBody s).Within (DecSymOnly s) := by
  have hof : ∀ s t, DecoderOnly s t → DecSymOnly s t := by
    intro s t h
    unfold DecSymOnly DecoderOnly at *
    rw [h]
  have htr : ∀ {s t u}, DecSymOnly s t → DecSymOnly t u → DecSymOnly s u := by
    intro s t u h₁ h₂
    unfold DecSymOnly at *
    rw [h₂, h₁]
  unfold decSymBody
  refine Run.within_bind (prime_within s) ?_ (hof s)
  rintro - t ht
  refine Run.within_of_trans (P := DecSymOnly) htr (hof s t ht) ?_
  unfold decSymPrimed
  simp only
  split
  · exact Run.within_raised.2 rfl
  · have hn : ∀ a b c u, DecoderOnly (narrow a b c t) u → DecSymOnly t u := by
      intro a b c u hu
      exact (show DecSymOnly t (narrow a b c t) from rfl) |> fun h => htr h (hof _ _ hu)
    refine Run.within_bind (decRenorm_within _) ?_ (hn _ _ _)
    rintro - u hu
    exact Run.within_done.2 (htr (hn _ _ _ u hu) (decSymEnd_only _ _ _ u))

end Sys2Proof.Machine
end

