-- ==== Sys2Proof/Laws/Model.lean ====
section
/-! SUPPORT. What the model's operations can do (Machine/Model.lean): the scans of the linear variant as cumulative
frequencies, the shape of every store update, and the arithmetic of `lowbit` that the tree rests on. -/

namespace Sys2Proof.Machine

/-! Cumulative frequencies, 41_model.md R120. -/

@[simp] theorem cum_zero (F : List Nat) : cum F 0 = 0 := by simp [cum]

theorem cum_cons_succ (f : Nat) (F : List Nat) (s : Nat) : cum (f :: F) (s + 1) = f + cum F s := by simp [cum]

theorem cum_succ (F : List Nat) (s : Nat) : cum F (s + 1) = cum F s + F.getD s 0 := by
  induction F generalizing s with
  | nil => simp [cum]
  | cons f F ih =>
    cases s with
    | zero => simp [cum]
    | succ s => rw [cum_cons_succ, cum_cons_succ, ih, List.getD_cons_succ, Nat.add_assoc]

theorem cum_length (F : List Nat) : cum F F.length = F.sum := by simp [cum]

theorem cum_of_length_le {F : List Nat} {s : Nat} (h : F.length ≤ s) : cum F s = F.sum := by
  simp [cum, List.take_of_length_le h]

theorem cum_mono (F : List Nat) {j k : Nat} (h : j ≤ k) : cum F j ≤ cum F k := by
  induction h with
  | refl => exact Nat.le_refl _
  | step _ ih => exact ih.trans (by rw [cum_succ]; omega)

theorem cum_le_sum (F : List Nat) (s : Nat) : cum F s ≤ F.sum := by
  rcases Nat.le_total s F.length with h | h
  · exact (cum_mono F h).trans (Nat.le_of_eq (cum_length F))
  · exact Nat.le_of_eq (cum_of_length_le h)

/-- With every frequency at least 1, each symbol's range is non-empty (41_model.md R119, R120). -/
theorem cum_lt_succ {F : List Nat} (hF : ∀ f ∈ F, 1 ≤ f) {s : Nat} (hs : s < F.length) : cum F s < cum F (s + 1) := by
  rw [cum_succ, List.getD_eq_getElem _ _ hs]
  have := hF _ (List.getElem_mem hs)
  omega

theorem length_le_sum {F : List Nat} (hF : ∀ f ∈ F, 1 ≤ f) : F.length ≤ F.sum := by
  induction F with
  | nil => simp
  | cons f F ih =>
    have h1 := hF f (List.mem_cons_self ..)
    have h2 := ih fun g hg => hF g (List.mem_cons_of_mem _ hg)
    simp only [List.length_cons, List.sum_cons]
    omega

/-! The linear scans, 41_model.md R127. -/

/-- LinFreqOf is the pair of cumulative frequencies (41_model.md R122, R127). -/
theorem linFreqOf_eq_cum (F : List Nat) :
    ∀ (s lo : Nat), s < F.length → linFreqOf F s lo = (lo + cum F s, lo + cum F (s + 1)) := by
  induction F with
  | nil => intro s lo h; simp at h
  | cons f F ih =>
    intro s lo h
    cases s with
    | zero => simp [linFreqOf, cum]
    | succ s =>
      rw [linFreqOf, ih s (lo + f) (by simpa using h), cum_cons_succ, cum_cons_succ, Nat.add_assoc, Nat.add_assoc]

/-- LinSymOf finds the owner of a value below the total, with its range (41_model.md R123, R127). -/
theorem linSymOf_owner (F : List Nat) :
    ∀ (v i c : Nat), c ≤ v → v < c + F.sum →
      ∃ s, s < F.length ∧ linSymOf F v i c = (i + s, c + cum F s, c + cum F (s + 1))
        ∧ c + cum F s ≤ v ∧ v < c + cum F (s + 1) := by
  induction F with
  | nil =>
    intro v i c h1 h2
    simp at h2
    omega
  | cons f F ih =>
    intro v i c h1 h2
    rw [linSymOf]
    split
    · rename_i h
      exact ⟨0, by simp, by simp [cum], by simpa [cum] using h1, by simpa [cum] using h⟩
    · rename_i h
      rw [List.sum_cons] at h2
      obtain ⟨s, hs, he, hl, hr⟩ := ih v (i + 1) (c + f) (by omega) (by omega)
      refine ⟨s + 1, by simpa using hs, ?_, ?_, ?_⟩
      · rw [he, cum_cons_succ, cum_cons_succ]
        simp only [Nat.add_assoc, Nat.add_comm 1 s]
      · rw [cum_cons_succ]
        omega
      · rw [cum_cons_succ]
        omega

/-- At most one symbol owns a value (41_model.md R123). -/
theorem owner_unique {F : List Nat} {v s t : Nat} (h1 : cum F s ≤ v) (h2 : v < cum F (s + 1)) (h3 : cum F t ≤ v)
    (h4 : v < cum F (t + 1)) : s = t := by
  rcases Nat.lt_trichotomy s t with h | h | h
  · exact absurd (cum_mono F (show s + 1 ≤ t from h)) (by omega)
  · exact h
  · exact absurd (cum_mono F (show t + 1 ≤ s from h)) (by omega)

/-! Counting and halving, 41_model.md R124, R125. -/

@[simp] theorem length_linInc (F : List Nat) (s : Nat) : (linInc F s).length = F.length := by simp [linInc]

@[simp] theorem length_linHalve (F : List Nat) : (linHalve F).length = F.length := by simp [linHalve]

theorem sum_linInc {F : List Nat} {s : Nat} (hs : s < F.length) : (linInc F s).sum = F.sum + 1 := by
  unfold linInc
  induction F generalizing s with
  | nil => simp at hs
  | cons f F ih =>
    cases s with
    | zero => simp; omega
    | succ s =>
      rw [List.modify_succ_cons, List.sum_cons, List.sum_cons, ih (by simpa using hs)]
      omega

/-- A halved entry is at least 1, and at most half above the entry's own floor (41_model.md R125). -/
theorem halveEntry_bounds (f : Nat) : 1 ≤ halveEntry f ∧ 2 * halveEntry f ≤ max 2 f := by
  unfold halveEntry
  omega

theorem updateFreqs_length (m s : Nat) (F : List Nat) : (updateFreqs m s F).length = F.length := by
  unfold updateFreqs
  split <;> simp

/-! The stores. -/

@[simp] theorem length_treeOf (F : List Nat) : (treeOf F).length = F.length := by simp [treeOf]

@[simp] theorem length_treeInit (n : Nat) : (treeInit n).length = n := by simp [treeInit]

@[simp] theorem length_treeFreqs (T : List Nat) : (treeFreqs T).length = T.length := by simp [treeFreqs]

@[simp] theorem length_treeRescale (T : List Nat) : (treeRescale T).length = T.length := by simp [treeRescale]

theorem treeIncLoop_length (r : Nat) : ∀ (k : Nat) (T : List Nat), (treeIncLoop r k T).length = T.length := by
  induction r with
  | zero => intro k T; rfl
  | succ r ih =>
    intro k T
    rw [treeIncLoop]
    split
    · rw [ih, List.length_modify]
    · rfl

@[simp] theorem length_treeInc (T : List Nat) (s : Nat) : (treeInc T s).length = T.length :=
  treeIncLoop_length _ _ _

@[simp] theorem Store.freqs_linear (F : List Nat) : (Store.linear F).freqs = F := rfl

@[simp] theorem Store.freqs_tree (T : List Nat) : (Store.tree T).freqs = treeFreqs T := rfl

@[simp] theorem Store.total_linear (F : List Nat) : (Store.linear F).total = F.sum := rfl

/-- Update of the linear store is Update of its frequency vector (41_model.md R124). -/
theorem Store.update_linear (F : List Nat) (m s : Nat) :
    (Store.linear F).update m s = .linear (updateFreqs m s F) := by
  unfold Store.update updateFreqs
  simp only [Store.total_linear, Store.halve, Store.inc]
  split <;> simp_all

/-! `lowbit`, 10_state.md R32. -/

/-- Two numbers that fill m bits share no bit. -/
theorem and_complement {b c m : Nat} (h : b + c + 1 = 2 ^ m) : b &&& c = 0 := by
  have hc : c = 2 ^ m - (b + 1) := by omega
  apply Nat.eq_of_testBit_eq
  intro i
  rw [Nat.testBit_and, hc, Nat.testBit_two_pow_sub_succ (by omega), Nat.zero_testBit]
  cases b.testBit i <;> simp

/-- `lowbit` of a number below 2^64 is the largest power of two that divides it (10_state.md R32). -/
theorem lowbit_eq {a b : Nat} (h : 2 ^ a * (2 * b + 1) < 2 ^ 64) : lowbit (2 ^ a * (2 * b + 1)) = 2 ^ a := by
  have ha : a < 64 := by
    by_contra hc
    have : 2 ^ 64 ≤ 2 ^ a := Nat.pow_le_pow_right (by omega) (by omega)
    have := Nat.le_mul_of_pos_right (2 ^ a) (show 0 < 2 * b + 1 by omega)
    omega
  obtain ⟨m, hm⟩ : ∃ m, 64 = a + (m + 1) := ⟨63 - a, by omega⟩
  have hp : 2 ^ 64 = 2 ^ a * (2 * 2 ^ m) := by rw [hm, pow_add, pow_succ]; ring
  have hb : 2 * b + 1 < 2 * 2 ^ m := by
    rw [hp] at h
    exact Nat.lt_of_mul_lt_mul_left h
  obtain ⟨c, hc⟩ : ∃ c, b + c + 1 = 2 ^ m := ⟨2 ^ m - b - 1, by omega⟩
  have hsub : 2 ^ 64 - 2 ^ a * (2 * b + 1) = 2 ^ a * (2 * c + 1) := by
    rw [hp, ← Nat.mul_sub]
    congr 1
    omega
  have hand := and_complement hc
  rw [lowbit, hsub]
  apply Nat.eq_of_testBit_eq
  intro i
  rw [Nat.testBit_and, Nat.testBit_two_pow_mul, Nat.testBit_two_pow_mul, Nat.testBit_two_pow]
  by_cases hi : a ≤ i
  · obtain ⟨j, rfl⟩ : ∃ j, i = a + j := ⟨i - a, by omega⟩
    cases j with
    | zero => simp
    | succ j =>
      have hz := congrArg (fun n => n.testBit j) hand
      simp only [Nat.testBit_and, Nat.zero_testBit] at hz
      have e : ∀ x : Nat, (2 * x + 1).testBit (j + 1) = x.testBit j := by
        intro x
        rw [Nat.testBit_succ]
        congr 1
        omega
      simp [e, hz]
  · simp [hi]
    omega

/-- Every number from 1 to 2^64 - 1 is a power of two times an odd number, and `lowbit` is that power. -/
theorem lowbit_spec {k : Nat} (h0 : 0 < k) (h : k < 2 ^ 64) :
    ∃ a b, k = 2 ^ a * (2 * b + 1) ∧ lowbit k = 2 ^ a := by
  obtain ⟨a, m, hm, rfl⟩ := Nat.exists_eq_two_pow_mul_odd (Nat.ne_of_gt h0)
  obtain ⟨b, rfl⟩ := hm
  exact ⟨a, b, rfl, lowbit_eq h⟩

theorem lowbit_pos {k : Nat} (h0 : 0 < k) (h : k < 2 ^ 64) : 0 < lowbit k := by
  obtain ⟨a, b, -, e⟩ := lowbit_spec h0 h
  rw [e]
  exact Nat.two_pow_pos a

theorem lowbit_le {k : Nat} (h0 : 0 < k) (h : k < 2 ^ 64) : lowbit k ≤ k := by
  obtain ⟨a, b, hk, e⟩ := lowbit_spec h0 h
  rw [e, hk]
  exact Nat.le_mul_of_pos_right _ (by omega)

end Sys2Proof.Machine
end

