-- ==== Sys2Proof/Laws/PerInstr.lean ====
section
/-! SUPPORT. What holds of every command as syntax: the family `CommandWord`, one lemma per command. -/

namespace Sys2Proof.Laws

/-- A command is well formed; its word has RSV = 0 and the command's OPC (30_encoding.md R80, R84), and the opcode map
reads that OPC as the command (R87). -/
def CommandWord.Statement (i : Instr) : Prop :=
  i.wellFormed = true ∧ rsvField (encode i) = 0#56 ∧ opcField (encode i) = opcOf i
    ∧ commandOfOpc (opcOf i).toNat = some i

theorem CommandWord.cfg : CommandWord.Statement .cfg := ⟨rfl, by decide, by decide, rfl⟩

theorem CommandWord.initEnc : CommandWord.Statement .initEnc := ⟨rfl, by decide, by decide, rfl⟩

theorem CommandWord.initDec : CommandWord.Statement .initDec := ⟨rfl, by decide, by decide, rfl⟩

theorem CommandWord.encSym : CommandWord.Statement .encSym := ⟨rfl, by decide, by decide, rfl⟩

theorem CommandWord.encFinish : CommandWord.Statement .encFinish := ⟨rfl, by decide, by decide, rfl⟩

theorem CommandWord.decSym : CommandWord.Statement .decSym := ⟨rfl, by decide, by decide, rfl⟩

theorem CommandWord.mParams : CommandWord.Statement .mParams := ⟨rfl, by decide, by decide, rfl⟩

theorem CommandWord.mTotal : CommandWord.Statement .mTotal := ⟨rfl, by decide, by decide, rfl⟩

theorem CommandWord.mFreq : CommandWord.Statement .mFreq := ⟨rfl, by decide, by decide, rfl⟩

theorem CommandWord.mSym : CommandWord.Statement .mSym := ⟨rfl, by decide, by decide, rfl⟩

theorem CommandWord.mTable : CommandWord.Statement .mTable := ⟨rfl, by decide, by decide, rfl⟩

end Sys2Proof.Laws
end

