-- ==== Sys2Proof/Tests/Slice0.lean ====
section
/-! SUPPORT. The model's own tests: well-formedness, decoding word by word, each command against the vectors of
95_test_vectors.md, and for each statement with hypotheses a state and operands that meet them together. Everything runs at
the smallest valid widths (1, 3, 5), which every build supports: SYMBOL_EOF 2, n 3, FREQ_MAX 7, CODE_MAX 31, quarters 8, 16,
24 (95_test_vectors.md, parameter sets). -/

namespace Sys2Proof.Tests

open Sys2Proof.Machine

/-! Helpers. -/

/-- The parameter registers at (1, 3, 5). -/
def par : Params := Params.derive 1 3 5

/-- After a successful CFG 1, 3, 5. -/
def ready : State := { State.reset with par := par, sess := .ready }

/-- A session at (1, 3, 5): its state, variant, F and range. -/
def session (kind : Sess) (v : Variant) (freqs : List Nat) (lo hi : Nat) : State :=
  { ready with sess := kind, variant := v, store := Store.ofFreqs v freqs, low := word lo, high := word hi }

/-- `s` with the operand in ARG0. -/
def arg (n : Nat) (s : State) : State := { s with arg0 := word n }

/-- `s` with the events to come. -/
def given (es : List HostEvent) (s : State) : State := { s with inputs := es }

/-- A field of the next state, none when there is no next state. -/
def after {α : Type} (o : Host.Outcome State Fault Refusal) (f : State → α) : Option α :=
  match o with
  | .next t => some (f t)
  | .fault _ => none
  | .refused _ => none

/-- The STATUS word of a state. -/
def status (s : State) : Word := statusWord s.err s.detail s.sess s.primed s.variant

/-- The results of a state. -/
def results (s : State) : Nat × Nat × Nat := (s.res0.toNat, s.res1.toNat, s.res2.toNat)

/-- The range and PENDING of a state. -/
def range (s : State) : Nat × Nat × Nat := (s.low.toNat, s.high.toNat, s.pending.toNat)

/-- A source with these bits and then Eof. -/
def bitsThenEof (bits : List Bool) : SourcePort := ⟨bits.map SourceItem.bit, some .eof⟩

/-- What of the invariants is left to evaluate at (1, 3, 5). -/
def invCheck (s : State) : Bool :=
  decide (s.par = par) && decide (s.err = s.detail.kind) && decide (s.sess ≠ .unconf)
    && (s.sess.hasModel || decide (s.store = .absent ∧ s.low = 0 ∧ s.high = 0 ∧ s.pending = 0 ∧ s.code = 0 ∧ s.tail = 0
      ∧ s.primed = false ∧ s.variant = .linear))
    && (!s.sess.hasModel || decide (s.store = Store.ofFreqs s.variant s.store.freqs
      ∧ s.store.freqs.length = s.par.symbolCount.toNat ∧ (∀ f ∈ s.store.freqs, 1 ≤ f)
      ∧ s.store.freqs.sum ≤ s.par.freqMax.toNat))
    && decide (s.sess = .enc ∨ s.sess = .dec ∨ s.sess = .done →
      s.low.toNat ≤ s.high.toNat ∧ s.high.toNat ≤ s.par.codeMax.toNat ∧ band s = .none)
    && decide (s.sess = .dec → s.pending = 0 ∧ s.tail.toNat ≤ tailBudget s.par.codeBits.toNat
      ∧ (s.primed = true → s.low.toNat ≤ s.code.toNat ∧ s.code.toNat ≤ s.high.toNat)
      ∧ (s.primed = false → s.code = 0 ∧ s.tail = 0 ∧ s.low = 0 ∧ s.high = s.par.codeMax))
    && decide (s.sess = .enc → s.code = 0 ∧ s.tail = 0 ∧ s.primed = false)

theorem valid135 : validWidths 1 3 5 = true := by
  simp [validWidths, Config.maxSymbolBits]

theorem configured_of_par {s : State} (h : s.par = par) : Configured s := by
  unfold Configured
  rw [h]
  exact ⟨valid135, rfl⟩

theorem inv_of_check {s : State} (h : invCheck s = true) : Inv s := by
  simp only [invCheck, Bool.and_eq_true, Bool.or_eq_true, Bool.not_eq_true', decide_eq_true_eq] at h
  obtain ⟨⟨⟨⟨⟨⟨⟨h1, h2⟩, h3⟩, h4⟩, h5⟩, h6⟩, h7⟩, h8⟩ := h
  refine ⟨h2, ⟨fun e => absurd e h3, fun _ => configured_of_par h1⟩, ?_, ?_, h6, h7, h8⟩
  · intro e
    rcases h4 with h4 | h4
    · rw [e] at h4
      cases h4
    · exact h4
  · intro e
    rcases h5 with h5 | h5
    · rw [e] at h5
      cases h5
    · exact h5

/-! Well-formedness. A command has no field, so no ill-formed `Instr` exists (30_encoding.md R81); what can be ill formed is a
host access, in three ways (20_memory.md R62), each refused. -/

theorem test_every_command_wellFormed (i : Instr) : i.wellFormed = true := by cases i <;> rfl

theorem test_access_narrow_refused : accessWellFormed 0x008 32 = false := by decide

theorem test_access_misaligned_refused : accessWellFormed 0x00C 64 = false := by decide

theorem test_access_outside_refused : accessWellFormed 0x100 64 = false := by decide

theorem test_access_last_offset : accessWellFormed 0x0F8 64 = true := by decide

/-! Decoding: RSV as 56 zeros, then OPC bit by bit from the opcode map (30_encoding.md R80, R84). -/

theorem test_decode_cfg : decode (0#56 ++ 0b00000001#8) = .ok .cfg := by rfl

theorem test_decode_initEnc : decode (0#56 ++ 0b00000010#8) = .ok .initEnc := by rfl

theorem test_decode_initDec : decode (0#56 ++ 0b00000011#8) = .ok .initDec := by rfl

theorem test_decode_encSym : decode (0#56 ++ 0b00010000#8) = .ok .encSym := by rfl

theorem test_decode_encFinish : decode (0#56 ++ 0b00010001#8) = .ok .encFinish := by rfl

theorem test_decode_decSym : decode (0#56 ++ 0b00100000#8) = .ok .decSym := by rfl

theorem test_decode_mParams : decode (0#56 ++ 0b00110000#8) = .ok .mParams := by rfl

theorem test_decode_mTotal : decode (0#56 ++ 0b00110001#8) = .ok .mTotal := by rfl

theorem test_decode_mFreq : decode (0#56 ++ 0b00110010#8) = .ok .mFreq := by rfl

theorem test_decode_mSym : decode (0#56 ++ 0b00110011#8) = .ok .mSym := by rfl

theorem test_decode_mTable : decode (0#56 ++ 0b00110100#8) = .ok .mTable := by rfl

/-- 95_test_vectors.md section 2.7: the gaps of the map. -/
theorem test_decode_gaps :
    decode 0x00#64 = .error .undefinedOpcode ∧ decode 0x04#64 = .error .undefinedOpcode
      ∧ decode 0x12#64 = .error .undefinedOpcode ∧ decode 0x21#64 = .error .undefinedOpcode
      ∧ decode 0x35#64 = .error .undefinedOpcode ∧ decode 0xFF#64 = .error .undefinedOpcode :=
  ⟨rfl, rfl, rfl, rfl, rfl, rfl⟩

/-- 95_test_vectors.md section 2.7: RSV not 0. -/
theorem test_decode_rsv : decode 0x110#64 = .error .reservedBits ∧ decode 0x8000000000000001#64 = .error .reservedBits :=
  ⟨rfl, rfl⟩

/-! One step per command, against 95_test_vectors.md. -/

/-- Reset with the operands of CFG 1, 3, 5 in place. -/
def cfgOperands (sb fb cb : Nat) : State := { State.reset with arg0 := word sb, arg1 := word fb, arg2 := word cb }

/-- A CFG 1, 3, 5 in any state. -/
theorem cfg135 {s : State} (h0 : s.arg0 = 1#64) (h1 : s.arg1 = 3#64) (h2 : s.arg2 = 5#64) :
    exec .cfg s = .next (endSession { s with par := par }).succeed := by
  rcases execCfg_cases s with ⟨-, h⟩ | ⟨h, -⟩
  · have hp : Params.derive s.arg0.toNat s.arg1.toNat s.arg2.toNat = par := by rw [h0, h1, h2]; rfl
    rw [hp] at h
    exact h
  · rw [h0, h1, h2] at h
    exact absurd (h.symm.trans valid135) (by decide)

/-- CF2: PARAM = 0x050301, EOF 2, n 3, FREQ_MAX 7, CODE_MAX 31, q 8, h 16, tq 24, STATUS 0x100. -/
theorem test_cfg_smallest :
    ∃ t, exec .cfg (cfgOperands 1 3 5) = .next t ∧ status t = 0x100#64 ∧ t.par.paramWord = 0x050301#64
      ∧ t.par.symbolEof = 2#64 ∧ t.par.symbolCount = 3#64 ∧ t.par.freqMax = 7#64 ∧ t.par.codeMax = 31#64
      ∧ t.par.codeOneFourth = 8#64 ∧ t.par.codeHalf = 16#64 ∧ t.par.codeThreeFourths = 24#64 :=
  ⟨_, cfg135 rfl rfl rfl, by decide⟩

/-- CF5: `fb + 2 <= cb` fails, STATUS 0x032. -/
theorem test_cfg_rejects :
    ∃ t, exec .cfg (cfgOperands 1 3 4) = .next t ∧ status t = 0x032#64 ∧ t.par = Params.zero := by
  rcases execCfg_cases (cfgOperands 1 3 4) with ⟨h, -⟩ | ⟨-, h⟩
  · simp [validWidths, cfgOperands] at h
  · exact ⟨_, h, by decide⟩

/-- IN2 at (1, 3, 5): STATUS 0x1200, the whole range, and the tree of R133. -/
theorem test_initEnc_tree :
    after (exec .initEnc (arg 1 ready)) (fun t => (status t, range t, t.store)) =
      some (0x1200#64, (0, 31, 0), .tree [1, 2, 1]) := by decide

/-- IN4: BAD_VARIANT, SESS stays READY. -/
theorem test_initEnc_badVariant : after (exec .initEnc (arg 2 ready)) status = some 0x142#64 := by decide

/-- IN5: INIT_DEC abandons an encode session with PENDING 2, with no port event. -/
theorem test_initDec_abandons :
    after (exec .initDec (arg 0 { session .enc .tree [3, 2, 1] 4 19 with pending := 2#64 }))
      (fun t => (status t, range t, t.sinkLog)) = some (0x300#64, (0, 31, 0), []) := by decide

/-- EV4, last symbol: E2 with 2 pending, then E1, E1: bits 100, 0, 0, the range [8, 31]. -/
theorem test_encSym_pending :
    after (exec .encSym (arg 2 { session .enc .linear [3, 2, 1] 4 19 with pending := 2#64 }))
      (fun t => (results t, range t, sinkBits t.sinkLog, t.store)) =
      some ((2, 5, 6), (8, 31, 0), [true, false, false, false, false], .linear [3, 2, 2]) := by decide

/-- EV4, fifth symbol: no bits, and the update halves first. -/
theorem test_encSym_halves :
    after (exec .encSym (arg 0 (session .enc .tree [5, 1, 1] 0 31)))
      (fun t => (results t, range t, t.sinkLog, t.store)) =
      some ((0, 0, 5), (0, 21, 0), [], .tree [3, 4, 1]) := by decide

/-- EV5: PENDING 2, LOW = 12 not below q: 1 then 000, then the flush. -/
theorem test_encFinish_high :
    after (exec .encFinish { session .enc .linear [2, 1, 2] 12 31 with pending := 2#64 })
      (fun t => (status t, range t, t.sinkLog)) =
      some (0x400#64, (12, 31, 0), [.bit true, .bit false, .bit false, .bit false, .flush]) := by decide

/-- EV6: PENDING 1, LOW = 0 below q: 0 then 11. -/
theorem test_encFinish_low :
    after (exec .encFinish { session .enc .linear [1, 2, 2] 0 23 with pending := 1#64 })
      (fun t => (status t, sinkBits t.sinkLog)) = some (0x400#64, [false, true, true]) := by decide

/-- The state before DV5's sixth decode: CODE 16 in [0, 21], F = [3, 1, 1]. -/
def decodeSixth : State :=
  { session .dec .linear [3, 1, 1] 0 21 with code := 16#64, primed := true, source := bitsThenEof [true, false] }

/-- DV5 row 6: symbol 1, range (3, 4), E3 reads 1, E3 reads 0, then [4, 19] with CODE 18. -/
theorem test_decSym_sixth :
    after (exec .decSym decodeSixth)
      (fun t => (status t, results t, t.low.toNat, t.high.toNat, t.code.toNat)) =
      some (0xB00#64, (1, 3, 4), 4, 19, 18) := by decide

/-- DV8 (stream C0, its first six bits): priming gives 24, symbol 2 is SYMBOL_EOF, CODE 16, DONE. -/
theorem test_decSym_eof :
    after (exec .decSym { session .dec .tree [1, 1, 1] 0 31 with
        source := bitsThenEof [true, true, false, false, false, false] })
      (fun t => (status t, results t, range t, t.code.toNat)) =
      some (0x1C00#64, (2, 2, 3), (10, 31, 0), 16) := by decide

/-- CF13 at (1, 3, 5). -/
theorem test_mParams : after (exec .mParams (session .enc .linear [1, 1, 1] 0 31)) results = some (1, 3, 5) := by decide

/-- CF12: BAD_STATE with no model. -/
theorem test_mParams_noModel : after (exec .mParams ready) status = some 0x122#64 := by decide

/-- M1 at (1, 3, 5), on the tree of vector M6 step 3. -/
theorem test_mTotal :
    after (exec .mTotal { session .enc .tree [4, 1, 1] 0 31 with store := .tree [4, 5, 1] }) results
      = some (6, 0, 0) := by decide

/-- M6 step 5: the range from before the rescale, then the tree [3, 4, 1]. -/
theorem test_mFreq_rescales :
    after (exec .mFreq (arg 0 { session .dec .tree [] 0 31 with store := .tree [5, 6, 1] }))
      (fun t => (results t, t.store)) = some ((0, 5, 0), .tree [3, 4, 1]) := by decide

/-- M10: halve, then increment. -/
theorem test_mFreq_halves_first :
    after (exec .mFreq (arg 0 (session .dec .linear [2, 2, 3] 0 31))) (fun t => (results t, t.store)) =
      some ((0, 2, 0), .linear [2, 1, 1]) := by decide

/-- 95_test_vectors.md section 2.2, the trace for v = 4 at (2, 4, 12): a value equal to cum(3) belongs to symbol 3. -/
theorem test_mSym_search :
    after (exec .mSym (arg 4 { ready with
        par := Params.derive 2 4 12, sess := .enc, variant := .tree, store := .tree [1, 3, 1, 7, 1] })) results
      = some (3, 4, 7) := by decide

/-- M4 at (1, 3, 5): BAD_VALUE at TOTAL, SESS unchanged. -/
theorem test_mSym_badValue :
    after (exec .mSym (arg 3 (session .enc .linear [1, 1, 1] 0 31))) status = some 0x262#64 := by decide

/-- M7: (1, 3) for symbol 1 of F = [1, 2, 1], and no update. -/
theorem test_mTable :
    after (exec .mTable (arg 1 (session .enc .linear [1, 2, 1] 4 25))) (fun t => (results t, t.store)) =
      some ((1, 3, 0), .linear [1, 2, 1]) := by decide

/-- M5 at (1, 3, 5): BAD_SYMBOL at SYMBOL_COUNT. -/
theorem test_mTable_badSymbol :
    after (exec .mTable (arg 3 (session .enc .linear [1, 1, 1] 0 31))) status = some 0x252#64 := by decide

/-! Witnesses: for each statement with hypotheses, a state and operands that meet them together. -/

/-- The encode session before EV5's second symbol, the symbol in ARG0. -/
def encodeSecond : State := arg 2 (session .enc .linear [2, 1, 1] 0 19)

/-- The encode session before EV4's last symbol, the symbol in ARG0. -/
def encodeLast : State := arg 2 { session .enc .linear [3, 2, 1] 4 19 with pending := 2#64 }

/-- A fresh decode session with these bits to come. -/
def decodeFirst (bits : List Bool) : State := { session .dec .linear [1, 1, 1] 0 31 with source := bitsThenEof bits }

/-- A failed session. -/
def failedState : State := { session .failed .linear [1, 1, 1] 0 31 with err := .ioError, detail := .sinkFailed }

theorem inv_encodeSecond : Inv encodeSecond := inv_of_check (by decide)

theorem inv_encodeLast : Inv encodeLast := inv_of_check (by decide)

theorem inv_decodeFirst (bits : List Bool) : Inv (decodeFirst bits) := inv_of_check rfl

theorem inv_decodeSixth : Inv decodeSixth := inv_of_check (by decide)

theorem inv_ready : Inv ready := inv_of_check (by decide)

theorem inv_failed : Inv failedState := inv_of_check (by decide)

theorem witness_DecodeEncodeRoundTrip : Instr.decSym.wellFormed = true := rfl

theorem witness_OnlyTheOpcodeMapDecodes : decode 0x34#64 = .ok .mTable ∧ 0x34#64 = encode .mTable := ⟨rfl, rfl⟩

theorem witness_StepRunsTheDecodedCommand :
    (given [wr 0x000 0x31#64] ready).inputs = .write 0x000 64 0x31#64 :: [] ∧ decode 0x31#64 = .ok .mTotal :=
  ⟨rfl, rfl⟩

theorem witness_IllegalWordOnlyReports :
    (given [wr 0x000 0x35#64] ready).inputs = .write 0x000 64 0x35#64 :: [] ∧ ∀ i : Instr, 0x35#64 ≠ encode i :=
  ⟨rfl, fun i => by cases i <;> decide⟩

theorem witness_OnlyWholeAlignedAccesses_refused :
    ¬(64 = 64 ∧ 0x100 % 8 = 0 ∧ 0x100 ≤ 0x0F8) ∧ (given [.read 0x100 64] ready).inputs = .read 0x100 64 :: [] := by
  decide

theorem witness_OnlyWholeAlignedAccesses_served :
    (64 = 64 ∧ 0x0F8 % 8 = 0 ∧ 0x0F8 ≤ 0x0F8) ∧ (given [.write 0x0F8 64 0] ready).inputs = .write 0x0F8 64 0 :: [] := by
  decide

theorem witness_HostWritesReachOnlyArgs :
    ∀ off ∈ [0x008, 0x010, 0x018, 0x020, 0x0F8],
      (given [wr off 7] ready).inputs = .write off 64 7 :: [] ∧ off % 8 = 0 ∧ off ≤ 0x0F8 ∧ off ≠ 0x000 := by decide

/-- A specified register in FAILED, at the first and the last offset that has one, and STATUS and TAIL outside FAILED. -/
theorem witness_HostReadsFollowTheMap :
    (∀ off ∈ [0x000, 0x0B0], (given [rd off] failedState).inputs = .read off 64 :: [] ∧ failedState.sess = .failed)
      ∧ ∀ off ∈ [0x038, 0x0A8], (given [rd off] ready).inputs = .read off 64 :: [] ∧ (given [rd off] ready).sess ≠ .failed := by
  decide

theorem witness_UnspecifiedReadsAreDraws :
    ∀ off ∈ [0x038, 0x088, 0x0A8, 0x0B8, 0x0F8],
      (given [rd off] failedState).inputs = .read off 64 :: [] ∧ off % 8 = 0 ∧ off ≤ 0x0F8
        ∧ (off = 0x038 ∨ 0x0B8 ≤ off ∨ (failedState.sess = .failed ∧ 0x088 ≤ off ∧ off ≤ 0x0A8)) := by decide

theorem witness_TotalReadsCumulativeSum :
    Inv (given [rd 0x0B0] decodeSixth) ∧ (given [rd 0x0B0] decodeSixth).sess.hasModel = true
      ∧ Inv (given [rd 0x0B0] ready) ∧ (given [rd 0x0B0] ready).sess.hasModel = false :=
  ⟨inv_of_check (by decide), rfl, inv_of_check (by decide), rfl⟩

theorem witness_HostReadFrame :
    (given [rd 0x038] ready).inputs = .read 0x038 64 :: []
      ∧ ∃ t, step (given [rd 0x038] ready) = .next t := ⟨rfl, _, rfl⟩

theorem witness_ResetEvent : (given [.reset] decodeSixth).inputs = .reset :: [] := rfl

theorem witness_IdleStateSteps : ready.inputs = [] := rfl

theorem witness_OnlyCfgSucceedsUnconfigured : State.reset.sess = .unconf ∧ Instr.mTotal ≠ .cfg := by decide

theorem witness_CfgConfiguresOrRejects_valid :
    1 ≤ 1 ∧ 1 ≤ 3 ∧ 1 ≤ 5 ∧ 3 + 2 ≤ 5 ∧ 5 + 3 ≤ 64 ∧ 1 + 2 ≤ 3 ∧ 1 ≤ Config.maxSymbolBits := by
  simp [Config.maxSymbolBits]

theorem witness_CfgConfiguresOrRejects_invalid :
    ∀ w ∈ [(0, 3, 5), (1, 2, 5), (1, 3, 4), (8, 31, 34), (30, 32, 32)],
      ¬(1 ≤ w.1 ∧ 1 ≤ w.2.1 ∧ 1 ≤ w.2.2 ∧ w.2.1 + 2 ≤ w.2.2 ∧ w.2.2 + w.2.1 ≤ 64 ∧ w.1 + 2 ≤ w.2.1
        ∧ w.1 ≤ Config.maxSymbolBits) := by
  simp

theorem witness_ConfiguredRegistersObeyLaws : Configured ready := configured_of_par rfl

theorem witness_InitStartsSession :
    ready.sess ≠ .unconf ∧ (arg 0 ready).arg0 = 0 ∧ (arg 1 ready).arg0 = 1 ∧ 1 < (arg 2 ready).arg0.toNat
      ∧ State.reset.sess = .unconf := by decide

theorem witness_MParamsReturnsWidths : decodeSixth.sess.hasModel = true ∧ ready.sess.hasModel = false := ⟨rfl, rfl⟩

theorem witness_MTotalReturnsTotal :
    (Inv failedState ∧ failedState.sess.hasModel = true) ∧ (Inv ready ∧ ready.sess.hasModel = false) :=
  ⟨⟨inv_failed, rfl⟩, inv_ready, rfl⟩

/-- A session with the operand at the last symbol, at SYMBOL_COUNT, and no session: MTableReturnsRange and
MFreqReturnsRangeAndCounts. -/
theorem witness_MTable_MFreq :
    (Inv (arg 2 encodeSecond) ∧ (arg 2 encodeSecond).sess.hasModel = true
      ∧ (arg 2 encodeSecond).arg0.toNat < (arg 2 encodeSecond).par.symbolCount.toNat)
    ∧ (Inv (arg 3 encodeSecond) ∧ (arg 3 encodeSecond).par.symbolCount.toNat ≤ (arg 3 encodeSecond).arg0.toNat)
    ∧ (Inv ready ∧ ready.sess.hasModel = false) :=
  ⟨⟨inv_encodeSecond, rfl, by decide⟩, ⟨inv_of_check (by decide), by decide⟩, inv_ready, rfl⟩

/-- The last value below TOTAL, TOTAL itself, and no session. -/
theorem witness_MSymReturnsOwnerAndCounts :
    (Inv (arg 3 encodeSecond) ∧ (arg 3 encodeSecond).sess.hasModel = true
      ∧ (arg 3 encodeSecond).arg0.toNat < (arg 3 encodeSecond).store.freqs.sum)
    ∧ (Inv (arg 4 encodeSecond) ∧ (arg 4 encodeSecond).store.freqs.sum ≤ (arg 4 encodeSecond).arg0.toNat)
    ∧ (Inv ready ∧ ready.sess.hasModel = false) :=
  ⟨⟨inv_of_check (by decide), rfl, by decide⟩, ⟨inv_of_check (by decide), by decide⟩, inv_ready, rfl⟩

/-- At FREQ_MAX, where the update halves, and with n + 2 = FREQ_MAX. -/
theorem witness_UpdateKeepsModelLaws :
    ((∀ f ∈ [5, 1, 1], 1 ≤ f) ∧ [5, 1, 1].sum ≤ 7 ∧ [5, 1, 1].length + 2 ≤ 7 ∧ 2 < [5, 1, 1].length)
      ∧ ((∀ f ∈ [2, 2, 1], 1 ≤ f) ∧ [2, 2, 1].sum ≤ 5 ∧ [2, 2, 1].length + 2 ≤ 5 ∧ 0 < [2, 2, 1].length) := by decide

/-- TreeQueriesMatchLinear and TreeUpdatesMatchLinear: M6's vector, the whole prefix and the last symbol. -/
theorem witness_TreeQueries_TreeUpdates :
    [3, 2, 2].length < 2 ^ 63 ∧ 3 ≤ [3, 2, 2].length ∧ 2 < [3, 2, 2].length := by decide

theorem witness_TreeSearchMatchesLinear :
    [3, 2, 2].length < 2 ^ 63 ∧ (∀ f ∈ [3, 2, 2], 1 ≤ f) ∧ 6 < [3, 2, 2].sum := by decide

theorem witness_VariantsAreEquivalent :
    Inv (session .enc .linear [3, 2, 2] 0 31) ∧ Inv (session .enc .tree [3, 2, 2] 0 31)
      ∧ SameButVariant (session .enc .linear [3, 2, 2] 0 31) (session .enc .tree [3, 2, 2] 0 31) :=
  ⟨inv_of_check (by decide), inv_of_check (by decide), rfl, by decide⟩

theorem witness_NarrowingNeverEmptiesTheRange :
    (Inv encodeSecond ∧ (encodeSecond.sess = .enc ∨ encodeSecond.sess = .dec) ∧ 2 < encodeSecond.par.symbolCount.toNat)
      ∧ Inv decodeSixth ∧ (decodeSixth.sess = .enc ∨ decodeSixth.sess = .dec) ∧ 0 < decodeSixth.par.symbolCount.toNat :=
  ⟨⟨inv_encodeSecond, by decide, by decide⟩, inv_decodeSixth, by decide, by decide⟩

/-- The smallest range at the top of the code range, and the whole of it. -/
theorem witness_ScalingEndsWithinCodeBits :
    Configured ready ∧ (31 ≤ 31 ∧ 31 ≤ ready.par.codeMax.toNat) ∧ 0 ≤ 31 :=
  ⟨configured_of_par rfl, by decide, by decide⟩

/-- EV5's second symbol: E3 and E3 from [15, 19] to [12, 31]. -/
theorem scales_encodeSecond : ScalesTo par 15 19 [.e3, .e3] 12 31 :=
  .step (by decide) (by decide) (.step (by decide) (by decide) (.stop (by decide)))

/-- EV4's last symbol: E2, E1 and E1 from [17, 19] to [8, 31]. -/
theorem scales_encodeLast : ScalesTo par 17 19 [.e2, .e1, .e1] 8 31 :=
  .step (by decide) (by decide) (.step (by decide) (by decide) (.step (by decide) (by decide) (.stop (by decide))))

theorem witness_OneBitPerScalingStep : ScalesTo par 17 19 [.e2, .e1, .e1] 8 31 := scales_encodeLast

theorem witness_EncSymResult :
    Inv encodeLast ∧ encodeLast.sess = .enc ∧ encodeLast.arg0.toNat < encodeLast.par.symbolCount.toNat
      ∧ ScalesTo encodeLast.par (narrowLow encodeLast (cum encodeLast.store.freqs 2) encodeLast.store.freqs.sum)
        (narrowHigh encodeLast (cum encodeLast.store.freqs 3) encodeLast.store.freqs.sum) [.e2, .e1, .e1] 8 31
      ∧ pendingFits encodeLast.pending.toNat [.e2, .e1, .e1] = true
      ∧ encodeLast.sink.acceptsNext (scaleBits encodeLast.pending.toNat [.e2, .e1, .e1]).1.length = true :=
  ⟨inv_encodeLast, rfl, by decide, scales_encodeLast, by decide, by decide⟩

theorem witness_EncSymCompletes :
    Inv encodeLast ∧ encodeLast.sess = .enc ∧ encodeLast.arg0.toNat < encodeLast.par.symbolCount.toNat
      ∧ encodeLast.pending.toNat + 64 < 2 ^ 64 ∧ (∀ a ∈ encodeLast.sink.queue, a = .ok)
      ∧ encodeLast.sink.after = some .ok :=
  ⟨inv_encodeLast, rfl, by decide, by decide, by decide, rfl⟩

/-- EV4's last symbol on a sink that takes four of the five bits and then answers as given. -/
def encodeCut (x : Option SinkAnswer) : State := { encodeLast with sink := ⟨[.ok, .ok, .ok, .ok], x⟩ }

theorem witness_EncSymStopsAtSink :
    ∀ x ∈ [some SinkAnswer.ioError, none],
      Inv (encodeCut x) ∧ (encodeCut x).sess = .enc
        ∧ (encodeCut x).arg0.toNat < (encodeCut x).par.symbolCount.toNat
        ∧ ScalesTo (encodeCut x).par
          (narrowLow (encodeCut x) (cum (encodeCut x).store.freqs 2) (encodeCut x).store.freqs.sum)
          (narrowHigh (encodeCut x) (cum (encodeCut x).store.freqs 3) (encodeCut x).store.freqs.sum)
          [.e2, .e1, .e1] 8 31
        ∧ pendingFits (encodeCut x).pending.toNat [.e2, .e1, .e1] = true
        ∧ 4 < (scaleBits (encodeCut x).pending.toNat [.e2, .e1, .e1]).1.length
        ∧ (encodeCut x).sink.acceptsNext 4 = true ∧ ((encodeCut x).sink.dropAnswers 4).answer.1 = x := by
  have hcut : ∀ x ∈ [some SinkAnswer.ioError, none],
      (encodeCut x).sink.acceptsNext 4 = true ∧ ((encodeCut x).sink.dropAnswers 4).answer.1 = x := by decide
  intro x hx
  exact ⟨inv_of_check rfl, rfl, witness_EncSymResult.2.2.1, witness_EncSymResult.2.2.2.1, witness_EncSymResult.2.2.2.2.1,
    show 4 < (scaleBits encodeLast.pending.toNat [.e2, .e1, .e1]).1.length by decide, hcut x hx⟩

/-- EV5's second symbol with PENDING at its limit: its first step is E3. -/
def encodeFull : State := { encodeSecond with pending := 0xFFFFFFFFFFFFFFFF#64 }

theorem witness_EncSymPendingOverflow :
    Inv encodeFull ∧ encodeFull.sess = .enc ∧ encodeFull.arg0.toNat < encodeFull.par.symbolCount.toNat
      ∧ ScalesTo encodeFull.par (narrowLow encodeFull (cum encodeFull.store.freqs 2) encodeFull.store.freqs.sum)
        (narrowHigh encodeFull (cum encodeFull.store.freqs 3) encodeFull.store.freqs.sum) ([] ++ .e3 :: [.e3]) 12 31
      ∧ pendingFits encodeFull.pending.toNat [] = true
      ∧ (scaleBits encodeFull.pending.toNat []).2 = pendingMax
      ∧ encodeFull.sink.acceptsNext (scaleBits encodeFull.pending.toNat []).1.length = true :=
  ⟨inv_of_check (by decide), rfl, by decide, scales_encodeSecond, rfl, by decide, rfl⟩

theorem witness_EncSymStaticErrors :
    decodeSixth.sess ≠ .enc ∧ (arg 3 encodeSecond).sess = .enc
      ∧ (arg 3 encodeSecond).par.symbolCount.toNat ≤ (arg 3 encodeSecond).arg0.toNat := by decide

/-- Outside ENC; PENDING at its limit; every event accepted; all but the flush accepted, and then each other answer. -/
theorem witness_EncFinishFlushes :
    decodeSixth.sess ≠ .enc ∧ (encodeFull.sess = .enc ∧ encodeFull.pending.toNat = 2 ^ 64 - 1)
      ∧ (encodeLast.sess = .enc ∧ encodeLast.pending.toNat < 2 ^ 64 - 1 ∧ encodeLast.sink.acceptsNext 5 = true)
      ∧ ∀ x ∈ [some SinkAnswer.ioError, none],
        (encodeCut x).sess = .enc ∧ (encodeCut x).pending.toNat < 2 ^ 64 - 1 ∧ (encodeCut x).sink.acceptsNext 4 = true
          ∧ ((encodeCut x).sink.dropAnswers 4).answer.1 = x := by decide

/-- Each answer, and TAIL one below and at its budget of 3. -/
theorem witness_ReadCodeBitRules :
    decodeSixth.source.answer = (some (.bit true), bitsThenEof [false])
      ∧ SourcePort.answer ⟨[.ioError], none⟩ = (some .ioError, ⟨[], none⟩)
      ∧ ((decodeFirst []).source.answer = (some .eof, ⟨[], some .eof⟩))
      ∧ (2#64).toNat < (decodeFirst []).par.codeBits.toNat - 2
      ∧ (decodeFirst []).par.codeBits.toNat - 2 ≤ (3#64).toNat := by decide

/-- DV5's sixth decode: v = 3, symbol 1, E3 and E3 from [13, 16] to [4, 19]. -/
theorem witness_DecSymResult_primed :
    Inv decodeSixth ∧ decodeSixth.sess = .dec ∧ 1 < decodeSixth.par.symbolCount.toNat
      ∧ (cum decodeSixth.store.freqs 1
          ≤ ((primedCode decodeSixth - decodeSixth.low.toNat + 1) * decodeSixth.store.freqs.sum - 1)
            / (decodeSixth.high.toNat - decodeSixth.low.toNat + 1)
        ∧ ((primedCode decodeSixth - decodeSixth.low.toNat + 1) * decodeSixth.store.freqs.sum - 1)
            / (decodeSixth.high.toNat - decodeSixth.low.toNat + 1) < cum decodeSixth.store.freqs 2)
      ∧ ScalesTo decodeSixth.par
        (narrowLow decodeSixth (cum decodeSixth.store.freqs 1) decodeSixth.store.freqs.sum)
        (narrowHigh decodeSixth (cum decodeSixth.store.freqs 2) decodeSixth.store.freqs.sum) [.e3, .e3] 4 19
      ∧ primeBits decodeSixth + 2 ≤ (codeBits decodeSixth).length :=
  ⟨inv_decodeSixth, rfl, by decide, by decide,
    .step (by decide) (by decide) (.step (by decide) (by decide) (.stop (by decide))), by decide⟩

/-- A first decode on the bits of DV8 (stream C0): priming takes five bits, E2 the sixth. -/
theorem witness_DecSymResult_priming :
    let s := decodeFirst [true, true, false, false, false, false]
    Inv s ∧ s.sess = .dec ∧ 2 < s.par.symbolCount.toNat
      ∧ (cum s.store.freqs 2
          ≤ ((primedCode s - s.low.toNat + 1) * s.store.freqs.sum - 1) / (s.high.toNat - s.low.toNat + 1)
        ∧ ((primedCode s - s.low.toNat + 1) * s.store.freqs.sum - 1) / (s.high.toNat - s.low.toNat + 1)
          < cum s.store.freqs 3)
      ∧ ScalesTo s.par (narrowLow s (cum s.store.freqs 2) s.store.freqs.sum)
        (narrowHigh s (cum s.store.freqs 3) s.store.freqs.sum) [.e2] 10 31
      ∧ primeBits s + 1 ≤ (codeBits s).length :=
  ⟨inv_decodeFirst _, rfl, by decide, by decide, .step (by decide) (by decide) (.stop (by decide)), by decide⟩

theorem witness_DecSymCompletes :
    Inv (decodeFirst (List.replicate 7 true)) ∧ (decodeFirst (List.replicate 7 true)).sess = .dec
      ∧ 2 * (decodeFirst (List.replicate 7 true)).par.codeBits.toNat
        ≤ (codeBits (decodeFirst (List.replicate 7 true))).length :=
  ⟨inv_decodeFirst _, rfl, by decide⟩

/-- A first decode whose source ends, fails or hangs after one bit: priming's five bits are not at hand. -/
def decodeShort (x : Option SourceEnd) : State := { decodeFirst [] with source := ⟨[.bit true], x⟩ }

theorem witness_DecSymStopsAtSource_priming :
    ∀ x ∈ [some SourceEnd.eof, some SourceEnd.ioError, none],
      invCheck (decodeShort x) = true ∧ (decodeShort x).sess = .dec
        ∧ (codeBits (decodeShort x)).length < primeBits (decodeShort x)
        ∧ SourcePort.answer ⟨(decodeShort x).source.queue.drop 1, (decodeShort x).source.after⟩
          = (match x with
            | some .eof => some .eof
            | some .ioError => some .ioError
            | none => none, ⟨[], x⟩) := by decide

/-- DV5's sixth decode with one bit of the two it takes, and then an end. -/
def decodeCut (x : Option SourceEnd) : State := { decodeSixth with source := ⟨[.bit true], x⟩ }

theorem witness_DecSymStopsAtSource_scaling :
    ∀ x ∈ [some SourceEnd.ioError, none],
      Inv (decodeCut x) ∧ (decodeCut x).sess = .dec ∧ primeBits (decodeCut x) ≤ (codeBits (decodeCut x)).length
        ∧ 1 < (decodeCut x).par.symbolCount.toNat
        ∧ (cum (decodeCut x).store.freqs 1
            ≤ ((primedCode (decodeCut x) - (decodeCut x).low.toNat + 1) * (decodeCut x).store.freqs.sum - 1)
              / ((decodeCut x).high.toNat - (decodeCut x).low.toNat + 1)
          ∧ ((primedCode (decodeCut x) - (decodeCut x).low.toNat + 1) * (decodeCut x).store.freqs.sum - 1)
              / ((decodeCut x).high.toNat - (decodeCut x).low.toNat + 1) < cum (decodeCut x).store.freqs 2)
        ∧ ScalesTo (decodeCut x).par
          (narrowLow (decodeCut x) (cum (decodeCut x).store.freqs 1) (decodeCut x).store.freqs.sum)
          (narrowHigh (decodeCut x) (cum (decodeCut x).store.freqs 2) (decodeCut x).store.freqs.sum) [.e3, .e3] 4 19
        ∧ (codeBits (decodeCut x)).length < primeBits (decodeCut x) + [Band.e3, Band.e3].length := by
  have hcut : ∀ x ∈ [some SourceEnd.ioError, none], primeBits (decodeCut x) ≤ (codeBits (decodeCut x)).length
      ∧ (codeBits (decodeCut x)).length < primeBits (decodeCut x) + [Band.e3, Band.e3].length := by decide
  intro x hx
  exact ⟨inv_of_check rfl, rfl, (hcut x hx).1, witness_DecSymResult_primed.2.2.1, witness_DecSymResult_primed.2.2.2.1,
    witness_DecSymResult_primed.2.2.2.2.1, (hcut x hx).2⟩

theorem witness_DecSymNeedsDecodeSession : encodeLast.sess ≠ .dec := by decide

theorem witness_DecSymNeverBadValue :
    Inv decodeSixth ∧ decodeSixth.sess = .dec ∧ ∃ t, exec .decSym decodeSixth = .next t :=
  ⟨inv_decodeSixth, rfl, _, rfl⟩

/-- StepKeepsConfiguration and StepKeepsInvariants: a step that runs a command. -/
theorem witness_StepKeepsInvariants :
    Inv (given [wr 0x000 (encode .encSym)] encodeLast) ∧ ∃ t, step (given [wr 0x000 (encode .encSym)] encodeLast) = .next t :=
  ⟨inv_of_check (by decide), _, rfl⟩

theorem witness_StepKeepsConfiguration :
    StatusInv (given [wr 0x000 (encode .mTotal)] ready) ∧ ParamInv (given [wr 0x000 (encode .mTotal)] ready)
      ∧ IdleInv (given [wr 0x000 (encode .mTotal)] ready)
      ∧ ∃ t, step (given [wr 0x000 (encode .mTotal)] ready) = .next t :=
  have h : Inv (given [wr 0x000 (encode .mTotal)] ready) := inv_of_check (by decide)
  ⟨h.1, h.2.1, h.2.2.1, _, rfl⟩

/-- Both faults of CommandsEndUnlessPortsHang happen. -/
theorem witness_CommandsEndUnlessPortsHang :
    Inv (encodeCut none) ∧ exec .encSym (encodeCut none) = .fault .sinkNeverAnswers
      ∧ Inv (decodeShort none) ∧ exec .decSym (decodeShort none) = .fault .sourceNeverAnswers :=
  ⟨inv_of_check rfl, rfl, inv_of_check rfl, rfl⟩

theorem witness_QueryCommandsFrame :
    (∃ t, exec .mParams encodeLast = .next t) ∧ (∃ t, exec .mTotal encodeLast = .next t)
      ∧ ∃ t, exec .mTable encodeLast = .next t := ⟨⟨_, rfl⟩, ⟨_, rfl⟩, _, rfl⟩

theorem witness_CountingCommandsFrame :
    (∃ t, exec .mFreq encodeLast = .next t) ∧ ∃ t, exec .mSym encodeLast = .next t := ⟨⟨_, rfl⟩, _, rfl⟩

theorem witness_ConfigurationCommandsFrame :
    (∃ t, exec .cfg (cfgOperands 1 3 5) = .next t) ∧ (∃ t, exec .initEnc (arg 1 ready) = .next t)
      ∧ ∃ t, exec .initDec (arg 1 ready) = .next t := ⟨⟨_, cfg135 rfl rfl rfl⟩, ⟨_, rfl⟩, _, rfl⟩

theorem witness_SymbolCommandsFrame :
    (∃ t, t.err = .ok ∧ exec .encSym encodeLast = .next t) ∧ (∃ t, t.err = .ok ∧ exec .encFinish encodeLast = .next t)
      ∧ ∃ t, t.err = .ok ∧ exec .decSym decodeSixth = .next t :=
  ⟨⟨_, by rfl, rfl⟩, ⟨_, by rfl, rfl⟩, _, by rfl, rfl⟩

theorem witness_FatalErrorsKeepTheRest :
    (∃ t, exec .encSym (encodeCut (some .ioError)) = .next t ∧ t.err ≠ .ok)
      ∧ (∃ t, exec .encFinish (encodeCut (some .ioError)) = .next t ∧ t.err ≠ .ok)
      ∧ ∃ t, exec .decSym (decodeShort (some .eof)) = .next t ∧ t.err ≠ .ok :=
  ⟨⟨_, rfl, by decide⟩, ⟨_, rfl, by decide⟩, _, rfl, by decide⟩

theorem witness_OtherErrorsChangeOnlyStatus :
    ∃ t, exec .mSym (arg 6 encodeLast) = .next t ∧ t.err ≠ .ok := ⟨_, rfl, by decide⟩

/-- EveryCommandFrame: a command that ends with OK and one that ends with an error. -/
theorem witness_EveryCommandFrame :
    (∃ t, exec .mTotal encodeLast = .next t ∧ t.err = .ok) ∧ ∃ t, exec .mTotal ready = .next t ∧ t.err ≠ .ok :=
  ⟨⟨_, rfl, rfl⟩, _, rfl, by decide⟩

/-- A step that issues CFG 1, 3, 5 from reset. -/
theorem step_cfg135 :
    step (given [wr 0x000 (encode .cfg)] (cfgOperands 1 3 5)) = .next (endSession { cfgOperands 1 3 5 with par := par }).succeed := by
  rw [step_serve (e := wr 0x000 (encode .cfg)) (rest := []) rfl]
  exact cfg135 (s := cfgOperands 1 3 5) rfl rfl rfl

/-- OnlyCfgOrResetWritesParameters: a CFG from reset and a reset after it both change PARAM. -/
theorem witness_OnlyCfgOrResetWritesParameters :
    (∃ t, step (given [wr 0x000 (encode .cfg)] (cfgOperands 1 3 5)) = .next t ∧ t.par ≠ Params.zero)
      ∧ ∃ t, step (given [.reset] ready) = .next t ∧ t.par ≠ ready.par :=
  ⟨⟨_, step_cfg135, by decide⟩, _, rfl, by decide⟩

/-- SessionChangesFollowTheTable, one change to each value of SESS; both ways to DONE and to FAILED. -/
theorem witness_SessionChangesFollowTheTable :
    (∃ t, step (given [wr 0x000 (encode .cfg)] (cfgOperands 1 3 5)) = .next t ∧ t.sess = .ready)
      ∧ after (step (given [.reset] ready)) State.sess = some .unconf
      ∧ after (step (given [wr 0x000 (encode .initEnc)] ready)) State.sess = some .enc
      ∧ after (step (given [wr 0x000 (encode .initDec)] ready)) State.sess = some .dec
      ∧ after (step (given [wr 0x000 (encode .encFinish)] encodeLast)) State.sess = some .done
      ∧ after (step (given [wr 0x000 (encode .decSym)] (decodeFirst [true, true, false, false, false, false]))) State.sess
        = some .done
      ∧ after (step (given [wr 0x000 (encode .encSym)] (arg 3 encodeLast))) State.sess = some .failed
      ∧ after (step (given [wr 0x000 (encode .decSym)] (decodeShort (some .eof)))) State.sess = some .failed :=
  ⟨⟨_, step_cfg135, rfl⟩, by decide, by decide, by decide, by decide, by decide, by decide, by decide⟩

/-- PortTrafficFollowsTheSession: an encoder that emits, a decoder that takes bits, and a source put in place. -/
theorem witness_PortTrafficFollowsTheSession :
    after (step (given [wr 0x000 (encode .encSym)] encodeLast)) (fun t => t.sinkLog.length) = some 5
      ∧ after (step (given [wr 0x000 (encode .decSym)] decodeSixth)) (fun t => t.source.queue.length) = some 0
      ∧ after (step (given [.setSource (bitsThenEof [true])] ready)) (fun t => t.source.queue.length) = some 1 := by
  decide

/-- SetSourceEvent: outside DEC, in DEC with TAIL 0 and in DEC with TAIL 1. -/
theorem witness_SetSourceEvent :
    (given [.setSource (bitsThenEof [true])] ready).inputs = .setSource (bitsThenEof [true]) :: [] ∧ ready.sess ≠ .dec
      ∧ (given [.setSource (bitsThenEof [true])] decodeSixth).inputs = .setSource (bitsThenEof [true]) :: []
      ∧ decodeSixth.sess = .dec ∧ decodeSixth.tail = 0 ∧ { decodeSixth with tail := 1#64 }.tail ≠ 0 := by decide

/-- 10_state.md R29, R37 and 60_exceptions.md R201 by hand: SINK_FAILED in FAILED is 3 + 16 * 9 + 256 * 5. -/
theorem test_status_failed : status failedState = 0x593#64 := by decide

/-! The round trip on stream S7 (95_test_vectors.md section 3): symbols [0, 2] give 01000. -/

/-- The end of the encode session, with the results of its commands. -/
def encoded : Option (List (Word × Word × Word) × State) := traceCommands (encodeSession 0 ready.par.symbolEof [0]) ready

/-- The decode side: the same parameters, the emitted bits and then Eof. -/
def decodeSide (e : State) : State := { ready with source := bitsThenEof (sinkBits e.sinkLog) }

theorem witness_RoundTrip_stream :
    encoded.map (fun p => (p.1.map (fun r => r.1.toNat), sinkBits p.2.sinkLog)) =
      some ([0, 0, 2, 2], [false, true, false, false, false]) := by decide

theorem witness_RoundTrip :
    ∃ results e, Inv ready ∧ ready.sess ≠ .unconf ∧ (1#64).toNat ≤ 1
      ∧ (∀ x ∈ [0#64], x.toNat < ready.par.symbolEof.toNat)
      ∧ traceCommands (encodeSession 0 ready.par.symbolEof [0]) ready = some (results, e)
      ∧ Inv (decodeSide e) ∧ (decodeSide e).sess ≠ .unconf ∧ (decodeSide e).par = ready.par
      ∧ (decodeSide e).source =
        { queue := (sinkBits (e.sinkLog.drop ready.sinkLog.length) ++ []).map SourceItem.bit, after := some .eof } := by
  obtain ⟨⟨rs, e⟩, he, -⟩ := Option.map_eq_some_iff.1 witness_RoundTrip_stream
  refine ⟨rs, e, inv_ready, by decide, by decide, ?_, he, inv_of_check rfl, fun h => ?_, rfl, ?_⟩
  · intro x hx
    rw [List.mem_singleton.1 hx]
    decide
  · cases h
  · rw [List.append_nil]
    rfl

end Sys2Proof.Tests
end

/-! The Fenwick tree of a frequency vector answers prefix queries by cumulative frequencies (10_state.md R32,
41_model.md R129). -/

namespace Sys2Proof.Machine

/-- A node covers the symbols from `k - lowbit k` up to `k` (10_state.md R32). -/
theorem cum_sub_lowbit_add_nodeSum (F : List Nat) {k : Nat} (h0 : 0 < k) (h : k < 2 ^ 64) :
    cum F (k - lowbit k) + nodeSum F k = cum F k := by
  have hsplit : k - lowbit k + lowbit k = k := Nat.sub_add_cancel (lowbit_le h0 h)
  calc cum F (k - lowbit k) + nodeSum F k
      = cum F (k - lowbit k + lowbit k) := by simp only [cum, nodeSum, List.take_add, List.sum_append]
    _ = cum F k := by rw [hsplit]

theorem treeNode_treeOf (F : List Nat) {k : Nat} (h0 : 0 < k) (hk : k ≤ F.length) :
    treeNode (treeOf F) k = nodeSum F k := by
  have hlt : k - 1 < (treeOf F).length := by rw [length_treeOf]; omega
  rw [treeNode, List.getD_eq_getElem _ _ hlt]
  simp [treeOf, Nat.sub_add_cancel h0]

/-- Each round of Prefix adds one node and moves to the symbols before it, so enough rounds add up to `cum F k`. -/
theorem treePrefixLoop_treeOf {F : List Nat} (hF : F.length < 2 ^ 64) (r : Nat) :
    ∀ k acc : Nat, k ≤ r → k ≤ F.length → treePrefixLoop (treeOf F) r k acc = acc + cum F k := by
  induction r with
  | zero =>
    intro k acc hr _
    simp [treePrefixLoop, Nat.le_zero.1 hr]
  | succ r ih =>
    intro k acc hr hk
    rw [treePrefixLoop]
    split
    next hzero => simp [hzero]
    next hne =>
      have h0 : 0 < k := Nat.pos_of_ne_zero hne
      have h64 : k < 2 ^ 64 := Nat.lt_of_le_of_lt hk hF
      have hlow : 0 < lowbit k := lowbit_pos h0 h64
      have hnode := cum_sub_lowbit_add_nodeSum F h0 h64
      rw [ih _ _ (by omega) (by omega), treeNode_treeOf F h0 hk]
      omega

/-- `Prefix(k)` on the tree of F is `cum(k)` (41_model.md R129). -/
theorem treePrefix_treeOf {F : List Nat} (hF : F.length < 2 ^ 64) {k : Nat} (hk : k ≤ F.length) :
    treePrefix (treeOf F) k = cum F k := by
  rw [treePrefix, treePrefixLoop_treeOf hF k k 0 (Nat.le_refl k) hk, Nat.zero_add]

/-- TOTAL of either variant's store is the sum of the frequencies it represents (10_state.md R33). -/
theorem Store.total_ofFreqs (v : Variant) {F : List Nat} (hF : F.length < 2 ^ 64) :
    (Store.ofFreqs v F).total = F.sum := by
  cases v with
  | linear => rfl
  | tree =>
    change treePrefix (treeOf F) (treeOf F).length = F.sum
    rw [length_treeOf, treePrefix_treeOf hF (Nat.le_refl _), cum_length]

/-! TOTAL of a machine state. -/

/-- A model has fewer than 2^64 symbols, since SYMBOL_COUNT is a register (10_state.md R21). -/
theorem ModelOk.length_lt {s : State} (h : ModelOk s) : s.store.freqs.length < 2 ^ 64 := by
  obtain ⟨-, hlen, -, -⟩ := h
  rw [hlen]
  exact s.par.symbolCount.isLt

theorem ModelOk.cum_symbolCount {s : State} (h : ModelOk s) :
    cum s.store.freqs s.par.symbolCount.toNat = s.store.freqs.sum := by
  obtain ⟨-, hlen, -, -⟩ := h
  rw [← hlen, cum_length]

theorem ModelOk.total_eq_sum {s : State} (h : ModelOk s) : s.store.total = s.store.freqs.sum := by
  have hstore : s.store = Store.ofFreqs s.variant s.store.freqs := h.1
  calc s.store.total = (Store.ofFreqs s.variant s.store.freqs).total := congrArg Store.total hstore
    _ = s.store.freqs.sum := Store.total_ofFreqs s.variant h.length_lt

/-- TOTAL lies between SYMBOL_COUNT and FREQ_MAX (10_state.md R33). -/
theorem ModelOk.sum_bounds {s : State} (h : ModelOk s) :
    s.par.symbolCount.toNat ≤ s.store.freqs.sum ∧ s.store.freqs.sum ≤ s.par.freqMax.toNat := by
  obtain ⟨-, hlen, hpos, hmax⟩ := h
  exact ⟨hlen ▸ length_le_sum hpos, hmax⟩

/-! Host reads. -/

/-- A well-formed read as the next outside event reads the register at its offset (20_memory.md R61, R62). -/
theorem step_read {s : State} {rest : List HostEvent} {off w : Nat} (h : s.inputs = .read off w :: rest)
    (hacc : accessWellFormed off w = true) :
    step s = .next (hostRead (regAt off) { s with inputs := rest }) := by
  rw [step_serve h, serve, if_pos hacc]

/-- A read of TOTAL returns the store's total in every session state (10_state.md R33, R42). -/
theorem step_read_total {s : State} {rest : List HostEvent} (h : s.inputs = .read 0x0B0 64 :: rest) :
    step s = .next { s with inputs := rest, reads := s.reads ++ [word s.store.total] } :=
  step_read h rfl

/-- Settles O11: the model invariant gives the store's total as cum(n) with its bounds, and with no model the store is
absent. -/
theorem totalReadsCumulativeSum : Obligations.TotalReadsCumulativeSum := by
  unfold Obligations.TotalReadsCumulativeSum
  intro s rest hinv hread
  obtain ⟨-, -, hidle, hmodel, -, -⟩ := hinv
  rw [step_read_total hread]
  constructor
  · intro hsess
    have hok : ModelOk s := hmodel hsess
    rw [hok.cum_symbolCount, hok.total_eq_sum]
    exact ⟨rfl, hok.sum_bounds⟩
  · intro hsess
    obtain ⟨hstore, -⟩ := hidle hsess
    rw [hstore]
    rfl

end Sys2Proof.Machine

/-! The host port by the form of the access (20_memory.md R62) and by the register written (R63, R64). -/

namespace Sys2Proof.Machine

/-! No command is refused (30_encoding.md R84): each ends in a next state, or in a fault of its port. -/

theorem Run.settle_ne_refused (run : Run Unit) (r : Refusal) : run.settle ≠ .refused r := by
  cases run <;> simp [Run.settle]

theorem modelCommand_ne_refused (body : State → Except Detail State) (s : State) (r : Refusal) :
    modelCommand body s ≠ .refused r := by
  obtain ⟨t, ht⟩ := modelCommand_isNext body s
  simp [ht]

theorem execCfg_ne_refused (s : State) (r : Refusal) : execCfg s ≠ .refused r := by
  obtain ⟨-, h⟩ | ⟨-, h⟩ := execCfg_cases s <;> simp [h]

theorem initSession_ne_refused (kind : Sess) (s : State) (r : Refusal) : initSession kind s ≠ .refused r := by
  obtain ⟨-, h⟩ | ⟨-, v, -, h⟩ | ⟨-, -, h⟩ := initSession_cases kind s <;> simp [h]

/-- A symbol command settles its run in its session `kind`, and reports BAD_STATE in any other
(42_codec.md R170, R171, R176). -/
theorem settle_or_badState_ne_refused (run : Run Unit) (kind : Sess) (s : State) (r : Refusal) :
    (if s.sess = kind then run.settle else .next (s.raise .badState)) ≠ .refused r := by
  split
  · exact run.settle_ne_refused r
  · simp

theorem exec_ne_refused (i : Instr) (s : State) (r : Refusal) : exec i s ≠ .refused r := by
  cases i <;> rw [exec]
  case cfg => exact execCfg_ne_refused s r
  case initEnc | initDec => exact initSession_ne_refused _ s r
  case encSym | encFinish | decSym => exact settle_or_badState_ne_refused _ _ s r
  case mParams | mTotal | mFreq | mSym | mTable => exact modelCommand_ne_refused _ s r

theorem issue_ne_refused (v : Word) (s : State) (r : Refusal) : issue v s ≠ .refused r := by
  obtain ⟨i, -, h⟩ | ⟨-, h⟩ := issue_cases v s
  · rw [h]
    exact exec_ne_refused i s r
  · simp [h]

theorem hostWrite_ne_refused (reg : HostReg) (v : Word) (s : State) (r : Refusal) :
    hostWrite reg v s ≠ .refused r := by
  obtain ⟨-, h⟩ | ⟨-, h⟩ | ⟨-, h⟩ | ⟨-, h⟩ | h := hostWrite_cases reg v s
  · rw [h]
    exact issue_ne_refused v s r
  all_goals simp [h]

/-! The next outside event as a host access (20_memory.md R62); `step_read` is the well-formed read. -/

/-- A well-formed write as the next outside event writes the register at its offset (20_memory.md R61, R62). -/
theorem step_write {s : State} {rest : List HostEvent} {off w : Nat} {v : Word}
    (h : s.inputs = .write off w v :: rest) (hacc : accessWellFormed off w = true) :
    step s = hostWrite (regAt off) v { s with inputs := rest } := by
  rw [step_serve h, serve, if_pos hacc]

theorem step_read_malformed {s : State} {rest : List HostEvent} {off w : Nat} (h : s.inputs = .read off w :: rest)
    (hacc : ¬accessWellFormed off w = true) : step s = .refused .badAccess := by
  rw [step_serve h, serve, if_neg hacc]

theorem step_write_malformed {s : State} {rest : List HostEvent} {off w : Nat} {v : Word}
    (h : s.inputs = .write off w v :: rest) (hacc : ¬accessWellFormed off w = true) :
    step s = .refused .badAccess := by
  rw [step_serve h, serve, if_neg hacc]

/-- Settles O6: the port's own check decides the form of the access, and what a served access does (a read, a register
write or a command) is never refused. -/
theorem onlyWholeAlignedAccesses : Obligations.OnlyWholeAlignedAccesses := by
  unfold Obligations.OnlyWholeAlignedAccesses
  intro s rest off width v
  rw [← accessWellFormed_iff]
  constructor
  · intro hacc
    exact ⟨fun hread => step_read_malformed hread hacc, fun hwrite => step_write_malformed hwrite hacc⟩
  · rintro hacc (hread | hwrite)
    · simp [step_read hread hacc]
    · rw [step_write hwrite hacc]
      exact hostWrite_ne_refused _ _ _ _

/-! The offsets of the registers a host write sets (20_memory.md R61); `regAt_eq_cmd` is that of CMD. -/

theorem regAt_eq_arg0 {off : Nat} : regAt off = .arg0 ↔ off = 0x008 := by
  unfold regAt
  split <;> simp_all

theorem regAt_eq_arg1 {off : Nat} : regAt off = .arg1 ↔ off = 0x010 := by
  unfold regAt
  split <;> simp_all

theorem regAt_eq_arg2 {off : Nat} : regAt off = .arg2 ↔ off = 0x018 := by
  unfold regAt
  split <;> simp_all

/-- A write to a read-only register or a reserved offset has no effect (20_memory.md R63, R64). -/
theorem hostWrite_regAt_of_not_writable {off : Nat} (hcmd : off ≠ 0x000) (h0 : off ≠ 0x008) (h1 : off ≠ 0x010)
    (h2 : off ≠ 0x018) (v : Word) (s : State) : hostWrite (regAt off) v s = .next s := by
  obtain ⟨hr, -⟩ | ⟨hr, -⟩ | ⟨hr, -⟩ | ⟨hr, -⟩ | h := hostWrite_cases (regAt off) v s
  · exact absurd (regAt_eq_cmd.1 hr) hcmd
  · exact absurd (regAt_eq_arg0.1 hr) h0
  · exact absurd (regAt_eq_arg1.1 hr) h1
  · exact absurd (regAt_eq_arg2.1 hr) h2
  · exact h

/-- Settles O7: the write is well formed, so it sets the register at its offset; by that offset it is ARG0, ARG1, ARG2 or
a register no write reaches. -/
theorem hostWritesReachOnlyArgs : Obligations.HostWritesReachOnlyArgs := by
  unfold Obligations.HostWritesReachOnlyArgs
  intro s rest off v hwrite halign hwindow hcmd
  rw [step_write hwrite (accessWellFormed_iff.2 ⟨rfl, halign, hwindow⟩)]
  split_ifs with h0 h1 h2
  · rw [regAt_eq_arg0.2 h0, hostWrite]
  · rw [regAt_eq_arg1.2 h1, hostWrite]
  · rw [regAt_eq_arg2.2 h2, hostWrite]
  · exact hostWrite_regAt_of_not_writable hcmd h0 h1 h2 v _

end Sys2Proof.Machine

/-! What the decoder accepts (30_encoding.md R84, R85, R87), and a word of no command written to CMD. -/

namespace Sys2Proof

/-- A word whose RSV field is 0 is its OPC field, zero-extended (30_encoding.md R80). -/
theorem eq_setWidth_opcField {v : Word} (h : rsvField v = 0#56) : v = (opcField v).setWidth 64 := by
  calc v = v.extractLsb' 0 64 := BitVec.extractLsb'_eq_self.symm
    _ = rsvField v ++ opcField v :=
      (BitVec.extractLsb'_append_extractLsb'_eq_extractLsb' (show 8 = 0 + 8 from rfl)).symm
    _ = 0#56 ++ opcField v := by rw [h]
    _ = (opcField v).setWidth 64 := (BitVec.setWidth_eq_append (by decide)).symm

theorem toNat_opcOf_of_commandOfOpc {n : Nat} {i : Instr} (h : commandOfOpc n = some i) : (opcOf i).toNat = n := by
  unfold commandOfOpc at h
  split at h <;> cases h <;> rfl

/-- Only a command's own word decodes to it (30_encoding.md R85, R87). -/
theorem eq_encode_of_decode {v : Word} {i : Instr} (h : decode v = .ok i) : v = encode i := by
  unfold decode at h
  split at h
  case isTrue hrsv =>
    split at h
    case h_1 j hj =>
      cases h
      rw [encode, BitVec.eq_of_toNat_eq (toNat_opcOf_of_commandOfOpc hj)]
      exact eq_setWidth_opcField hrsv
    case h_2 => cases h
  case isFalse => cases h

end Sys2Proof

namespace Sys2Proof.Machine

/-- A write of a word that is no command's reports ILLEGAL_COMMAND, on any state (30_encoding.md R85). -/
theorem issue_of_ne_encode {v : Word} (h : ∀ i, v ≠ encode i) (s : State) :
    issue v s = .next (s.raise .illegalCommand) := by
  obtain ⟨i, hi, -⟩ | ⟨-, hraise⟩ := issue_cases v s
  · exact absurd (eq_encode_of_decode hi) (h i)
  · exact hraise

/-- Settles O5: the write is well formed and reaches CMD, where a word that is no command's only raises
ILLEGAL_COMMAND. -/
theorem illegalWordOnlyReports : Obligations.IllegalWordOnlyReports := by
  unfold Obligations.IllegalWordOnlyReports
  intro s v rest hwrite hv
  rw [step_write hwrite rfl, regAt_eq_cmd.2 rfl, hostWrite, issue_of_ne_encode hv, State.raise, Detail.kind]

end Sys2Proof.Machine

/-! The configuration commands CFG and M_PARAMS (40_configuration.md R100, R104). -/

namespace Sys2Proof.Machine

/-- The validity check is the conditions of 40_configuration.md R102. -/
theorem validWidths_iff {sb fb cb : Nat} :
    validWidths sb fb cb = true ↔
      1 ≤ sb ∧ 1 ≤ fb ∧ 1 ≤ cb ∧ fb + 2 ≤ cb ∧ cb + fb ≤ 64 ∧ sb + 2 ≤ fb ∧ sb ≤ Config.maxSymbolBits := by
  simp [validWidths, and_assoc]

/-- Settles O17: CFG's two outcomes are told apart by the validity check, which is R102's conditions on the operands; the
fields of each outcome are those of `Params.derive`, `endSession`, `State.succeed` and `State.raise`. -/
theorem cfgConfiguresOrRejects : Obligations.CfgConfiguresOrRejects := by
  unfold Obligations.CfgConfiguresOrRejects
  intro s
  dsimp only
  rw [← validWidths_iff, exec]
  obtain ⟨hvalid, hcfg⟩ | ⟨hinvalid, hcfg⟩ := execCfg_cases s
  · exact ⟨fun _ => hcfg, fun hnot => absurd hvalid hnot⟩
  · exact ⟨fun hvalid => absurd hvalid (by simp [hinvalid]), fun _ => hcfg⟩

/-- Settles O20: M_PARAMS is a model command whose body never fails, so it ends with its three results where a model
exists, and with BAD_STATE where none does. -/
theorem mParamsReturnsWidths : Obligations.MParamsReturnsWidths := by
  unfold Obligations.MParamsReturnsWidths
  intro s
  rw [exec, execMParams]
  constructor
  · intro hmodel
    exact modelCommand_eq_next.2 (.inl ⟨hmodel, .inl ⟨_, rfl, rfl⟩⟩)
  · intro hnone
    exact modelCommand_eq_next.2 (.inr ⟨hnone, rfl⟩)

end Sys2Proof.Machine

/-! The Fenwick tree of a frequency vector under the block's own operations: the point queries, the point update, the
rescale and the descending search (41_model.md R129 to R132). The loops compute over the naturals, so fewer than 2^64
nodes are enough. -/

namespace Sys2Proof.Machine

/-! Point queries, 41_model.md R129. -/

theorem treeF_treeOf {F : List Nat} (hF : F.length < 2 ^ 64) {s : Nat} (hs : s < F.length) :
    treeF (treeOf F) s = F.getD s 0 := by
  rw [treeF, treePrefix_treeOf hF hs, treePrefix_treeOf hF (Nat.le_of_lt hs), cum_succ, Nat.add_sub_cancel_left]

/-- Every frequency is recovered from the tree (41_model.md R129). -/
theorem treeFreqs_treeOf {F : List Nat} (hF : F.length < 2 ^ 64) : treeFreqs (treeOf F) = F := by
  apply List.ext_getElem (by simp)
  intro s _ hs
  simp [treeFreqs, treeF_treeOf hF hs, hs]

/-- `TreeFreqOf(s)` is the pair of cumulative frequencies (41_model.md R129). -/
theorem treeFreqOf_treeOf {F : List Nat} (hF : F.length < 2 ^ 64) {s : Nat} (hs : s < F.length) :
    treeFreqOf (treeOf F) s = (cum F s, cum F (s + 1)) := by
  rw [treeFreqOf, treeF_treeOf hF hs, treePrefix_treeOf hF (Nat.le_of_lt hs), cum_succ]

/-! `lowbit` and divisibility. -/

/-- `lowbit` divides its number, and the numbers one `lowbit` to either side are multiples of twice as much. -/
theorem lowbit_dvd {k : Nat} (h0 : 0 < k) (h : k < 2 ^ 64) :
    lowbit k ∣ k ∧ 2 * lowbit k ∣ k - lowbit k ∧ 2 * lowbit k ∣ k + lowbit k := by
  obtain ⟨a, b, hk, hl⟩ := lowbit_spec h0 h
  rw [hl, hk]
  refine ⟨⟨2 * b + 1, rfl⟩, ⟨b, ?_⟩, ⟨b + 1, ?_⟩⟩
  · rw [Nat.mul_add, Nat.mul_one, Nat.add_sub_cancel]
    ring
  · ring

/-- Of two values of `lowbit`, the one not above the other divides it, being a power of two. -/
theorem lowbit_dvd_lowbit_or {j k : Nat} (hj0 : 0 < j) (hj : j < 2 ^ 64) (hk0 : 0 < k) (hk : k < 2 ^ 64) :
    lowbit j ∣ lowbit k ∨ 2 * lowbit k ∣ lowbit j := by
  obtain ⟨a, -, -, ha⟩ := lowbit_spec hj0 hj
  obtain ⟨c, -, -, hc⟩ := lowbit_spec hk0 hk
  rw [ha, hc, ← pow_succ']
  exact (Nat.lt_or_ge c a).symm.imp (pow_dvd_pow 2) (pow_dvd_pow 2)

/-- Multiples of a number lie at least that number apart. -/
theorem add_le_of_dvd_of_lt {a x y : Nat} (hx : a ∣ x) (hy : a ∣ y) (h : x < y) : x + a ≤ y :=
  (hx.modEq_zero_nat.trans hy.modEq_zero_nat.symm).add_le_of_lt h

/-! The point update, 41_model.md R130. -/

/-- Node k counts the j-th symbol, the first being 1: j is in the node equation's range `(k - lowbit(k) + 1) .. k`
(10_state.md R32). -/
abbrev NodeCovers (k j : Nat) : Prop := k - lowbit k < j ∧ j ≤ k

/-- A node after j that counts symbol j counts symbol `j + lowbit j`: its range begins before j, so its `lowbit` is a
multiple of twice that of j. -/
theorem NodeCovers.add_lowbit {k j : Nat} (hk0 : 0 < k) (hk : k < 2 ^ 64) (hj0 : 0 < j) (hj : j < 2 ^ 64)
    (hcov : NodeCovers k j) (hlt : j < k) : NodeCovers k (j + lowbit j) := by
  obtain ⟨hlo, -⟩ := hcov
  have hle : lowbit k ≤ k := lowbit_le hk0 hk
  obtain ⟨hdk, hdksub, -⟩ := lowbit_dvd hk0 hk
  obtain ⟨hdj, -, -⟩ := lowbit_dvd hj0 hj
  rcases lowbit_dvd_lowbit_or hk0 hk hj0 hj with hd | hd
  · have := add_le_of_dvd_of_lt (dvd_of_mul_left_dvd hdksub) (hd.trans hdj) hlo
    omega
  · have hstep := add_le_of_dvd_of_lt hdj (dvd_of_mul_left_dvd (hd.trans hdk)) hlt
    exact ⟨by omega, hstep⟩

/-- A node that counts symbol `j + lowbit j` counts symbol j: its range does not begin between the two. -/
theorem NodeCovers.of_add_lowbit {k j : Nat} (hk0 : 0 < k) (hk : k < 2 ^ 64) (hj0 : 0 < j) (hj : j < 2 ^ 64)
    (hcov : NodeCovers k (j + lowbit j)) : NodeCovers k j := by
  obtain ⟨hlo, hhi⟩ := hcov
  refine ⟨?_, by omega⟩
  by_contra hbegin
  have hposk : 0 < lowbit k := lowbit_pos hk0 hk
  have hposj : 0 < lowbit j := lowbit_pos hj0 hj
  have hle : lowbit k ≤ k := lowbit_le hk0 hk
  obtain ⟨-, hdksub, -⟩ := lowbit_dvd hk0 hk
  obtain ⟨hdj, -, hdjadd⟩ := lowbit_dvd hj0 hj
  rcases lowbit_dvd_lowbit_or hj0 hj hk0 hk with hd | hd
  · have heq : k - lowbit k = j := by
      by_contra hne
      have := add_le_of_dvd_of_lt hdj (hd.trans (dvd_of_mul_left_dvd hdksub)) (by omega)
      omega
    have hdouble : 2 * lowbit j ∣ j := heq ▸ (Nat.mul_dvd_mul_left 2 hd).trans hdksub
    have := Nat.le_of_dvd hposj ((Nat.dvd_add_right hdouble).1 hdjadd)
    omega
  · have := add_le_of_dvd_of_lt hdksub (hd.trans (dvd_of_mul_left_dvd hdjadd)) hlo
    omega

/-- Of the nodes that count symbol j, node j is the first, and the others are those that count symbol `j + lowbit j`:
TreeInc's step reaches every node it must and no other (41_model.md R130). -/
theorem nodeCovers_iff {k j : Nat} (hk0 : 0 < k) (hk : k < 2 ^ 64) (hj0 : 0 < j) (hj : j < 2 ^ 64) :
    NodeCovers k j ↔ k = j ∨ NodeCovers k (j + lowbit j) := by
  constructor
  · intro hcov
    rcases Nat.eq_or_lt_of_le hcov.2 with heq | hlt
    · exact .inl heq.symm
    · exact .inr (hcov.add_lowbit hk0 hk hj0 hj hlt)
  · rintro (rfl | hcov)
    · exact ⟨Nat.sub_lt hk0 (lowbit_pos hk0 hk), Nat.le_refl k⟩
    · exact hcov.of_add_lowbit hk0 hk hj0 hj

theorem getD_modify_succ (l : List Nat) {i : Nat} (hi : i < l.length) (j : Nat) :
    (l.modify i (· + 1)).getD j 0 = l.getD j 0 + if i = j then 1 else 0 := by
  rw [List.getD_eq_getElem?_getD, List.getD_eq_getElem?_getD, List.getElem?_modify]
  split
  next h => subst h; simp [hi]
  next => simp

theorem cum_linInc {F : List Nat} {s : Nat} (hs : s < F.length) (k : Nat) :
    cum (linInc F s) k = cum F k + if s < k then 1 else 0 := by
  induction k with
  | zero => simp
  | succ k ih =>
    rw [cum_succ, cum_succ, ih, linInc, getD_modify_succ F hs]
    split_ifs <;> omega

/-- Counting a symbol adds one to the nodes that count it, and to no other (10_state.md R32). -/
theorem nodeSum_linInc {F : List Nat} {s : Nat} (hs : s < F.length) {k : Nat} (h0 : 0 < k) (h : k < 2 ^ 64) :
    nodeSum (linInc F s) k = nodeSum F k + if NodeCovers k (s + 1) then 1 else 0 := by
  have hbefore := cum_sub_lowbit_add_nodeSum F h0 h
  have hafter := cum_sub_lowbit_add_nodeSum (linInc F s) h0 h
  have hpos := lowbit_pos h0 h
  rw [cum_linInc hs, cum_linInc hs] at hafter
  split_ifs at hafter ⊢ <;> omega

/-- TreeInc's loop from symbol j, with rounds enough to pass the last node, adds one to the nodes that count j and to no
other (41_model.md R130). -/
theorem treeNode_treeIncLoop {T : List Nat} (hT : T.length < 2 ^ 64) (r : Nat) :
    ∀ j : Nat, 0 < j → T.length < j + r → ∀ k : Nat, 0 < k → k ≤ T.length →
      treeNode (treeIncLoop r j T) k = treeNode T k + if NodeCovers k j then 1 else 0 := by
  induction r generalizing T with
  | zero =>
    intro j _ hr k _ hk
    rw [treeIncLoop, if_neg (by omega), Nat.add_zero]
  | succ r ih =>
    intro j hj0 hr k hk0 hk
    rw [treeIncLoop]
    split
    next hj =>
      have hposj : 0 < lowbit j := lowbit_pos hj0 (by omega)
      have hnode : treeNode (T.modify (j - 1) (· + 1)) k = treeNode T k + if k = j then 1 else 0 := by
        rw [treeNode, getD_modify_succ T (by omega), treeNode]
        split_ifs <;> omega
      have hcov := nodeCovers_iff hk0 (Nat.lt_of_le_of_lt hk hT) hj0 (Nat.lt_of_le_of_lt hj hT)
      have hround : (T.modify (j - 1) (· + 1)).length < j + lowbit j + r := by rw [List.length_modify]; omega
      rw [ih (by simpa using hT) (j + lowbit j) (by omega) hround k hk0 (by simpa using hk), hnode]
      split_ifs <;> omega
    next hj => rw [if_neg (by omega), Nat.add_zero]

/-- Trees of one length are equal when all their nodes are. -/
theorem eq_of_treeNode {T U : List Nat} (hlen : T.length = U.length)
    (h : ∀ k, 0 < k → k ≤ T.length → treeNode T k = treeNode U k) : T = U := by
  apply List.ext_getElem hlen
  intro i hT hU
  simpa [treeNode, hT, hU] using h (i + 1) (by omega) hT

/-- `TreeInc(s)` on the tree of F gives the tree of F with s counted (41_model.md R130). -/
theorem treeInc_treeOf {F : List Nat} (hF : F.length < 2 ^ 64) {s : Nat} (hs : s < F.length) :
    treeInc (treeOf F) s = treeOf (linInc F s) := by
  apply eq_of_treeNode (by simp)
  intro k hk0 hk
  have hkF : k ≤ F.length := by simpa using hk
  rw [treeInc, treeNode_treeIncLoop (by simpa using hF) _ _ (by omega) (by omega) k hk0 (by simpa using hkF),
    treeNode_treeOf F hk0 hkF, treeNode_treeOf _ hk0 (by simpa using hkF), nodeSum_linInc hs hk0 (by omega)]

/-- `TreeRescale()` on the tree of F gives the tree of the halved F (41_model.md R132). -/
theorem treeRescale_treeOf {F : List Nat} (hF : F.length < 2 ^ 64) : treeRescale (treeOf F) = treeOf (linHalve F) := by
  rw [treeRescale, treeFreqs_treeOf hF, linHalve]

/-! The descending search, 41_model.md R131. -/

/-- Where `pos` is a multiple of 2^(b+1), the node the search looks at counts the 2^b symbols from `pos` on. -/
theorem cum_add_treeNode_treeOf {F : List Nat} (hF : F.length < 2 ^ 64) {b pos : Nat} (hd : 2 ^ (b + 1) ∣ pos)
    (hle : pos + 2 ^ b ≤ F.length) :
    cum F pos + treeNode (treeOf F) (pos + 2 ^ b) = cum F (pos + 2 ^ b) := by
  have h0 : 0 < pos + 2 ^ b := Nat.add_pos_right _ (Nat.two_pow_pos b)
  have h64 : pos + 2 ^ b < 2 ^ 64 := Nat.lt_of_le_of_lt hle hF
  have hlow : lowbit (pos + 2 ^ b) = 2 ^ b := by
    obtain ⟨q, rfl⟩ := hd
    have hodd : 2 ^ (b + 1) * q + 2 ^ b = 2 ^ b * (2 * q + 1) := by ring
    rw [hodd] at h64 ⊢
    exact lowbit_eq h64
  have hnode := cum_sub_lowbit_add_nodeSum F h0 h64
  rwa [hlow, Nat.add_sub_cancel, ← treeNode_treeOf F h0 hle] at hnode

/-- The search keeps `v` at `rem` past the symbols before `pos`, and its owner among the 2^b symbols from `pos` on. -/
theorem treeSearch_treeOf {F : List Nat} (hF : F.length < 2 ^ 64) (v : Nat) (b : Nat) :
    ∀ pos rem : Nat, 2 ^ b ∣ pos → cum F pos + rem = v → v < cum F (pos + 2 ^ b) →
      ∃ s r, treeSearch (treeOf F) b pos rem = (s, r) ∧ cum F s + r = v ∧ v < cum F (s + 1) := by
  induction b with
  | zero =>
    intro pos rem _ hrem hlt
    exact ⟨pos, rem, rfl, hrem, hlt⟩
  | succ b ih =>
    intro pos rem hd hrem hlt
    have hdb : 2 ^ b ∣ pos := (pow_dvd_pow 2 (Nat.le_succ b)).trans hd
    rw [treeSearch, length_treeOf]
    split
    next h =>
      have hnode := cum_add_treeNode_treeOf hF hd h.1
      refine ih _ _ (Nat.dvd_add hdb (Nat.dvd_refl _)) (by omega) ?_
      rwa [Nat.add_assoc, ← Nat.two_mul, ← pow_succ']
    next h =>
      refine ih pos rem hdb hrem ?_
      by_cases hle : pos + 2 ^ b ≤ F.length
      · have hnode := cum_add_treeNode_treeOf hF hd hle
        have : ¬treeNode (treeOf F) (pos + 2 ^ b) ≤ rem := fun hn => h ⟨hle, hn⟩
        omega
      · rw [cum_of_length_le (by omega)]
        exact Nat.lt_of_lt_of_le hlt (cum_le_sum F _)

/-- An owner is a symbol of the model: from the last symbol on there is no range. -/
theorem lt_length_of_owner {F : List Nat} {v s : Nat} (hlo : cum F s ≤ v) (hhi : v < cum F (s + 1)) : s < F.length := by
  by_contra hge
  rw [cum_of_length_le (by omega)] at hlo hhi
  omega

/-- `TreeSymOf(v)` on the tree of F finds the owner of v, with its range (41_model.md R123, R131). -/
theorem treeSymOf_owner {F : List Nat} (hF : F.length < 2 ^ 64) {v : Nat} (hv : v < F.sum) :
    ∃ s, s < F.length ∧ treeSymOf (treeOf F) v = (s, cum F s, cum F (s + 1)) ∧ cum F s ≤ v ∧ v < cum F (s + 1) := by
  have hwide : v < cum F (0 + 2 ^ (F.length.log2 + 1)) := by
    rwa [Nat.zero_add, cum_of_length_le (Nat.le_of_lt Nat.lt_log2_self)]
  obtain ⟨s, r, hsearch, hrem, hhi⟩ := treeSearch_treeOf hF v _ 0 v (Nat.dvd_zero _) (by simp) hwide
  have hlo : cum F s ≤ v := by omega
  have hs : s < F.length := lt_length_of_owner hlo hhi
  refine ⟨s, hs, ?_, hlo, hhi⟩
  rw [treeSymOf, length_treeOf, hsearch]
  simp only [treeF_treeOf hF hs, cum_succ]
  rw [show v - r = cum F s by omega]

end Sys2Proof.Machine

/-! The store of either variant as the frequency vector it holds (41_model.md R122 to R125, R134). -/

namespace Sys2Proof.Machine

/-- `FreqOf(s)` of either variant is the pair of cumulative frequencies (41_model.md R122). -/
theorem Store.freqOf_ofFreqs (v : Variant) {F : List Nat} (hF : F.length < 2 ^ 64) {s : Nat} (hs : s < F.length) :
    (Store.ofFreqs v F).freqOf s = (cum F s, cum F (s + 1)) := by
  cases v with
  | linear => simpa [Store.ofFreqs, Store.freqOf] using linFreqOf_eq_cum F s 0 hs
  | tree => exact treeFreqOf_treeOf hF hs

/-- `SymOf(x)` of either variant finds the owner of x, with its range (41_model.md R123). -/
theorem Store.symOf_ofFreqs (v : Variant) {F : List Nat} (hF : F.length < 2 ^ 64) {x : Nat} (hx : x < F.sum) :
    ∃ s, s < F.length ∧ (Store.ofFreqs v F).symOf x = (s, cum F s, cum F (s + 1))
      ∧ cum F s ≤ x ∧ x < cum F (s + 1) := by
  cases v with
  | linear => simpa [Store.ofFreqs, Store.symOf] using linSymOf_owner F x 0 0 (Nat.zero_le x) (by simpa using hx)
  | tree => exact treeSymOf_owner hF hx

theorem Store.halve_ofFreqs (v : Variant) {F : List Nat} (hF : F.length < 2 ^ 64) :
    (Store.ofFreqs v F).halve = Store.ofFreqs v (linHalve F) := by
  cases v with
  | linear => rfl
  | tree => exact congrArg Store.tree (treeRescale_treeOf hF)

theorem Store.inc_ofFreqs (v : Variant) {F : List Nat} (hF : F.length < 2 ^ 64) {s : Nat} (hs : s < F.length) :
    (Store.ofFreqs v F).inc s = Store.ofFreqs v (linInc F s) := by
  cases v with
  | linear => rfl
  | tree => exact congrArg Store.tree (treeInc_treeOf hF hs)

/-- `Update(s)` of either variant is Update of its frequency vector (41_model.md R124). -/
theorem Store.update_ofFreqs (v : Variant) {F : List Nat} (hF : F.length < 2 ^ 64) {s : Nat} (hs : s < F.length)
    (m : Nat) : (Store.ofFreqs v F).update m s = Store.ofFreqs v (updateFreqs m s F) := by
  rw [Store.update, updateFreqs, Store.total_ofFreqs v hF]
  split
  · rw [Store.halve_ofFreqs v hF, Store.inc_ofFreqs v (by simpa using hF) (by simpa using hs)]
  · exact Store.inc_ofFreqs v hF hs

/-! The same of a machine state whose model meets its invariant; `ModelOk.total_eq_sum` is TOTAL. -/

theorem ModelOk.freqOf_eq {s : State} (h : ModelOk s) {sym : Nat} (hsym : sym < s.par.symbolCount.toNat) :
    s.store.freqOf sym = (cum s.store.freqs sym, cum s.store.freqs (sym + 1)) := by
  have h64 := h.length_lt
  obtain ⟨hstore, hlen, -, -⟩ := h
  exact (congrArg (Store.freqOf · sym) hstore).trans (Store.freqOf_ofFreqs s.variant h64 (hlen ▸ hsym))

theorem ModelOk.symOf_owner {s : State} (h : ModelOk s) {x : Nat} (hx : x < s.store.freqs.sum) :
    ∃ sym, sym < s.par.symbolCount.toNat
      ∧ s.store.symOf x = (sym, cum s.store.freqs sym, cum s.store.freqs (sym + 1))
      ∧ cum s.store.freqs sym ≤ x ∧ x < cum s.store.freqs (sym + 1) := by
  obtain ⟨sym, hsym, hfind, hlo, hhi⟩ := Store.symOf_ofFreqs s.variant h.length_lt hx
  obtain ⟨hstore, hlen, -, -⟩ := h
  exact ⟨sym, hlen ▸ hsym, (congrArg (Store.symOf · x) hstore).trans hfind, hlo, hhi⟩

theorem ModelOk.update_eq {s : State} (h : ModelOk s) {sym : Nat} (hsym : sym < s.par.symbolCount.toNat) (m : Nat) :
    s.store.update m sym = Store.ofFreqs s.variant (updateFreqs m sym s.store.freqs) := by
  have h64 := h.length_lt
  obtain ⟨hstore, hlen, -, -⟩ := h
  exact (congrArg (Store.update · m sym) hstore).trans (Store.update_ofFreqs s.variant h64 (hlen ▸ hsym) m)

end Sys2Proof.Machine

/-! The model commands M_TOTAL, M_FREQ, M_SYM and M_TABLE (41_model.md R135 to R139). -/

namespace Sys2Proof.Machine

/-! A model command by its outcome (41_model.md R139, 60_exceptions.md R204, R209). -/

theorem modelCommand_of_ok {body : State → Except Detail State} {s t : State} (hm : s.sess.hasModel = true)
    (h : body s = .ok t) : modelCommand body s = .next t.succeed :=
  modelCommand_eq_next.2 (.inl ⟨hm, .inl ⟨t, h, rfl⟩⟩)

theorem modelCommand_of_error {body : State → Except Detail State} {s : State} {d : Detail}
    (hm : s.sess.hasModel = true) (h : body s = .error d) : modelCommand body s = .next (s.raise d) :=
  modelCommand_eq_next.2 (.inl ⟨hm, .inr ⟨d, h, rfl⟩⟩)

theorem modelCommand_of_no_model (body : State → Except Detail State) {s : State} (hm : s.sess.hasModel = false) :
    modelCommand body s = .next (s.raise .badState) :=
  modelCommand_eq_next.2 (.inr ⟨hm, rfl⟩)

theorem Inv.modelOk {s : State} (h : Inv s) (hm : s.sess.hasModel = true) : ModelOk s := by
  obtain ⟨-, -, -, hmodel, -, -⟩ := h
  exact hmodel hm

/-- Settles O21: TOTAL of the store is the sum of F, which is cum(n) and keeps the model's bounds. -/
theorem mTotalReturnsTotal : Obligations.MTotalReturnsTotal := by
  unfold Obligations.MTotalReturnsTotal
  intro s hinv
  rw [exec, execMTotal]
  constructor
  · intro hm
    have hok : ModelOk s := hinv.modelOk hm
    rw [hok.cum_symbolCount, ← hok.total_eq_sum]
    exact ⟨modelCommand_of_ok hm (t := s.setRes1 s.store.total) rfl, hok.total_eq_sum ▸ hok.sum_bounds⟩
  · exact modelCommand_of_no_model _

/-- Settles O22: FreqOf of the store gives the cumulative frequencies of F, and nothing is written but the results. -/
theorem mTableReturnsRange : Obligations.MTableReturnsRange := by
  unfold Obligations.MTableReturnsRange
  intro s hinv
  rw [exec, execMTable]
  refine ⟨fun hm hlt => ?_, fun hm hge => ?_, modelCommand_of_no_model _⟩
  · have hok : ModelOk s := hinv.modelOk hm
    refine modelCommand_of_ok hm (t := s.setRes2 _ _) ?_
    rw [operand0, if_neg (Nat.not_le.2 hlt), hok.freqOf_eq hlt]
  · exact modelCommand_of_error hm (d := .badSymbol) (if_pos hge)

/-- Settles O23: the results are the cumulative frequencies of F before the update, and Update of the store is Update of
F, in either variant's form. -/
theorem mFreqReturnsRangeAndCounts : Obligations.MFreqReturnsRangeAndCounts := by
  unfold Obligations.MFreqReturnsRangeAndCounts
  intro s hinv
  rw [exec, execMFreq]
  refine ⟨fun hm hlt => ?_, fun hm hge => ?_, modelCommand_of_no_model _⟩
  · have hok : ModelOk s := hinv.modelOk hm
    rw [← hok.update_eq hlt]
    refine modelCommand_of_ok hm (t := (updateModel s.arg0.toNat s).setRes2 _ _) ?_
    rw [operand0, if_neg (Nat.not_le.2 hlt), hok.freqOf_eq hlt]
  · exact modelCommand_of_error hm (d := .badSymbol) (if_pos hge)

/-- Settles O24: SymOf of the store finds the owner in F, by the scan or by the tree's search, and Update counts it as
M_FREQ's does. -/
theorem mSymReturnsOwnerAndCounts : Obligations.MSymReturnsOwnerAndCounts := by
  unfold Obligations.MSymReturnsOwnerAndCounts
  intro s hinv
  rw [exec, execMSym]
  refine ⟨fun hm hlt => ?_, fun hm hge => ?_, modelCommand_of_no_model _⟩
  · have hok : ModelOk s := hinv.modelOk hm
    obtain ⟨sym, hsym, hfind, hlo, hhi⟩ := hok.symOf_owner hlt
    refine ⟨sym, hsym, hlo, hhi, ?_⟩
    rw [← hok.update_eq hsym]
    rw [← hok.total_eq_sum] at hlt
    refine modelCommand_of_ok hm (t := (updateModel sym s).setRes3 _ _ _) ?_
    rw [operand0, if_neg (Nat.not_le.2 hlt), hfind]
  · rw [← (hinv.modelOk hm).total_eq_sum] at hge
    exact modelCommand_of_error hm (d := .badValue) (if_pos hge)

end Sys2Proof.Machine

/-! The session commands INIT_ENC and INIT_DEC (42_codec.md R160, R161), and the model they start with. -/

namespace Sys2Proof.Machine

/-- In a model of all ones a node's sum is the number of symbols the node covers (10_state.md R32). -/
theorem nodeSum_replicate_one {n k : Nat} (h0 : 0 < k) (hk : k ≤ n) (hn : n < 2 ^ 64) :
    nodeSum (List.replicate n 1) k = lowbit k := by
  have hlow : lowbit k ≤ k := lowbit_le h0 (Nat.lt_of_le_of_lt hk hn)
  rw [nodeSum, List.drop_replicate, List.take_replicate, List.sum_replicate, smul_eq_mul, Nat.mul_one]
  omega

/-- The initial tree is the tree of the all-ones frequency vector (41_model.md R133). -/
theorem treeInit_eq_treeOf {n : Nat} (hn : n < 2 ^ 64) : treeInit n = treeOf (List.replicate n 1) := by
  rw [treeInit, treeOf, List.length_replicate]
  refine List.map_congr_left fun j hj => ?_
  exact (nodeSum_replicate_one (Nat.succ_pos j) (List.mem_range.1 hj) hn).symm

/-- `ModelInit(variant)` gives every symbol the frequency 1, in either variant's form (41_model.md R121). -/
theorem Store.init_eq_ofFreqs (v : Variant) {n : Nat} (hn : n < 2 ^ 64) :
    Store.init v n = Store.ofFreqs v (List.replicate n 1) := by
  cases v with
  | linear => rfl
  | tree => exact congrArg Store.tree (treeInit_eq_treeOf hn)

/-! The body of both commands by its outcome (42_codec.md R160). -/

theorem initSession_of_unconf (kind : Sess) {s : State} (hs : s.sess = .unconf) :
    initSession kind s = .next (s.raise .badState) := by
  rw [initSession, if_pos hs]

theorem initSession_of_some (kind : Sess) {s : State} {v : Variant} (hs : s.sess ≠ .unconf)
    (hv : variantOfOperand s.arg0.toNat = some v) :
    initSession kind s = .next (startSession kind v s).succeed := by
  rw [initSession, if_neg hs, operand0, hv]

theorem initSession_of_one_lt (kind : Sess) {s : State} (hs : s.sess ≠ .unconf) (harg : 1 < s.arg0.toNat) :
    initSession kind s = .next (s.raise .badVariant) := by
  rw [initSession, if_neg hs, operand0, variantOfOperand_eq_none.2 harg]

/-- Settles O19: both commands are `initSession` with their own session state; the operand names the variant, and the
variant's initial store is the all-ones model because SYMBOL_COUNT, a register, is below 2^64. -/
theorem initStartsSession : Obligations.InitStartsSession := by
  unfold Obligations.InitStartsSession
  intro s v
  constructor
  · intro hs harg
    have hv : variantOfOperand s.arg0.toNat = some v := by
      rw [harg]
      cases v <;> rfl
    rw [← Store.init_eq_ofFreqs v s.par.symbolCount.isLt]
    exact ⟨initSession_of_some .enc hs hv, initSession_of_some .dec hs hv⟩
  · intro i hi
    have hbody : ∃ kind, exec i s = initSession kind s := by
      obtain rfl | rfl : i = .initEnc ∨ i = .initDec := by simpa using hi
      · exact ⟨.enc, rfl⟩
      · exact ⟨.dec, rfl⟩
    obtain ⟨kind, hkind⟩ := hbody
    rw [hkind]
    exact ⟨initSession_of_unconf kind, initSession_of_one_lt kind⟩

end Sys2Proof.Machine

/-! ReadCodeBit by the source's answer (42_codec.md R172). -/

namespace Sys2Proof.Machine

theorem sourceBit_of_answer {s : State} {a : SourceAnswer} {p : SourcePort} (h : s.source.answer = (some a, p)) :
    sourceBit s = .done a { s with source := p } := by
  rw [sourceBit, h]

theorem readCodeBit_of_bit {s : State} {b : Bool} {p : SourcePort} (h : s.source.answer = (some (.bit b), p)) :
    readCodeBit s = .done b { s with source := p } := by
  rw [readCodeBit, sourceBit_of_answer h, Run.bind_done]

theorem readCodeBit_of_ioError {s : State} {p : SourcePort} (h : s.source.answer = (some .ioError, p)) :
    readCodeBit s = .raised .sourceFailed { s with source := p } := by
  rw [readCodeBit, sourceBit_of_answer h, Run.bind_done]

/-- At Eof the tail budget decides between a counted 0 bit and the end of the stream. -/
theorem readCodeBit_of_eof {s : State} {p : SourcePort} (h : s.source.answer = (some .eof, p)) :
    readCodeBit s = if s.tail.toNat < tailBudget s.par.codeBits.toNat
      then .done false { s with source := p, tail := word (s.tail.toNat + 1) }
      else .raised .sourceExhausted { s with source := p } := by
  rw [readCodeBit, sourceBit_of_answer h, Run.bind_done]

/-- Settles O39: the source's answer decides, and at Eof TAIL against the budget CODE_BITS - 2; an Eof leaves the source
as it was by the source's duty. -/
theorem readCodeBitRules : Obligations.ReadCodeBitRules := by
  unfold Obligations.ReadCodeBitRules
  intro s p
  refine ⟨fun heof => ?_, fun _ => readCodeBit_of_bit, readCodeBit_of_ioError,
    fun heof hlt => ?_, fun heof hge => ?_⟩
  · have hsame : s.source.answer.2 = s.source := s.source.answer_eof_sticky (congrArg Prod.fst heof)
    exact (congrArg Prod.snd heof).symm.trans hsame
  · exact (readCodeBit_of_eof heof).trans (if_pos hlt)
  · exact (readCodeBit_of_eof heof).trans (if_neg (Nat.not_lt.2 hge))

end Sys2Proof.Machine

/-! The opcode map in both directions (30_encoding.md R84 to R87), and a command as the next outside event
(10_state.md R36). -/

namespace Sys2Proof

/-- The four facts of `Laws.CommandWord`, of every command. -/
theorem commandWord (i : Instr) : Laws.CommandWord.Statement i := by
  cases i
  case cfg => exact Laws.CommandWord.cfg
  case initEnc => exact Laws.CommandWord.initEnc
  case initDec => exact Laws.CommandWord.initDec
  case encSym => exact Laws.CommandWord.encSym
  case encFinish => exact Laws.CommandWord.encFinish
  case decSym => exact Laws.CommandWord.decSym
  case mParams => exact Laws.CommandWord.mParams
  case mTotal => exact Laws.CommandWord.mTotal
  case mFreq => exact Laws.CommandWord.mFreq
  case mSym => exact Laws.CommandWord.mSym
  case mTable => exact Laws.CommandWord.mTable

/-- Every command's word decodes to the command (30_encoding.md R84, R87). -/
@[simp] theorem decode_encode (i : Instr) : decode (encode i) = .ok i := by
  obtain ⟨-, hrsv, hopc, hmap⟩ := commandWord i
  rw [decode, if_pos hrsv, hopc, hmap]

/-- A table row of the full 64 bits is the word itself (30_encoding.md R86). -/
theorem tableWord_toNat (v : Word) : tableWord 64 v.toNat = v := by
  rw [tableWord, Nat.mod_eq_of_lt v.isLt, Machine.word_toNat_self]

/-- Settles O1: the round trip is `decode_encode`, and the 64-bit row of a word is that word. -/
theorem decodeEncodeRoundTrip : Obligations.DecodeEncodeRoundTrip := by
  unfold Obligations.DecodeEncodeRoundTrip
  intro i _
  refine ⟨decode_encode i, ?_⟩
  rw [decodeTableWord, if_pos (Nat.le_refl 64), tableWord_toNat, decode_encode]

/-- Settles O2: only a command's own word decodes to it, and that word does. -/
theorem onlyTheOpcodeMapDecodes : Obligations.OnlyTheOpcodeMapDecodes := by
  unfold Obligations.OnlyTheOpcodeMapDecodes
  intro v i
  constructor
  · exact eq_encode_of_decode
  · rintro rfl
    exact decode_encode i

/-- Settles O3: each word is evaluated by the decoder. -/
theorem writtenWordsDecode : Obligations.WrittenWordsDecode := by
  unfold Obligations.WrittenWordsDecode
  exact ⟨rfl, rfl, rfl, rfl, rfl, rfl, rfl, rfl⟩

end Sys2Proof

namespace Sys2Proof.Machine

theorem issue_of_decode {v : Word} {i : Instr} (h : decode v = .ok i) (s : State) : issue v s = exec i s := by
  rw [issue, h]

/-- Settles O4: the write is well formed and reaches CMD, which issues the decoded command. -/
theorem stepRunsTheDecodedCommand : Obligations.StepRunsTheDecodedCommand := by
  unfold Obligations.StepRunsTheDecodedCommand
  intro s v rest i hwrite hdecode
  rw [step_write hwrite rfl, regAt_eq_cmd.2 rfl, hostWrite, issue_of_decode hdecode]

end Sys2Proof.Machine

/-! The fields of STATUS and PARAM, and host reads (20_memory.md R61 to R65, 10_state.md R21, R37, R42). -/

namespace Sys2Proof.Machine

/-- Joining two words puts the second below the first. -/
theorem toNat_append_eq {m n : Nat} (x : BitVec m) (y : BitVec n) : (x ++ y).toNat = x.toNat * 2 ^ n + y.toNat := by
  rw [BitVec.toNat_append, ← Nat.shiftLeft_add_eq_or_of_lt y.isLt, Nat.shiftLeft_eq]

/-- STATUS as the sum of its fields at their bit positions (10_state.md R37). -/
theorem statusWord_toNat (e : ErrKind) (d : Detail) (ss : Sess) (p : Bool) (v : Variant) :
    (statusWord e d ss p v).toNat =
      e.bits.toNat + 16 * d.bits.toNat + 256 * ss.bits.toNat + 2048 * p.toNat + 4096 * v.bits.toNat := by
  simp only [statusWord, toNat_append_eq, BitVec.toNat_ofNat, BitVec.toNat_ofBool]
  omega

/-- PARAM as the sum of its fields at their bit positions (10_state.md R21). -/
theorem paramWord_toNat (p : Params) :
    p.paramWord.toNat = p.symbolBits.toNat + 256 * p.freqBits.toNat + 65536 * p.codeBits.toNat := by
  simp only [Params.paramWord, toNat_append_eq, BitVec.toNat_ofNat]
  omega

/-- Settles O9: the words are the sums of their fields, and each code has the number its table gives. -/
theorem statusAndParamFields : Obligations.StatusAndParamFields := by
  unfold Obligations.StatusAndParamFields
  refine ⟨fun e d ss p v => ?_, paramWord_toNat⟩
  rw [statusWord_toNat]
  congr 1
  · congr 1
    · congr 1
      · congr 1
        · cases e <;> rfl
        · cases d <;> rfl
      · cases ss <;> rfl
    · cases p <;> rfl
  · cases v <;> rfl

/-! Host reads, by what the register holds. -/

theorem hostRead_of_value {r : HostReg} {s : State} {v : Word} (hr : ¬(r = .status ∧ s.sess = .failed))
    (hv : regValue r s = some v) : hostRead r s = returnToHost v s := by
  rw [hostRead, if_neg hr, hv]

theorem hostRead_of_none {r : HostReg} {s : State} (hr : ¬(r = .status ∧ s.sess = .failed))
    (hv : regValue r s = none) : hostRead r s = returnDraw s := by
  rw [hostRead, if_neg hr, hv]

/-- A read of a register whose value is specified returns it and changes nothing else (20_memory.md R65). -/
theorem step_read_value {s : State} {rest : List HostEvent} {off : Nat} {v : Word}
    (hread : s.inputs = .read off 64 :: rest) (hacc : accessWellFormed off 64 = true)
    (hr : ¬(regAt off = .status ∧ s.sess = .failed))
    (hv : regValue (regAt off) { s with inputs := rest } = some v) :
    step s = .next { s with inputs := rest, reads := s.reads ++ [v] } := by
  exact (step_read hread hacc).trans (congrArg _ (hostRead_of_value hr hv))

/-- Settles O8: each offset of the list names a register, whose value is specified in every session state, or outside
FAILED. -/
theorem hostReadsFollowTheMap : Obligations.HostReadsFollowTheMap := by
  unfold Obligations.HostReadsFollowTheMap
  intro s rest off v hread
  constructor
  · intro hmem
    simp only [List.mem_cons, Prod.mk.injEq, List.not_mem_nil, or_false] at hmem
    rcases hmem with ⟨rfl, rfl⟩ | ⟨rfl, rfl⟩ | ⟨rfl, rfl⟩ | ⟨rfl, rfl⟩ | ⟨rfl, rfl⟩ | ⟨rfl, rfl⟩ | ⟨rfl, rfl⟩ | ⟨rfl, rfl⟩ |
      ⟨rfl, rfl⟩ | ⟨rfl, rfl⟩ | ⟨rfl, rfl⟩ | ⟨rfl, rfl⟩ | ⟨rfl, rfl⟩ | ⟨rfl, rfl⟩ | ⟨rfl, rfl⟩ | ⟨rfl, rfl⟩ | ⟨rfl, rfl⟩
    all_goals exact step_read_value hread rfl (by simp [regAt]) rfl
  · intro hlive hmem
    simp only [List.mem_cons, Prod.mk.injEq, List.not_mem_nil, or_false] at hmem
    rcases hmem with ⟨rfl, rfl⟩ | ⟨rfl, rfl⟩ | ⟨rfl, rfl⟩ | ⟨rfl, rfl⟩ | ⟨rfl, rfl⟩ | ⟨rfl, rfl⟩
    all_goals exact step_read_value hread rfl (fun h => hlive h.2) (by simp [regAt, regValue, hlive])

/-- The offsets above TOTAL are reserved (20_memory.md R61, R63). -/
theorem regAt_of_reserved {off : Nat} (h : 0x0B8 ≤ off) : regAt off = .reserved := by
  unfold regAt
  split <;> simp_all

/-- The registers at 0x088 to 0x0A8 are those FAILED leaves unspecified (10_state.md R42). -/
theorem regValue_regAt_of_failed {off : Nat} (halign : off % 8 = 0) (hlo : 0x088 ≤ off) (hhi : off ≤ 0x0A8) {s : State}
    (hs : s.sess = .failed) : regAt off ≠ .status ∧ regValue (regAt off) s = none := by
  obtain rfl | rfl | rfl | rfl | rfl : off = 0x088 ∨ off = 0x090 ∨ off = 0x098 ∨ off = 0x0A0 ∨ off = 0x0A8 := by omega
  all_goals exact ⟨by simp [regAt], by simp [regAt, regValue, hs]⟩

/-- Settles O10: the reserved offsets and, in FAILED, the codec registers have no specified value, so the read draws
one; STATUS in FAILED draws PRIMED. -/
theorem unspecifiedReadsAreDraws : Obligations.UnspecifiedReadsAreDraws := by
  unfold Obligations.UnspecifiedReadsAreDraws
  intro s rest off hread halign hwindow
  have hacc : accessWellFormed off 64 = true := accessWellFormed_iff.2 ⟨rfl, halign, hwindow⟩
  have hdraw : regAt off ≠ .status → regValue (regAt off) { s with inputs := rest } = none →
      step s = .next { s with
        inputs := rest, reads := s.reads ++ [Config.freeWord s.draws], draws := s.draws + 1 } := by
    intro hr hv
    exact (step_read hread hacc).trans (congrArg _ (hostRead_of_none (fun h => hr h.1) hv))
  constructor
  · rintro (hres | ⟨hs, hlo, hhi⟩)
    · have hreg := regAt_of_reserved hres
      exact hdraw (by simp [hreg]) (by rw [hreg]; rfl)
    · obtain ⟨hr, hv⟩ := regValue_regAt_of_failed (s := { s with inputs := rest }) halign hlo hhi hs
      exact hdraw hr hv
  · rintro hs rfl
    rw [step_read hread hacc, hostRead, if_pos ⟨rfl, hs⟩, returnFailedStatus, returnToHost]
    simp only [hs]

/-- A read the port serves is a well-formed one. -/
theorem accessWellFormed_of_step_read {s t : State} {rest : List HostEvent} {off w : Nat}
    (hread : s.inputs = .read off w :: rest) (h : step s = .next t) : accessWellFormed off w = true := by
  by_contra hacc
  rw [step_read_malformed hread hacc] at h
  cases h

/-- Settles O12: a served read appends one value and may advance the draw counter. -/
theorem hostReadFrame : Obligations.HostReadFrame := by
  unfold Obligations.HostReadFrame
  intro s t rest off width hread h
  rw [step_read hread (accessWellFormed_of_step_read hread h)] at h
  cases h
  obtain ⟨v, hv⟩ | ⟨v, hv⟩ := hostRead_cases (regAt off) { s with inputs := rest }
  · rw [hv]
    exact ⟨rfl, v, rfl⟩
  · rw [hv]
    exact ⟨rfl, v, rfl⟩

end Sys2Proof.Machine

/-! Reset, the idle block and the environment's events (10_state.md R41, 60_exceptions.md R219,
70_reset_and_hazards.md R230, R232). -/

namespace Sys2Proof.Machine

/-- Settles O13: `State.reset` holds these values by its definition, and the words are evaluated. -/
theorem resetValues : Obligations.ResetValues := by
  unfold Obligations.ResetValues
  exact ⟨rfl, rfl, rfl, rfl, rfl, rfl, rfl, rfl, rfl, rfl, rfl, rfl, rfl, rfl, rfl⟩

/-- Settles O14: the reset event is served by `hardwareReset`. -/
theorem resetEvent : Obligations.ResetEvent := by
  unfold Obligations.ResetEvent
  intro s rest hreset
  rw [step_serve hreset]
  rfl

/-- Settles O15: a step with no event is idle. -/
theorem idleStateSteps : Obligations.IdleStateSteps := by
  unfold Obligations.IdleStateSteps
  exact fun _ => step_idle

/-- Settles O60: the event is served by `positionSource`, which refuses it exactly in a decode session with TAIL not 0. -/
theorem setSourceEvent : Obligations.SetSourceEvent := by
  unfold Obligations.SetSourceEvent
  intro s rest p hevent
  rw [step_serve hevent, serve, positionSource]
  constructor
  · intro hfree
    exact if_neg fun ⟨hdec, htail⟩ => hfree.elim (· hdec) htail
  · intro hdec htail
    exact if_pos ⟨hdec, htail⟩

/-- Settles O45: at reset ERR is the kind of DETAIL, the parameter registers are 0, there is no session, and so nothing
else is promised. -/
theorem resetMeetsInvariants : Obligations.ResetMeetsInvariants := by
  unfold Obligations.ResetMeetsInvariants
  have hnoModel : State.reset.sess.hasModel ≠ true := by decide
  refine ⟨rfl, ⟨fun _ => rfl, fun h => absurd rfl h⟩, fun _ => ⟨rfl, rfl, rfl, rfl, rfl, rfl, rfl, rfl⟩,
    fun h => absurd h hnoModel, ?_, ?_⟩
  · rintro (h | h | h) <;> cases h
  · exact ⟨fun h => (by cases h), fun h => (by cases h)⟩

end Sys2Proof.Machine

/-! The laws of accepted widths (40_configuration.md R102, R105 to R107). -/

namespace Sys2Proof.Machine

/-- What valid widths imply, `maxSymbolBits` being at most 29 (40_configuration.md R102). -/
theorem validWidths_bounds {sb fb cb : Nat} (h : validWidths sb fb cb = true) :
    1 ≤ sb ∧ sb ≤ 29 ∧ sb + 2 ≤ fb ∧ fb ≤ 31 ∧ fb + 2 ≤ cb ∧ cb ≤ 61 := by
  have hmax : Config.maxSymbolBits ≤ 29 := Config.maxSymbolBitsIndex.isLt
  obtain ⟨h1, h2, h3, h4, h5, h6, h7⟩ := validWidths_iff.1 h
  omega

theorem toNat_word {n : Nat} (h : n < 2 ^ 64) : (word n).toNat = n := by
  rw [word, BitVec.toNat_ofNat, Nat.mod_eq_of_lt h]

/-- The derived constants of valid widths are exact: no register loses a bit (40_configuration.md R101, R105). -/
theorem derive_exact {sb fb cb : Nat} (h : validWidths sb fb cb = true) :
    (Params.derive sb fb cb).symbolEof.toNat = 2 ^ sb ∧ (Params.derive sb fb cb).symbolCount.toNat = 2 ^ sb + 1
      ∧ (Params.derive sb fb cb).freqMax.toNat = 2 ^ fb - 1 ∧ (Params.derive sb fb cb).codeMax.toNat = 2 ^ cb - 1
      ∧ (Params.derive sb fb cb).codeOneFourth.toNat = 2 ^ (cb - 2)
      ∧ (Params.derive sb fb cb).codeHalf.toNat = 2 ^ (cb - 1)
      ∧ (Params.derive sb fb cb).codeThreeFourths.toNat = 3 * 2 ^ (cb - 2) := by
  obtain ⟨-, hsb, -, hfb, -, hcb⟩ := validWidths_bounds h
  have h1 : 2 ^ sb ≤ 2 ^ 29 := Nat.pow_le_pow_right Nat.zero_lt_two hsb
  have h2 : 2 ^ fb ≤ 2 ^ 31 := Nat.pow_le_pow_right Nat.zero_lt_two hfb
  have h3 : 2 ^ cb ≤ 2 ^ 61 := Nat.pow_le_pow_right Nat.zero_lt_two hcb
  have h4 : 2 ^ (cb - 1) ≤ 2 ^ 60 := Nat.pow_le_pow_right Nat.zero_lt_two (by omega)
  have h5 : 2 ^ (cb - 2) ≤ 2 ^ 59 := Nat.pow_le_pow_right Nat.zero_lt_two (by omega)
  exact ⟨toNat_word (by omega), toNat_word (by omega), toNat_word (by omega), toNat_word (by omega),
    toNat_word (by omega), toNat_word (by omega), toNat_word (by omega)⟩

/-- The constants of a configured state by its widths (40_configuration.md R101). -/
theorem Configured.exact {s : State} (h : Configured s) :
    s.par.symbolEof.toNat = 2 ^ s.par.symbolBits.toNat ∧ s.par.symbolCount.toNat = 2 ^ s.par.symbolBits.toNat + 1
      ∧ s.par.freqMax.toNat = 2 ^ s.par.freqBits.toNat - 1 ∧ s.par.codeMax.toNat = 2 ^ s.par.codeBits.toNat - 1
      ∧ s.par.codeOneFourth.toNat = 2 ^ (s.par.codeBits.toNat - 2)
      ∧ s.par.codeHalf.toNat = 2 ^ (s.par.codeBits.toNat - 1)
      ∧ s.par.codeThreeFourths.toNat = 3 * 2 ^ (s.par.codeBits.toNat - 2) := by
  obtain ⟨hvalid, hpar⟩ := h
  have hexact := derive_exact hvalid
  rwa [← hpar] at hexact

/-- Settles O18: the widths are bounded, so every power of two fits its register, and the laws compare those powers. -/
theorem configuredRegistersObeyLaws : Obligations.ConfiguredRegistersObeyLaws := by
  unfold Obligations.ConfiguredRegistersObeyLaws
  intro s hs
  obtain ⟨h1, h2, h3, h4, h5, h6⟩ := validWidths_bounds hs.1
  obtain ⟨heof, hcount, hfreq, hmax, hfourth, hhalf, hthree⟩ := hs.exact
  dsimp only
  rw [heof, hcount, hfreq, hmax, hfourth, hhalf, hthree]
  have hhalf2 : 2 ^ (s.par.codeBits.toNat - 1) = 2 * 2 ^ (s.par.codeBits.toNat - 2) := by
    rw [← pow_succ']
    congr 1
    omega
  have hfull : 2 ^ s.par.codeBits.toNat = 4 * 2 ^ (s.par.codeBits.toNat - 2) := by
    rw [show 4 = 2 ^ 2 from rfl, ← pow_add]
    congr 1
    omega
  have hquarter : 2 ^ s.par.freqBits.toNat ≤ 2 ^ (s.par.codeBits.toNat - 2) := Nat.pow_le_pow_right Nat.zero_lt_two (by omega)
  have hsymbols : 2 ^ (s.par.symbolBits.toNat + 2) ≤ 2 ^ s.par.freqBits.toNat := Nat.pow_le_pow_right Nat.zero_lt_two h3
  have htwo : 2 ^ 1 ≤ 2 ^ s.par.symbolBits.toNat := Nat.pow_le_pow_right Nat.zero_lt_two h1
  rw [pow_add] at hsymbols
  refine ⟨h1, h2, ?_, h4, ?_, h6, rfl, rfl, rfl, rfl, hhalf2, rfl, ?_, ?_, ?_⟩ <;> omega

/-- The facts of a configured state that the codec uses. -/
theorem Configured.quarters {s : State} (h : Configured s) : Quarters s.par := by
  obtain ⟨-, -, -, -, -, hcb, -, -, -, -, hhalf, hthree, hmax, -, -⟩ := configuredRegistersObeyLaws s h
  refine ⟨hhalf, hthree, hmax, ?_⟩
  obtain ⟨-, -, -, hcm, -, -, -⟩ := h.exact
  have : 2 ^ s.par.codeBits.toNat ≤ 2 ^ 61 := Nat.pow_le_pow_right Nat.zero_lt_two hcb
  omega

theorem Configured.codeMax_succ {s : State} (h : Configured s) : s.par.codeMax.toNat + 1 = 2 ^ s.par.codeBits.toNat := by
  obtain ⟨-, -, -, hcm, -, -, -⟩ := h.exact
  rw [hcm]
  exact Nat.sub_add_cancel Nat.one_le_two_pow

theorem Configured.codeBits_bounds {s : State} (h : Configured s) :
    5 ≤ s.par.codeBits.toNat ∧ s.par.codeBits.toNat ≤ 61 := by
  obtain ⟨-, -, -, -, hlo, hhi, -⟩ := configuredRegistersObeyLaws s h
  exact ⟨hlo, hhi⟩

theorem Configured.freqMax_lt {s : State} (h : Configured s) : s.par.freqMax.toNat < s.par.codeOneFourth.toNat := by
  obtain ⟨-, -, -, -, -, -, -, -, -, -, -, -, -, hfreq, -⟩ := configuredRegistersObeyLaws s h
  exact hfreq

theorem Configured.symbolCount_add_two_le {s : State} (h : Configured s) :
    s.par.symbolCount.toNat + 2 ≤ s.par.freqMax.toNat := by
  obtain ⟨-, -, -, -, -, -, -, -, -, -, -, -, -, -, hcount⟩ := configuredRegistersObeyLaws s h
  exact hcount

/-- SYMBOL_EOF is the last symbol (40_configuration.md R101). -/
theorem Configured.symbolCount_eq {s : State} (h : Configured s) :
    s.par.symbolCount.toNat = s.par.symbolEof.toNat + 1 := by
  obtain ⟨heof, hcount, -⟩ := h.exact
  rw [hcount, heof]

end Sys2Proof.Machine

/-! The laws of the model and the refinement of the tree (41_model.md R126, R129 to R134). -/

namespace Sys2Proof.Machine

theorem one_le_of_mem_linInc {F : List Nat} {s : Nat} (hF : ∀ f ∈ F, 1 ≤ f) : ∀ f ∈ linInc F s, 1 ≤ f := by
  intro f hf
  obtain ⟨i, hi, rfl⟩ := List.getElem_of_mem hf
  rw [length_linInc] at hi
  have := hF _ (List.getElem_mem hi)
  simp only [linInc, List.getElem_modify]
  split <;> omega

theorem one_le_of_mem_linHalve {F : List Nat} : ∀ f ∈ linHalve F, 1 ≤ f := by
  intro f hf
  obtain ⟨g, -, rfl⟩ := List.mem_map.1 hf
  exact (halveEntry_bounds g).1

/-- Halving at most halves the total, but for the entries that stay at 1: each entry f halves to at most (f + 1) / 2. -/
theorem two_mul_sum_linHalve_le {F : List Nat} (hF : ∀ f ∈ F, 1 ≤ f) : 2 * (linHalve F).sum ≤ F.sum + F.length := by
  induction F with
  | nil => simp [linHalve]
  | cons f F ih =>
    have hf : 1 ≤ f := hF f (List.mem_cons_self ..)
    have htail := ih fun g hg => hF g (List.mem_cons_of_mem _ hg)
    obtain ⟨-, hhalf⟩ := halveEntry_bounds f
    simp only [linHalve, List.map_cons, List.sum_cons, List.length_cons] at htail ⊢
    omega

/-- Settles O25: without halving the total stays at most FREQ_MAX by the test; a halved total is at most half of
FREQ_MAX + n, which leaves room for one more because n + 2 <= FREQ_MAX. -/
theorem updateKeepsModelLaws : Obligations.UpdateKeepsModelLaws := by
  unfold Obligations.UpdateKeepsModelLaws
  intro F m s hF hsum hlen hs
  refine ⟨updateFreqs_length m s F, ?_⟩
  unfold updateFreqs
  split
  case isTrue =>
    have hhalf := two_mul_sum_linHalve_le hF
    refine ⟨one_le_of_mem_linInc one_le_of_mem_linHalve, ?_⟩
    rw [sum_linInc (by simpa using hs)]
    omega
  case isFalse hroom =>
    refine ⟨one_le_of_mem_linInc hF, ?_⟩
    rw [sum_linInc hs]
    omega

/-- Settles O26: on the tree of F each query is the sum of F it stands for. -/
theorem treeQueriesMatchLinear : Obligations.TreeQueriesMatchLinear := by
  unfold Obligations.TreeQueriesMatchLinear
  intro F hF
  refine ⟨fun k => treePrefix_treeOf hF, fun s hs => ?_, treeFreqs_treeOf hF⟩
  rw [treeFreqOf_treeOf hF hs, linFreqOf_eq_cum F s 0 hs, Nat.zero_add, Nat.zero_add]

/-- Settles O27: the point update, the rescale and the initial tree are each the tree of the vector they stand for. -/
theorem treeUpdatesMatchLinear : Obligations.TreeUpdatesMatchLinear := by
  unfold Obligations.TreeUpdatesMatchLinear
  intro F hF
  have h64 : F.length < 2 ^ 64 := by omega
  exact ⟨fun s hs => treeInc_treeOf h64 hs, treeRescale_treeOf h64, treeInit_eq_treeOf h64⟩

/-- Settles O28: the search and the scan both answer an owner of v with its range, and v has one owner. -/
theorem treeSearchMatchesLinear : Obligations.TreeSearchMatchesLinear := by
  unfold Obligations.TreeSearchMatchesLinear
  intro F v hF _ hv
  obtain ⟨s, -, htree, hslo, hshi⟩ := treeSymOf_owner (show F.length < 2 ^ 64 by omega) hv
  obtain ⟨r, hr, hlin, hrlo, hrhi⟩ := linSymOf_owner F v 0 0 (Nat.zero_le v) (by simpa using hv)
  simp only [Nat.zero_add] at hlin hrlo hrhi
  obtain rfl : s = r := owner_unique hslo hshi hrlo hrhi
  exact ⟨htree.trans hlin.symm, s, hr, hrlo, hrhi, hlin⟩

/-- In a session that meets the invariants, Update of a symbol keeps the model invariant (41_model.md R126). -/
theorem ModelOk.updateFreqs_laws {s : State} (h : ModelOk s) (hcfg : Configured s) {sym : Nat}
    (hsym : sym < s.par.symbolCount.toNat) :
    (updateFreqs s.par.freqMax.toNat sym s.store.freqs).length = s.par.symbolCount.toNat
      ∧ (∀ f ∈ updateFreqs s.par.freqMax.toNat sym s.store.freqs, 1 ≤ f)
      ∧ (updateFreqs s.par.freqMax.toNat sym s.store.freqs).sum ≤ s.par.freqMax.toNat := by
  obtain ⟨-, hlen, hpos, hmax⟩ := h
  have hlaws := updateKeepsModelLaws s.store.freqs s.par.freqMax.toNat sym hpos hmax
    (hlen ▸ hcfg.symbolCount_add_two_le) (hlen ▸ hsym)
  rwa [hlen] at hlaws

/-- The frequency vector of a variant's store is the vector it was made from (10_state.md R31, R32). -/
theorem Store.freqs_ofFreqs (v : Variant) {F : List Nat} (hF : F.length < 2 ^ 64) : (Store.ofFreqs v F).freqs = F := by
  cases v with
  | linear => rfl
  | tree => exact treeFreqs_treeOf hF

end Sys2Proof.Machine

/-! The two variants of the model are one block (41_model.md R134, 42_codec.md R182): the parts of a command that do not
touch the model run alike whatever model stands in the state, and the model's own operations depend on F alone. -/

namespace Sys2Proof.Machine

/-! A run seen through a change of the state it does not read. -/

/-- The run that ends as `r` does, in the changed state. -/
def Run.mapState {α : Type} (f : State → State) : Run α → Run α
  | .done a s => .done a (f s)
  | .raised d s => .raised d (f s)
  | .stuck e => .stuck e

/-- A composed run is seen through the change when both parts are. -/
theorem Run.bind_mapState {α β : Type} {f : State → State} {r : Run α} {k : α → State → Run β}
    (hk : ∀ a s, k a (f s) = (k a s).mapState f) : (r.mapState f).bind k = (r.bind k).mapState f := by
  cases r with
  | done a s => exact hk a s
  | raised d s => rfl
  | stuck e => rfl

/-- The change leaves the sink side alone and does not depend on it. -/
def SinkBlind (f : State → State) : Prop :=
  ∀ (s : State) (p : SinkPort) (l : List SinkEvent),
    (f s).sink = s.sink ∧ (f s).sinkLog = s.sinkLog
      ∧ f { s with sink := p, sinkLog := l } = { f s with sink := p, sinkLog := l }

theorem sinkEvent_mapState {f : State → State} (hf : SinkBlind f) (e : SinkEvent) (s : State) :
    sinkEvent e (f s) = (sinkEvent e s).mapState f := by
  rw [sinkEvent, sinkEvent, (hf s s.sink s.sinkLog).1]
  rcases s.sink.answer with ⟨_ | _ | _, p⟩
  case none => rfl
  case some.ok =>
    obtain ⟨-, hlog, hset⟩ := hf s p (s.sinkLog ++ [e])
    simp only [Run.mapState, hset, hlog]
  case some.ioError =>
    obtain ⟨-, hlog, hset⟩ := hf s p s.sinkLog
    simp only [Run.mapState, hset, hlog]

theorem sinkEvents_mapState {f : State → State} (hf : SinkBlind f) (es : List SinkEvent) (s : State) :
    sinkEvents es (f s) = (sinkEvents es s).mapState f := by
  induction es generalizing s with
  | nil => rfl
  | cons e es ih =>
    rw [sinkEvents, sinkEvents, sinkEvent_mapState hf, Run.bind_mapState fun _ t => ih t]

/-! The codec's part of a command, seen through a change of the model. -/

/-- The state with another model in place. -/
def State.withModel (v : Variant) (st : Store) (s : State) : State := { s with variant := v, store := st }

theorem sinkBlind_withModel (v : Variant) (st : Store) : SinkBlind (State.withModel v st) :=
  fun _ _ _ => ⟨rfl, rfl, rfl⟩

section
variable (v : Variant) (st : Store)

theorem emitFollow_withModel (b : Bool) (s : State) :
    emitFollow b (s.withModel v st) = (emitFollow b s).mapState (State.withModel v st) := by
  rw [emitFollow_eq, emitFollow_eq, State.withModel]
  exact (congrArg (Run.bind · _) (sinkEvents_mapState (sinkBlind_withModel v st) _ s)).trans
    (Run.bind_mapState fun _ _ => rfl)

theorem flushSink_withModel (s : State) :
    flushSink (s.withModel v st) = (flushSink s).mapState (State.withModel v st) :=
  sinkEvent_mapState (sinkBlind_withModel v st) .flush s

theorem incPending_withModel (s : State) :
    incPending (s.withModel v st) = (incPending s).mapState (State.withModel v st) := by
  by_cases h : s.pending.toNat = pendingMax
  · rw [incPending, incPending, if_pos h]
    exact if_pos h
  · rw [incPending, incPending, if_neg h]
    exact if_neg h

theorem encStep_withModel (b : Band) (s : State) :
    encStep b (s.withModel v st) = (encStep b s).mapState (State.withModel v st) := by
  cases b with
  | e1 => rw [encStep, encStep, emitFollow_withModel, Run.bind_mapState fun _ _ => rfl]
  | e2 => rw [encStep, encStep, emitFollow_withModel, Run.bind_mapState fun _ _ => rfl]
  | e3 => rw [encStep, encStep, incPending_withModel, Run.bind_mapState fun _ _ => rfl]
  | none => rfl

theorem encRenormLoop_withModel (k : Nat) (s : State) :
    encRenormLoop k (s.withModel v st) = (encRenormLoop k s).mapState (State.withModel v st) := by
  induction k generalizing s with
  | zero => rfl
  | succ k ih =>
    rw [encRenormLoop, encRenormLoop, show band (s.withModel v st) = band s from rfl]
    split
    · rfl
    · rw [encStep_withModel, Run.bind_mapState fun _ t => ih t]

theorem sourceBit_withModel (s : State) :
    sourceBit (s.withModel v st) = (sourceBit s).mapState (State.withModel v st) := by
  obtain ⟨a, ha, h⟩ | ⟨ha, h⟩ := sourceBit_cases s <;>
  obtain ⟨b, hb, h'⟩ | ⟨hb, h'⟩ := sourceBit_cases (s.withModel v st) <;>
  rw [show (s.withModel v st).source = s.source from rfl, ha] at hb <;> cases hb <;> rw [h, h'] <;> rfl

theorem readCodeBit_withModel (s : State) :
    readCodeBit (s.withModel v st) = (readCodeBit s).mapState (State.withModel v st) := by
  rw [readCodeBit, readCodeBit, sourceBit_withModel]
  refine Run.bind_mapState fun a t => ?_
  cases a with
  | bit b => rfl
  | ioError => rfl
  | eof =>
    simp only
    split
    next h => exact (if_pos h).symm ▸ rfl
    next h => exact (if_neg h).symm ▸ rfl

theorem primeLoop_withModel (k : Nat) (s : State) :
    primeLoop k (s.withModel v st) = (primeLoop k s).mapState (State.withModel v st) := by
  induction k generalizing s with
  | zero => rfl
  | succ k ih =>
    rw [primeLoop, primeLoop, readCodeBit_withModel]
    exact Run.bind_mapState fun b t => ih { t with code := word (2 * t.code.toNat + b.toNat) }

theorem prime_withModel (s : State) : prime (s.withModel v st) = (prime s).mapState (State.withModel v st) := by
  rw [prime, prime, show (s.withModel v st).primed = s.primed from rfl]
  split
  · rfl
  · refine (congrArg (Run.bind · _) (primeLoop_withModel v st _ { s with code := 0 })).trans ?_
    exact Run.bind_mapState fun _ _ => rfl

theorem decStep_withModel (b : Band) (s : State) :
    decStep b (s.withModel v st) = (decStep b s).mapState (State.withModel v st) := by
  rw [decStep, decStep, readCodeBit_withModel, Run.bind_mapState fun _ _ => rfl]

theorem decRenormLoop_withModel (k : Nat) (s : State) :
    decRenormLoop k (s.withModel v st) = (decRenormLoop k s).mapState (State.withModel v st) := by
  induction k generalizing s with
  | zero => rfl
  | succ k ih =>
    rw [decRenormLoop, decRenormLoop, show band (s.withModel v st) = band s from rfl]
    split
    · rfl
    · rw [decStep_withModel, Run.bind_mapState fun _ t => ih t]

end

/-! Two models of the same F (41_model.md R134). -/

/-- Two states agree but for the variant, and each has a model that meets the invariant. -/
structure SameModel (s t : State) : Prop where
  same : SameButVariant s t
  left : ModelOk s
  right : ModelOk t

/-- The model invariant speaks of the store, the variant and the parameter registers only. -/
theorem ModelOk.congr {s u : State} (h : ModelOk s) (hstore : u.store = s.store) (hvariant : u.variant = s.variant)
    (hpar : u.par = s.par) : ModelOk u := by
  unfold ModelOk
  rw [hstore, hvariant, hpar]
  exact h

theorem SameButVariant.eq_withModel {s t : State} (h : SameButVariant s t) : t = s.withModel t.variant t.store := h.1

namespace SameModel

variable {s t : State} (h : SameModel s t)
include h

theorem par_eq : t.par = s.par := by rw [h.same.eq_withModel]; rfl

theorem total_eq : t.store.total = s.store.total := by
  rw [h.left.total_eq_sum, h.right.total_eq_sum, h.same.2]

theorem freqOf_eq {sym : Nat} (hsym : sym < s.par.symbolCount.toNat) : t.store.freqOf sym = s.store.freqOf sym := by
  rw [h.left.freqOf_eq hsym, h.right.freqOf_eq (h.par_eq ▸ hsym), h.same.2]

/-- Both models find the one owner of a value below TOTAL. -/
theorem symOf_eq {x : Nat} (hx : x < s.store.total) :
    t.store.symOf x = s.store.symOf x ∧ (s.store.symOf x).1 < s.par.symbolCount.toNat := by
  rw [h.left.total_eq_sum] at hx
  obtain ⟨a, ha, hs, halo, hahi⟩ := h.left.symOf_owner hx
  obtain ⟨b, -, ht, hblo, hbhi⟩ := h.right.symOf_owner (h.same.2 ▸ hx)
  rw [← h.same.2] at ht hblo hbhi
  obtain rfl : a = b := owner_unique halo hahi hblo hbhi
  rw [hs, ht]
  exact ⟨rfl, ha⟩

/-- Update of the same symbol gives models of the same F again. -/
theorem update_freqs_eq {sym : Nat} (hsym : sym < s.par.symbolCount.toNat) (m : Nat) :
    (s.store.update m sym).freqs = (t.store.update m sym).freqs := by
  have hlen : (updateFreqs m sym s.store.freqs).length < 2 ^ 64 := by
    rw [updateFreqs_length]
    exact h.left.length_lt
  rw [h.left.update_eq hsym, h.right.update_eq (h.par_eq ▸ hsym), ← h.same.2, Store.freqs_ofFreqs _ hlen,
    Store.freqs_ofFreqs _ hlen]

theorem updateModel {sym : Nat} (hsym : sym < s.par.symbolCount.toNat) :
    SameButVariant (Machine.updateModel sym s) (Machine.updateModel sym t) := by
  refine ⟨?_, ?_⟩
  · rw [h.same.eq_withModel]
    rfl
  · rw [updateModel_store, updateModel_store, h.par_eq]
    exact h.update_freqs_eq hsym _

/-- States reached without touching either model agree as before. -/
theorem of_withModel {u : State} (hstore : u.store = s.store) (hvariant : u.variant = s.variant)
    (hpar : u.par = s.par) : SameModel u (u.withModel t.variant t.store) where
  same := ⟨rfl, by rw [hstore]; exact h.same.2⟩
  left := h.left.congr hstore hvariant hpar
  right := h.right.congr rfl rfl (hpar.trans h.par_eq.symm)

end SameModel

/-! The ends of a command keep the agreement. -/

namespace SameButVariant

variable {s t : State} (h : SameButVariant s t)
include h

theorem succeed : SameButVariant s.succeed t.succeed := ⟨by rw [h.eq_withModel]; rfl, h.2⟩

theorem raise (d : Detail) : SameButVariant (s.raise d) (t.raise d) := ⟨by rw [h.eq_withModel]; rfl, h.2⟩

theorem raiseFatal (d : Detail) : SameButVariant (s.raiseFatal d) (t.raiseFatal d) :=
  ⟨by rw [h.eq_withModel]; rfl, h.2⟩

theorem setRes1 (a : Nat) : SameButVariant (s.setRes1 a) (t.setRes1 a) := ⟨by rw [h.eq_withModel]; rfl, h.2⟩

theorem setRes2 (a b : Nat) : SameButVariant (s.setRes2 a b) (t.setRes2 a b) := ⟨by rw [h.eq_withModel]; rfl, h.2⟩

theorem setRes3 (a b c : Nat) : SameButVariant (s.setRes3 a b c) (t.setRes3 a b c) :=
  ⟨by rw [h.eq_withModel]; rfl, h.2⟩

theorem sess_eq : t.sess = s.sess := by rw [h.eq_withModel]; rfl

theorem arg0_eq : t.arg0 = s.arg0 := by rw [h.eq_withModel]; rfl

end SameButVariant

theorem SameButVariant.refl (s : State) : SameButVariant s s := ⟨rfl, rfl⟩

/-- Two outcomes agree: next states that agree, or the same fault. -/
def SameOutcome (o p : Host.Outcome State Fault Refusal) : Prop :=
  match o, p with
  | .next s, .next t => SameButVariant s t
  | .fault f, .fault g => f = g
  | _, _ => False

/-- Two runs agree: they end alike in states that agree, or both wait for the same port. -/
def SameRun (r q : Run Unit) : Prop :=
  match r, q with
  | .done _ s, .done _ t => SameButVariant s t
  | .raised d s, .raised e t => d = e ∧ SameButVariant s t
  | .stuck f, .stuck g => f = g
  | _, _ => False

theorem SameRun.settle {r q : Run Unit} (h : SameRun r q) : SameOutcome r.settle q.settle := by
  cases r with
  | done a s => cases q with
    | done b t => exact SameButVariant.succeed h
    | raised => exact h.elim
    | stuck => exact h.elim
  | raised d s => cases q with
    | done => exact h.elim
    | raised e t =>
      obtain ⟨rfl, hsame⟩ := h
      exact hsame.raiseFatal d
    | stuck => exact h.elim
  | stuck f => cases q with
    | done => exact h.elim
    | raised => exact h.elim
    | stuck g => exact h

/-- A run composed with what follows it agrees with the run seen through another model composed with the same, when the
first part keeps the model and what follows agrees on states that do. -/
theorem SameModel.sameRun_bind {s t : State} (h : SameModel s t) {r : Run Unit} {k l : Unit → State → Run Unit}
    {P : State → Prop} (hwithin : r.Within P)
    (hkeep : ∀ u, P u → u.store = s.store ∧ u.variant = s.variant ∧ u.par = s.par)
    (hk : ∀ u, P u → SameModel u (u.withModel t.variant t.store) →
      SameRun (k () u) (l () (u.withModel t.variant t.store))) :
    SameRun (r.bind k) ((r.mapState (State.withModel t.variant t.store)).bind l) := by
  have hof : ∀ u, P u → SameModel u (u.withModel t.variant t.store) := by
    intro u hu
    obtain ⟨hstore, hvariant, hpar⟩ := hkeep u hu
    exact h.of_withModel hstore hvariant hpar
  cases hr : r with
  | done a u => exact hk u (hwithin.1 a u hr) (hof u (hwithin.1 a u hr))
  | raised d u => exact ⟨rfl, (hof u (hwithin.2 d u hr)).same⟩
  | stuck f => rfl

theorem EncoderOnly.keeps {s u : State} (h : EncoderOnly s u) :
    u.store = s.store ∧ u.variant = s.variant ∧ u.par = s.par := by
  obtain ⟨l, hl⟩ := h
  rw [hl]
  exact ⟨rfl, rfl, rfl⟩

theorem DecoderOnly.keeps {s u : State} (h : DecoderOnly s u) :
    u.store = s.store ∧ u.variant = s.variant ∧ u.par = s.par := by
  unfold DecoderOnly at h
  rw [h]
  exact ⟨rfl, rfl, rfl⟩

theorem narrow_withModel (v : Variant) (st : Store) (sl sh t : Nat) (s : State) :
    narrow sl sh t (s.withModel v st) = (narrow sl sh t s).withModel v st := rfl

/-- ENC_SYM's body runs alike on two models of the same F. -/
theorem SameModel.encSymBody {s t : State} (h : SameModel s t) :
    SameRun (Machine.encSymBody s) (Machine.encSymBody t) := by
  rw [Machine.encSymBody, Machine.encSymBody, operand0, operand0, h.par_eq, h.same.arg0_eq]
  split
  · exact ⟨rfl, h.same⟩
  · rename_i hlt
    have hsym : s.arg0.toNat < s.par.symbolCount.toNat := Nat.not_le.1 hlt
    simp only [h.freqOf_eq hsym, h.total_eq]
    rw [h.same.eq_withModel, narrow_withModel, encRenorm, encRenorm, encRenormLoop_withModel]
    refine h.sameRun_bind (encRenormLoop_within _ _) (fun u hu => EncoderOnly.keeps hu) fun u hu hsame => ?_
    exact (hsame.updateModel (hu.keeps.2.2 ▸ hsym)).setRes3 _ _ _

/-- ENC_FINISH's body never reads the model. -/
theorem encFinishBody_withModel (v : Variant) (st : Store) (s : State) :
    encFinishBody (s.withModel v st) = (encFinishBody s).mapState (State.withModel v st) := by
  rw [encFinishBody, encFinishBody, incPending_withModel]
  refine Run.bind_mapState fun _ u => ?_
  refine (congrArg (Run.bind · _) (emitFollow_withModel v st _ u)).trans (Run.bind_mapState fun _ w => ?_)
  rw [flushSink_withModel]
  exact Run.bind_mapState fun _ _ => rfl

theorem EncFinishOnly.keeps {s u : State} (h : EncFinishOnly s u) :
    u.store = s.store ∧ u.variant = s.variant ∧ u.par = s.par := by
  obtain ⟨l, hl⟩ := h
  rw [hl]
  exact ⟨rfl, rfl, rfl⟩

theorem SameModel.encFinishBody {s t : State} (h : SameModel s t) :
    SameRun (Machine.encFinishBody s) (Machine.encFinishBody t) := by
  rw [h.same.eq_withModel, encFinishBody_withModel]
  have hwithin := encFinishBody_within s
  have hof : ∀ u, EncFinishOnly s u → SameButVariant u (u.withModel t.variant t.store) := by
    intro u hu
    obtain ⟨hstore, hvariant, hpar⟩ := hu.keeps
    exact (h.of_withModel hstore hvariant hpar).same
  cases hr : Machine.encFinishBody s with
  | done a u => exact hof u (hwithin.1 a u hr)
  | raised d u => exact ⟨rfl, hof u (hwithin.2 d u hr)⟩
  | stuck f => rfl

theorem SameModel.decSymEnd {s t : State} (h : SameModel s t) {sym : Nat} (hsym : sym < s.par.symbolCount.toNat)
    (sl sh : Nat) : SameButVariant (Machine.decSymEnd sym sl sh s) (Machine.decSymEnd sym sl sh t) := by
  have hend := (h.updateModel hsym).setRes3 sym sl sh
  rw [Machine.decSymEnd, Machine.decSymEnd, h.par_eq]
  split
  · exact ⟨by rw [hend.eq_withModel]; rfl, hend.2⟩
  · exact hend

theorem SameModel.decSymPrimed {s t : State} (h : SameModel s t) :
    SameRun (Machine.decSymPrimed s) (Machine.decSymPrimed t) := by
  have hvalue : decodedValue s.store.total t = decodedValue s.store.total s := by
    rw [h.same.eq_withModel]
    rfl
  rw [Machine.decSymPrimed, Machine.decSymPrimed]
  simp only [h.total_eq, hvalue]
  split
  · exact ⟨rfl, h.same⟩
  · rename_i hlt
    obtain ⟨hfind, hsym⟩ := h.symOf_eq (Nat.not_le.1 hlt)
    simp only [hfind]
    rw [h.same.eq_withModel, narrow_withModel, decRenorm, decRenorm, decRenormLoop_withModel]
    refine h.sameRun_bind (decRenormLoop_within _ _) (fun u hu => DecoderOnly.keeps hu) fun u hu hsame => ?_
    exact hsame.decSymEnd (hu.keeps.2.2 ▸ hsym) _ _

/-- DEC_SYM's body runs alike on two models of the same F. -/
theorem SameModel.decSymBody {s t : State} (h : SameModel s t) :
    SameRun (Machine.decSymBody s) (Machine.decSymBody t) := by
  rw [Machine.decSymBody, Machine.decSymBody, h.same.eq_withModel, prime_withModel]
  exact h.sameRun_bind (prime_within s) (fun u hu => hu.keeps) fun u _ hsame => hsame.decSymPrimed

/-- A symbol command in its session or outside it. -/
theorem SameButVariant.symbolCommand {s t : State} (h : SameButVariant s t) (kind : Sess) {r q : Run Unit}
    (hrun : s.sess = kind → SameRun r q) :
    SameOutcome (if s.sess = kind then r.settle else .next (s.raise .badState))
      (if t.sess = kind then q.settle else .next (t.raise .badState)) := by
  rw [h.sess_eq]
  split
  · rename_i hs
    exact (hrun hs).settle
  · exact h.raise _

/-- Two answers of a model command's body agree: next states that agree, or the same cause. -/
def SameAnswer (x y : Except Detail State) : Prop :=
  match x, y with
  | .ok s, .ok t => SameButVariant s t
  | .error d, .error e => d = e
  | _, _ => False

/-- A model command runs alike when its body does. -/
theorem SameButVariant.modelCommand {s t : State} (h : SameButVariant s t) {body : State → Except Detail State}
    (hbody : s.sess.hasModel = true → SameAnswer (body s) (body t)) :
    SameOutcome (Machine.modelCommand body s) (Machine.modelCommand body t) := by
  cases hm : s.sess.hasModel with
  | false =>
    rw [modelCommand_of_no_model body hm, modelCommand_of_no_model body (h.sess_eq ▸ hm)]
    exact h.raise _
  | true =>
    have hsame := hbody hm
    have hmt : t.sess.hasModel = true := h.sess_eq ▸ hm
    cases hs : body s with
    | error d => cases ht : body t with
      | error e =>
        rw [hs, ht] at hsame
        obtain rfl : d = e := hsame
        rw [modelCommand_of_error hm hs, modelCommand_of_error hmt ht]
        exact h.raise d
      | ok u => rw [hs, ht] at hsame; exact hsame.elim
    | ok u => cases ht : body t with
      | error e => rw [hs, ht] at hsame; exact hsame.elim
      | ok w =>
        rw [hs, ht] at hsame
        rw [modelCommand_of_ok hm hs, modelCommand_of_ok hmt ht]
        exact SameButVariant.succeed hsame

/-- CFG ends any session, so it leaves no difference; rejected, it changes only the report. -/
theorem SameButVariant.execCfg {s t : State} (h : SameButVariant s t) :
    SameOutcome (Machine.execCfg s) (Machine.execCfg t) := by
  rw [h.eq_withModel, Machine.execCfg, Machine.execCfg]
  change SameOutcome _ (if validWidths (operand0 s) (operand1 s) (operand2 s) = true then _ else _)
  split
  · exact SameButVariant.refl _
  · exact h.eq_withModel ▸ h.raise .badParams

/-- The INIT commands start with a fresh model, so they leave no difference. -/
theorem SameButVariant.initSession {s t : State} (h : SameButVariant s t) (kind : Sess) :
    SameOutcome (Machine.initSession kind s) (Machine.initSession kind t) := by
  rw [Machine.initSession, Machine.initSession, h.sess_eq, operand0, operand0, h.arg0_eq]
  split
  · exact h.raise _
  · split
    · rw [h.eq_withModel]
      exact SameButVariant.refl _
    · exact h.raise _

/-- Settles O29: command by command, CFG and the INIT commands replace the model; the model commands and the symbol
commands use it only through TOTAL, FreqOf, SymOf and Update, which depend on F alone. -/
theorem variantsAreEquivalent : Obligations.VariantsAreEquivalent := by
  unfold Obligations.VariantsAreEquivalent
  intro i s t hs ht h
  have hmodel : s.sess.hasModel = true → SameModel s t := fun hm =>
    ⟨h, hs.modelOk hm, ht.modelOk (h.sess_eq ▸ hm)⟩
  suffices hsame : SameOutcome (exec i s) (exec i t) from hsame
  cases i <;> rw [exec, exec]
  case cfg => exact h.execCfg
  case initEnc => exact h.initSession .enc
  case initDec => exact h.initSession .dec
  case encSym => exact h.symbolCommand .enc fun hk => (hmodel (by rw [hk]; rfl)).encSymBody
  case encFinish => exact h.symbolCommand .enc fun hk => (hmodel (by rw [hk]; rfl)).encFinishBody
  case decSym => exact h.symbolCommand .dec fun hk => (hmodel (by rw [hk]; rfl)).decSymBody
  case mParams =>
    refine h.modelCommand fun hm => ?_
    rw [(hmodel hm).par_eq]
    exact h.setRes3 _ _ _
  case mTotal =>
    refine h.modelCommand fun hm => ?_
    rw [(hmodel hm).total_eq]
    exact h.setRes1 _
  case mFreq =>
    refine h.modelCommand fun hm => ?_
    rw [operand0, operand0, (hmodel hm).par_eq, h.arg0_eq]
    split
    · rfl
    · rename_i hlt
      have hsym := Nat.not_le.1 hlt
      rw [(hmodel hm).freqOf_eq hsym]
      exact ((hmodel hm).updateModel hsym).setRes2 _ _
  case mSym =>
    refine h.modelCommand fun hm => ?_
    rw [operand0, operand0, (hmodel hm).total_eq, h.arg0_eq]
    split
    · rfl
    · rename_i hlt
      obtain ⟨hfind, hsym⟩ := (hmodel hm).symOf_eq (Nat.not_le.1 hlt)
      rw [hfind]
      exact ((hmodel hm).updateModel hsym).setRes3 _ _ _
  case mTable =>
    refine h.modelCommand fun hm => ?_
    rw [operand0, operand0, (hmodel hm).par_eq, h.arg0_eq]
    split
    · rfl
    · rename_i hlt
      rw [(hmodel hm).freqOf_eq (Nat.not_le.1 hlt)]
      exact h.setRes2 _ _

end Sys2Proof.Machine

/-! The shared datapath (42_codec.md R162 to R168, R178): narrowing keeps the code range, scaling ends, and each scaling
step is one bit. -/

namespace Sys2Proof.Machine

/-! A running session. -/

/-- What the invariants promise of a session that has a model and a code range (10_state.md R38, R39). -/
structure LiveSession (s : State) : Prop where
  configured : Configured s
  model : ModelOk s
  range : RangeOk s

theorem Inv.liveSession {s : State} (h : Inv s) (hs : s.sess = .enc ∨ s.sess = .dec) : LiveSession s := by
  obtain ⟨-, ⟨-, hconf⟩, -, hmodel, hrange, -⟩ := h
  refine ⟨hconf ?_, hmodel ?_, hrange ?_⟩
  · rcases hs with hs | hs <;> simp [hs]
  · rcases hs with hs | hs <;> rw [hs] <;> rfl
  · exact hs.imp_right .inl

/-- Where no band applies the range is wider than a quarter (42_codec.md R168). -/
theorem range_of_bandOf_none {p : Params} (hq : Quarters p) {lo hi : Nat} (h : bandOf p lo hi = .none) :
    lo ≤ hi ∧ p.codeOneFourth.toNat + 2 ≤ hi - lo + 1 := by
  obtain ⟨hhalf, hthree, -, -⟩ := hq
  rcases bandOf_cases p lo hi with ⟨e, -⟩ | ⟨e, -⟩ | ⟨e, -⟩ | ⟨-, hb⟩
  case inr.inr.inr => omega
  all_goals exact absurd (h.symm.trans e) (by decide)

/-! Narrowing, 42_codec.md R162, R163. -/

/-- A range at least as wide as the total is cut at distinct points for distinct cumulative frequencies. -/
theorem narrowed_bounds {r t sl sh : Nat} (ht : 0 < t) (hr : t ≤ r) (hlt : sl < sh) (hle : sh ≤ t) :
    r * sl / t + 1 ≤ r * sh / t ∧ r * sh / t ≤ r := by
  constructor
  · calc r * sl / t + 1 = (r * sl + t) / t := (Nat.add_div_right _ ht).symm
      _ ≤ (r * sl + r) / t := Nat.div_le_div_right (Nat.add_le_add_left hr _)
      _ = r * (sl + 1) / t := by rw [Nat.mul_add, Nat.mul_one]
      _ ≤ r * sh / t := Nat.div_le_div_right (Nat.mul_le_mul_left r hlt)
  · calc r * sh / t ≤ r * t / t := Nat.div_le_div_right (Nat.mul_le_mul_left r hle)
      _ = r := Nat.mul_div_cancel r ht

/-- In a running session the total is positive and below a quarter, and so at most the range. -/
theorem LiveSession.total_le_range {s : State} (h : LiveSession s) :
    0 < s.store.freqs.sum ∧ s.store.freqs.sum ≤ s.high.toNat - s.low.toNat + 1 := by
  obtain ⟨hcount, hmax⟩ := h.model.sum_bounds
  have hquarter := h.configured.freqMax_lt
  have hwide := (range_of_bandOf_none h.configured.quarters h.range.2.2).2
  have hsymbols := h.configured.symbolCount_eq
  omega

/-- The range of a symbol of the model within the total. -/
theorem LiveSession.symbol_range {s : State} (h : LiveSession s) {sym : Nat} (hsym : sym < s.par.symbolCount.toNat) :
    cum s.store.freqs sym < cum s.store.freqs (sym + 1) ∧ cum s.store.freqs (sym + 1) ≤ s.store.freqs.sum := by
  obtain ⟨-, hlen, hpos, -⟩ := h.model
  exact ⟨cum_lt_succ hpos (hlen ▸ hsym), cum_le_sum _ _⟩

/-- The narrowed bounds are in order and inside the old ones (42_codec.md R163). -/
theorem LiveSession.narrow_order {s : State} (h : LiveSession s) {sym : Nat} (hsym : sym < s.par.symbolCount.toNat) :
    s.low.toNat ≤ narrowLow s (cum s.store.freqs sym) s.store.freqs.sum
      ∧ narrowLow s (cum s.store.freqs sym) s.store.freqs.sum ≤ narrowHigh s (cum s.store.freqs (sym + 1)) s.store.freqs.sum
      ∧ narrowHigh s (cum s.store.freqs (sym + 1)) s.store.freqs.sum ≤ s.high.toNat := by
  obtain ⟨ht, hr⟩ := h.total_le_range
  obtain ⟨hlt, hle⟩ := h.symbol_range hsym
  obtain ⟨hcut, htop⟩ := narrowed_bounds ht hr hlt hle
  have hord := h.range.1
  unfold narrowLow narrowHigh
  generalize (s.high.toNat - s.low.toNat + 1) * cum s.store.freqs sym / s.store.freqs.sum = a at hcut ⊢
  generalize (s.high.toNat - s.low.toNat + 1) * cum s.store.freqs (sym + 1) / s.store.freqs.sum = b at hcut htop ⊢
  omega

/-- The registers hold the narrowed bounds exactly: both are at most HIGH. -/
theorem LiveSession.narrow_exact {s : State} (h : LiveSession s) {sym : Nat} (hsym : sym < s.par.symbolCount.toNat) :
    (word (narrowLow s (cum s.store.freqs sym) s.store.freqs.sum)).toNat
        = narrowLow s (cum s.store.freqs sym) s.store.freqs.sum
      ∧ (word (narrowHigh s (cum s.store.freqs (sym + 1)) s.store.freqs.sum)).toNat
        = narrowHigh s (cum s.store.freqs (sym + 1)) s.store.freqs.sum := by
  obtain ⟨-, hord, htop⟩ := h.narrow_order hsym
  have hhi := s.high.isLt
  exact ⟨toNat_word (by omega), toNat_word (by omega)⟩

/-- Settles O30: the range is at least a quarter and the total below one, so distinct cumulative frequencies cut it at
distinct points. -/
theorem narrowingNeverEmptiesTheRange : Obligations.NarrowingNeverEmptiesTheRange := by
  unfold Obligations.NarrowingNeverEmptiesTheRange
  intro s sym hinv hs hsym
  have h := hinv.liveSession hs
  obtain ⟨hlo, hord, hhi⟩ := h.narrow_order hsym
  exact ⟨hlo, hord, hhi, h.narrow_exact hsym⟩

/-! Scaling ends, 42_codec.md R168. -/

/-- Each step doubles the range, and at the whole code range no band applies: so k steps are enough when the range
doubled k times reaches the whole. -/
theorem exists_scalesTo {p : Params} (hq : Quarters p) (k : Nat) :
    ∀ lo hi : Nat, lo ≤ hi → hi ≤ p.codeMax.toNat → p.codeMax.toNat + 1 ≤ (hi + 1 - lo) * 2 ^ k →
      ∃ steps lo' hi', ScalesTo p lo hi steps lo' hi' ∧ steps.length ≤ k ∧ lo' ≤ hi' ∧ hi' ≤ p.codeMax.toNat := by
  induction k with
  | zero =>
    intro lo hi hle hmax hwide
    refine ⟨[], lo, hi, .stop ?_, Nat.le_refl 0, hle, hmax⟩
    obtain ⟨hhalf, hthree, hfull, -⟩ := hq
    rcases bandOf_cases p lo hi with ⟨-, hb⟩ | ⟨-, hb⟩ | ⟨-, hb⟩ | ⟨e, -⟩
    case inr.inr.inr => exact e
    all_goals omega
  | succ k ih =>
    intro lo hi hle hmax hwide
    by_cases hb : bandOf p lo hi = .none
    · exact ⟨[], lo, hi, .stop hb, Nat.zero_le _, hle, hmax⟩
    · obtain ⟨hord, htop, hdouble⟩ := scaled_bounds hq hle hmax hb
      have hwide' := hwide
      rw [pow_succ', ← Nat.mul_assoc, Nat.mul_comm _ 2, ← hdouble] at hwide'
      obtain ⟨steps, lo', hi', hs, hlen, hrest⟩ := ih _ _ hord htop hwide'
      exact ⟨_, lo', hi', .step rfl hb hs, Nat.succ_le_succ hlen, hrest⟩

/-- Settles O31: the range starts at 1 at least, and CODE_BITS doublings reach the whole code range. -/
theorem scalingEndsWithinCodeBits : Obligations.ScalingEndsWithinCodeBits := by
  unfold Obligations.ScalingEndsWithinCodeBits
  intro s lo hi hs hle hmax
  have hwide : s.par.codeMax.toNat + 1 ≤ (hi + 1 - lo) * 2 ^ s.par.codeBits.toNat := by
    rw [hs.codeMax_succ]
    exact Nat.le_mul_of_pos_left _ (by omega)
  obtain ⟨steps, lo', hi', hscale, hlen, hord, htop⟩ := exists_scalesTo hs.quarters _ lo hi hle hmax hwide
  exact ⟨steps, lo', hi', hscale, hlen, hord, htop, (range_of_bandOf_none hs.quarters hscale.band_none).2⟩

/-- Any scaling of configured bounds takes at most CODE_BITS steps and stays in order and within the code range. -/
theorem ScalesTo.bounded {s : State} (hs : Configured s) {lo hi lo' hi' : Nat} {steps : List Band}
    (h : ScalesTo s.par lo hi steps lo' hi') (hle : lo ≤ hi) (hmax : hi ≤ s.par.codeMax.toNat) :
    steps.length ≤ s.par.codeBits.toNat ∧ lo' ≤ hi' ∧ hi' ≤ s.par.codeMax.toNat := by
  obtain ⟨steps₂, lo₂, hi₂, hscale, hlen, hord, htop, -⟩ := scalingEndsWithinCodeBits s lo hi hs hle hmax
  obtain ⟨rfl, rfl, rfl⟩ := h.unique hscale
  exact ⟨hlen, hord, htop⟩

/-- Narrowing to a symbol's range and scaling, in a running session (42_codec.md R163, R168). -/
theorem LiveSession.exists_scalesTo {s : State} (h : LiveSession s) {sym : Nat} (hsym : sym < s.par.symbolCount.toNat) :
    ∃ steps lo hi, ScalesTo s.par (narrowLow s (cum s.store.freqs sym) s.store.freqs.sum)
      (narrowHigh s (cum s.store.freqs (sym + 1)) s.store.freqs.sum) steps lo hi := by
  obtain ⟨-, hord, htop⟩ := h.narrow_order hsym
  obtain ⟨steps, lo, hi, hscale, -⟩ := scalingEndsWithinCodeBits s _ _ h.configured hord (htop.trans h.range.2.1)
  exact ⟨steps, lo, hi, hscale⟩

/-- The scaling steps of a narrowed range: few enough for the loop, and ending at bounds that registers hold. -/
theorem LiveSession.scalesTo_bounded {s : State} (h : LiveSession s) {sym : Nat} (hsym : sym < s.par.symbolCount.toNat)
    {steps : List Band} {lo hi : Nat}
    (hscale : ScalesTo s.par (narrowLow s (cum s.store.freqs sym) s.store.freqs.sum)
      (narrowHigh s (cum s.store.freqs (sym + 1)) s.store.freqs.sum) steps lo hi) :
    steps.length ≤ s.par.codeBits.toNat ∧ lo ≤ hi ∧ hi ≤ s.par.codeMax.toNat
      ∧ (word lo).toNat = lo ∧ (word hi).toNat = hi := by
  obtain ⟨-, hord, htop⟩ := h.narrow_order hsym
  obtain ⟨hlen, hle, hmax⟩ := hscale.bounded h.configured hord (htop.trans h.range.2.1)
  have hlt := s.par.codeMax.isLt
  exact ⟨hlen, hle, hmax, toNat_word (by omega), toNat_word (by omega)⟩

/-- The bounds after the scaling steps meet the range invariant (10_state.md R38). -/
theorem LiveSession.rangeOk_of_scalesTo {s t : State} (h : LiveSession s) {sym : Nat}
    (hsym : sym < s.par.symbolCount.toNat) {steps : List Band} {lo hi : Nat}
    (hscale : ScalesTo s.par (narrowLow s (cum s.store.freqs sym) s.store.freqs.sum)
      (narrowHigh s (cum s.store.freqs (sym + 1)) s.store.freqs.sum) steps lo hi)
    (hpar : t.par = s.par) (hlow : t.low = word lo) (hhigh : t.high = word hi) : RangeOk t := by
  obtain ⟨-, hle, hmax, hlo, hhi⟩ := h.scalesTo_bounded hsym hscale
  unfold RangeOk
  rw [band_eq_bandOf, hpar, hlow, hhigh, hlo, hhi]
  exact ⟨hle, hmax, hscale.band_none⟩

/-- A store with the counted frequencies meets the model invariant (41_model.md R126). -/
theorem ModelOk.of_update {s t : State} (h : ModelOk s) (hcfg : Configured s) {sym : Nat}
    (hsym : sym < s.par.symbolCount.toNat) (hpar : t.par = s.par) (hvariant : t.variant = s.variant)
    (hstore : t.store = Store.ofFreqs s.variant (updateFreqs s.par.freqMax.toNat sym s.store.freqs)) : ModelOk t := by
  obtain ⟨hlen, hpos, hsum⟩ := h.updateFreqs_laws hcfg hsym
  have hfreqs : t.store.freqs = updateFreqs s.par.freqMax.toNat sym s.store.freqs := by
    rw [hstore, Store.freqs_ofFreqs _ (hlen ▸ s.par.symbolCount.isLt)]
  unfold ModelOk
  rw [hpar, hvariant, hfreqs]
  exact ⟨hstore, hlen, hpos, hsum⟩

/-! One bit per step, 42_codec.md R178. -/

/-- Settles O32: E1 and E2 emit one bit and the pending ones, E3 leaves one more pending. -/
theorem oneBitPerScalingStep : Obligations.OneBitPerScalingStep := by
  unfold Obligations.OneBitPerScalingStep
  intro p lo hi lo' hi' pend steps h
  induction h generalizing pend with
  | stop _ => simp [scaleBits]
  | @step _ _ _ _ b bs _ hn _ ih =>
    cases b with
    | e1 =>
      have := ih 0
      simp only [scaleBits, List.length_append, List.length_cons, List.length_replicate]
      omega
    | e2 =>
      have := ih 0
      simp only [scaleBits, List.length_append, List.length_cons, List.length_replicate]
      omega
    | e3 =>
      have := ih (pend + 1)
      simp only [scaleBits, List.length_cons]
      omega
    | none => exact absurd rfl hn

end Sys2Proof.Machine

/-! The encoder (42_codec.md R165 to R171): ENC_SYM and ENC_FINISH as the events they offer the sink, one after the other,
and what follows when the sink has accepted them all. -/

namespace Sys2Proof.Machine

/-! Runs of sink events by how they end. -/

/-- What follows a run needs to agree only on the states the run may end in. -/
theorem Run.bind_congr_within {α β : Type} {r : Run α} {P : State → Prop} (hr : r.Within P)
    {k l : α → State → Run β} (h : ∀ a t, P t → k a t = l a t) : r.bind k = r.bind l := by
  cases r with
  | done a t => exact h a t (hr.1 a t rfl)
  | raised d t => rfl
  | stuck f => rfl

/-- A session-fatal error overwrites what a change of LOW, HIGH and PENDING has changed (60_exceptions.md R205), so the
command's outcome sees the change only where the run goes on. -/
theorem Run.settle_bind_mapState {f : State → State} (hf : ∀ d u, (f u).raiseFatal d = u.raiseFatal d) (r : Run Unit)
    (k : Unit → State → Run Unit) : ((r.mapState f).bind k).settle = (r.bind fun a t => k a (f t)).settle := by
  cases r with
  | done a t => rfl
  | raised d t => exact congrArg Host.Outcome.next (hf d t)
  | stuck e => rfl

/-- Composed runs settle alike when what follows settles alike on the states the first part may finish in. -/
theorem Run.settle_bind_congr {r : Run Unit} {P : State → Prop} (hr : r.Within P) {k l : Unit → State → Run Unit}
    (h : ∀ t, P t → (k () t).settle = (l () t).settle) : (r.bind k).settle = (r.bind l).settle := by
  cases r with
  | done a t => exact h t (hr.1 a t rfl)
  | raised d t => rfl
  | stuck e => rfl

/-- Sink events that finish were all accepted, in order. -/
theorem sinkEvents_done {es : List SinkEvent} {s t : State} (h : sinkEvents es s = .done () t) :
    t = { s with sink := s.sink.dropAnswers es.length, sinkLog := s.sinkLog ++ es } := by
  induction es generalizing s with
  | nil =>
    cases h
    simp
  | cons e es ih =>
    obtain ⟨_, u, hu, hrest⟩ := Run.bind_eq_done.1 h
    obtain ⟨-, he⟩ | ⟨-, he⟩ | ⟨-, he⟩ := sinkEvent_cases e s <;> rw [he] at hu <;> cases hu
    rw [ih hrest]
    simp [SinkPort.dropAnswers_add, Nat.add_comm]

/-- Sink events wait only for a sink that has stopped answering (70_reset_and_hazards.md R239). -/
theorem sinkEvents_stuck {es : List SinkEvent} {s : State} {f : Fault} (h : sinkEvents es s = .stuck f) :
    f = .sinkNeverAnswers ∧ s.sink.after = none := by
  induction es generalizing s with
  | nil => cases h
  | cons e es ih =>
    obtain ⟨-, he⟩ | ⟨-, he⟩ | ⟨ha, he⟩ := sinkEvent_cases e s <;> rw [sinkEvents, he] at h
    · rw [Run.bind_done] at h
      obtain ⟨hf, hafter⟩ := ih h
      exact ⟨hf, hafter⟩
    · cases h
    · cases h
      refine ⟨rfl, ?_⟩
      unfold SinkPort.answer at ha
      split at ha
      · cases ha
      · exact ha

/-- What a run raises is an error: DETAIL is never NONE (60_exceptions.md R201). -/
def Run.RaisesError {α : Type} (r : Run α) : Prop := ∀ d t, r = .raised d t → d ≠ .none

/-- A composed run raises what its parts raise. -/
theorem Run.raisesError_bind {α β : Type} {r : Run α} {k : α → State → Run β} (hr : r.RaisesError)
    (hk : ∀ a t, (k a t).RaisesError) : (r.bind k).RaisesError := by
  intro d u h
  rcases Run.bind_eq_raised.1 h with h | ⟨a, t, -, h⟩
  · exact hr d u h
  · exact hk a t d u h

@[simp] theorem Run.raisesError_done {α : Type} {a : α} {s : State} : (Run.done a s).RaisesError := by
  intro d t h
  cases h

@[simp] theorem Run.raisesError_stuck {α : Type} {f : Fault} : (Run.stuck f : Run α).RaisesError := by
  intro d t h
  cases h

@[simp] theorem Run.raisesError_raised {α : Type} {d : Detail} {s : State} :
    (Run.raised d s : Run α).RaisesError ↔ d ≠ .none := by
  constructor
  · exact fun h => h d s rfl
  · intro h e t he
    cases he
    exact h

theorem sinkEvent_raisesError (e : SinkEvent) (s : State) : (sinkEvent e s).RaisesError := by
  obtain ⟨-, h⟩ | ⟨-, h⟩ | ⟨-, h⟩ := sinkEvent_cases e s <;> rw [h] <;> simp

theorem sinkEvents_raisesError (es : List SinkEvent) (s : State) : (sinkEvents es s).RaisesError := by
  induction es generalizing s with
  | nil => exact Run.raisesError_done
  | cons e es ih => exact Run.raisesError_bind (sinkEvent_raisesError e s) fun _ t => ih t

/-- A sink that accepts every event accepts the next k. -/
theorem SinkPort.acceptsNext_of_all {p : SinkPort} (hqueue : ∀ a ∈ p.queue, a = .ok) (hafter : p.after = some .ok)
    (k : Nat) : p.acceptsNext k = true := by
  induction k generalizing p with
  | zero => rfl
  | succ k ih =>
    rw [SinkPort.acceptsNext_succ]
    refine ⟨?_, ih (fun a ha => hqueue a (List.mem_of_mem_drop ha)) hafter⟩
    unfold SinkPort.answer
    split
    next a q hq => exact congrArg some (hqueue a (hq ▸ List.mem_cons_self ..))
    next => exact hafter

/-! PENDING along the scaling steps (42_codec.md R167). -/

/-- Either PENDING stays within its width along the steps, or there is a first E3 step that meets it at its limit. -/
theorem pendingFits_or_overflow (steps : List Band) :
    ∀ pend : Nat, pend ≤ pendingMax → pendingFits pend steps = true
      ∨ ∃ before later, steps = before ++ .e3 :: later ∧ pendingFits pend before = true
        ∧ (scaleBits pend before).2 = pendingMax := by
  induction steps with
  | nil => exact fun pend _ => .inl rfl
  | cons b bs ih =>
    intro pend hpend
    by_cases hb : pendingFits pend [b] = true
    · rcases ih _ (scaleBits_le_pendingMax hpend hb) with h | ⟨before, later, rfl, hfits, hfull⟩
      · exact .inl (by rw [pendingFits_cons, hb, h]; rfl)
      · refine .inr ⟨b :: before, later, rfl, ?_, ?_⟩
        · rw [pendingFits_cons, hb, hfits]
          rfl
        · rw [scaleBits_cons]
          exact hfull
    · cases b with
      | e3 =>
        have hfull : ¬pend < pendingMax := by simpa [pendingFits] using hb
        exact .inr ⟨[], bs, rfl, rfl, Nat.le_antisymm hpend (Nat.not_lt.1 hfull)⟩
      | e1 => exact absurd rfl hb
      | e2 => exact absurd rfl hb
      | none => exact absurd rfl hb

/-- PENDING stays within its width along fewer steps than it has room for. -/
theorem pendingFits_of_room (steps : List Band) :
    ∀ pend : Nat, pend + steps.length ≤ pendingMax → pendingFits pend steps = true := by
  induction steps with
  | nil => exact fun _ _ => rfl
  | cons b bs ih =>
    intro pend h
    rw [List.length_cons] at h
    have hzero : pendingFits 0 bs = true := ih 0 (by omega)
    cases b with
    | e1 => exact hzero
    | e2 => exact hzero
    | e3 =>
      have hnext : pendingFits (pend + 1) bs = true := ih (pend + 1) (by omega)
      rw [pendingFits, hnext, Bool.and_true, decide_eq_true_eq]
      omega
    | none => exact ih pend (by omega)

/-! EncRenorm as sink events. -/

/-- The state with other bounds and PENDING, narrowed to their registers. -/
def State.withBounds (lo hi pend : Nat) (s : State) : State :=
  { s with low := word lo, high := word hi, pending := word pend }

theorem sinkBlind_withBounds (lo hi pend : Nat) : SinkBlind (State.withBounds lo hi pend) :=
  fun _ _ _ => ⟨rfl, rfl, rfl⟩

theorem withBounds_raiseFatal (lo hi pend : Nat) (d : Detail) (s : State) :
    (s.withBounds lo hi pend).raiseFatal d = s.raiseFatal d := rfl

theorem SinkOnly.par_eq {s t : State} (h : SinkOnly s t) : t.par = s.par := by
  obtain ⟨l, hl⟩ := h
  rw [hl]

/-- One scaling step of the encoder is the sink events of its bits, and then the new bounds and PENDING
(42_codec.md R165 to R167). -/
theorem encStep_eq {b : Band} (hb : b ≠ .none) {lo hi pend : Nat} {s : State} (hlo : (word lo).toNat = lo)
    (hhi : (word hi).toNat = hi) (hpend : (word pend).toNat = pend) (hfits : pendingFits pend [b] = true) :
    encStep b (s.withBounds lo hi pend) =
      (sinkEvents ((scaleBits pend [b]).1.map SinkEvent.bit) (s.withBounds lo hi pend)).bind fun _ t =>
        .done () (t.withBounds (2 * (lo - bandOffset s.par b)) (2 * (hi - bandOffset s.par b) + 1)
          (scaleBits pend [b]).2) := by
  have hscale : ∀ (x : Band) (t : State), SinkOnly (s.withBounds lo hi pend) t →
      scale (bandOffset t.par x) { t with pending := 0 } =
        t.withBounds (2 * (lo - bandOffset s.par x)) (2 * (hi - bandOffset s.par x) + 1) 0 := by
    rintro x t ⟨l, ht⟩
    rw [ht]
    simp only [scale, State.withBounds, hlo, hhi]
    rfl
  have hfollow : ∀ (x : Bool) (c : Band),
      ((emitFollow x (s.withBounds lo hi pend)).bind fun _ t => .done () (scale (bandOffset t.par c) t)) =
        (sinkEvents ((x :: List.replicate pend (!x)).map SinkEvent.bit) (s.withBounds lo hi pend)).bind fun _ t =>
          .done () (t.withBounds (2 * (lo - bandOffset s.par c)) (2 * (hi - bandOffset s.par c) + 1) 0) := by
    intro x c
    rw [emitFollow_eq, show (s.withBounds lo hi pend).pending.toNat = pend from hpend, Run.bind_assoc]
    refine Run.bind_congr_within (sinkEvents_within _ _) fun _ t ht => ?_
    exact congrArg (Run.done ()) (hscale c t ht)
  cases b with
  | e1 =>
    simp only [scaleBits, List.append_nil]
    exact hfollow false .e1
  | e2 =>
    simp only [scaleBits, List.append_nil]
    exact hfollow true .e2
  | e3 =>
    have hroom : (s.withBounds lo hi pend).pending.toNat ≠ pendingMax := by
      have : pend < pendingMax := by simpa [pendingFits] using hfits
      rw [show (s.withBounds lo hi pend).pending.toNat = pend from hpend]
      omega
    rw [encStep, incPending, if_neg hroom]
    simp only [scaleBits, List.map_nil, sinkEvents, Run.bind_done, scale, State.withBounds, hlo, hhi, hpend, highFill]
  | none => exact absurd rfl hb

/-- EncRenorm followed along the first of its scaling steps: the command's outcome is that of the sink events of their
bits, and then of EncRenorm from the bounds they lead to (42_codec.md R167). -/
theorem settle_encRenormLoop_append {p : Params} (hq : Quarters p) {rest : List Band} {lo' hi' : Nat}
    (before : List Band) :
    ∀ lo hi pend : Nat, lo ≤ hi → hi ≤ p.codeMax.toNat → pend ≤ pendingMax →
      ScalesTo p lo hi (before ++ rest) lo' hi' → pendingFits pend before = true →
      ∃ lo₁ hi₁, hi₁ ≤ p.codeMax.toNat ∧ lo₁ ≤ hi₁ ∧ ScalesTo p lo₁ hi₁ rest lo' hi'
        ∧ ∀ (k : Nat) (s : State) (next : Unit → State → Run Unit), s.par = p →
          ((encRenormLoop (before.length + k) (s.withBounds lo hi pend)).bind next).settle =
            ((sinkEvents ((scaleBits pend before).1.map SinkEvent.bit) s).bind fun _ t =>
              (encRenormLoop k (t.withBounds lo₁ hi₁ (scaleBits pend before).2)).bind next).settle := by
  have hmaxlt := p.codeMax.isLt
  induction before with
  | nil =>
    intro lo hi pend hle hmax _ hscale _
    refine ⟨lo, hi, hmax, hle, hscale, fun k s next _ => ?_⟩
    rw [List.length_nil, Nat.zero_add]
    rfl
  | cons b bs ih =>
    intro lo hi pend hle hmax hpend hscale hfits
    cases hscale with
    | step hb hn hrest =>
      rw [pendingFits_cons, Bool.and_eq_true] at hfits
      have hbounds := scaled_bounds hq hle hmax (by rw [hb]; exact hn)
      rw [hb] at hbounds
      have hlo : (word lo).toNat = lo := toNat_word (by omega)
      have hhi : (word hi).toNat = hi := toNat_word (by omega)
      have hpw : (word pend).toNat = pend := toNat_word (by unfold pendingMax at hpend; omega)
      obtain ⟨lo₁, hi₁, hmax₁, hle₁, hscale₁, hloop⟩ := ih _ _ _ hbounds.1 hbounds.2.1
        (scaleBits_le_pendingMax hpend hfits.1) hrest hfits.2
      refine ⟨lo₁, hi₁, hmax₁, hle₁, hscale₁, fun k s next hs => ?_⟩
      have hband : band (s.withBounds lo hi pend) = b := by
        rw [band_eq_bandOf, ← hb, ← hs]
        exact congrArg₂ (bandOf s.par) hlo hhi
      subst hs
      rw [List.length_cons, Nat.add_right_comm, encRenormLoop, hband, if_neg hn,
        encStep_eq hn hlo hhi hpw hfits.1, Run.bind_assoc, Run.bind_assoc,
        sinkEvents_mapState (sinkBlind_withBounds lo hi pend),
        Run.settle_bind_mapState (withBounds_raiseFatal lo hi pend), scaleBits_cons pend b bs, List.map_append, sinkEvents_append,
        Run.bind_assoc]
      refine Run.settle_bind_congr (sinkEvents_within _ s) fun t ht => ?_
      exact hloop k t next ht.par_eq

/-! ENC_SYM. -/

/-- The end of ENC_SYM: Update and the results (42_codec.md R170). -/
def encSymEnd (sym sl sh : Nat) (s : State) : State := (updateModel sym s).setRes3 sym sl sh

/-- ENC_SYM's body on a checked symbol, in a running session. -/
theorem LiveSession.encSymBody_eq {s : State} (h : LiveSession s) (hsym : s.arg0.toNat < s.par.symbolCount.toNat) :
    encSymBody s =
      (encRenorm (s.withBounds (narrowLow s (cum s.store.freqs s.arg0.toNat) s.store.freqs.sum)
        (narrowHigh s (cum s.store.freqs (s.arg0.toNat + 1)) s.store.freqs.sum) s.pending.toNat)).bind fun _ u =>
          .done () (encSymEnd s.arg0.toNat (cum s.store.freqs s.arg0.toNat) (cum s.store.freqs (s.arg0.toNat + 1)) u) := by
  simp only [encSymBody, operand0, if_neg (Nat.not_le.2 hsym), h.model.freqOf_eq hsym, h.model.total_eq_sum,
    State.withBounds, word_toNat_self]
  rfl

/-- ENC_SYM followed along the first of its scaling steps. -/
theorem LiveSession.exec_encSym_append {s : State} (h : LiveSession s) (hs : s.sess = .enc)
    (hsym : s.arg0.toNat < s.par.symbolCount.toNat) {before rest : List Band} {lo hi : Nat}
    (hscale : ScalesTo s.par (narrowLow s (cum s.store.freqs s.arg0.toNat) s.store.freqs.sum)
      (narrowHigh s (cum s.store.freqs (s.arg0.toNat + 1)) s.store.freqs.sum) (before ++ rest) lo hi)
    (hfits : pendingFits s.pending.toNat before = true) :
    ∃ lo₁ hi₁ k, hi₁ ≤ s.par.codeMax.toNat ∧ lo₁ ≤ hi₁ ∧ ScalesTo s.par lo₁ hi₁ rest lo hi
      ∧ exec .encSym s =
        ((sinkEvents ((scaleBits s.pending.toNat before).1.map SinkEvent.bit) s).bind fun _ t =>
          (encRenormLoop (k + 1) (t.withBounds lo₁ hi₁ (scaleBits s.pending.toNat before).2)).bind fun _ u =>
            .done () (encSymEnd s.arg0.toNat (cum s.store.freqs s.arg0.toNat)
              (cum s.store.freqs (s.arg0.toNat + 1)) u)).settle := by
  obtain ⟨-, hord, htop⟩ := h.narrow_order hsym
  have hlen := (h.scalesTo_bounded hsym hscale).1
  have hcb := h.configured.codeBits_bounds.2
  have hpend : s.pending.toNat ≤ pendingMax := Nat.le_pred_of_lt s.pending.isLt
  rw [List.length_append] at hlen
  obtain ⟨lo₁, hi₁, hmax₁, hle₁, hscale₁, hloop⟩ := settle_encRenormLoop_append h.configured.quarters before _ _ _ hord
    (htop.trans h.range.2.1) hpend hscale hfits
  obtain ⟨k, hk⟩ : ∃ k, renormFuel = before.length + (k + 1) := ⟨63 - before.length, by unfold renormFuel; omega⟩
  refine ⟨lo₁, hi₁, k, hmax₁, hle₁, hscale₁, ?_⟩
  rw [exec, execEncSym_of_enc hs, h.encSymBody_eq hsym, encRenorm, hk]
  exact hloop (k + 1) s _ rfl

/-- ENC_SYM when PENDING stays within its width: the sink events of its bits, and then its end. -/
theorem LiveSession.exec_encSym_eq {s : State} (h : LiveSession s) (hs : s.sess = .enc)
    (hsym : s.arg0.toNat < s.par.symbolCount.toNat) {steps : List Band} {lo hi : Nat}
    (hscale : ScalesTo s.par (narrowLow s (cum s.store.freqs s.arg0.toNat) s.store.freqs.sum)
      (narrowHigh s (cum s.store.freqs (s.arg0.toNat + 1)) s.store.freqs.sum) steps lo hi)
    (hfits : pendingFits s.pending.toNat steps = true) :
    exec .encSym s =
      ((sinkEvents ((scaleBits s.pending.toNat steps).1.map SinkEvent.bit) s).bind fun _ t =>
        .done () (encSymEnd s.arg0.toNat (cum s.store.freqs s.arg0.toNat) (cum s.store.freqs (s.arg0.toNat + 1))
          (t.withBounds lo hi (scaleBits s.pending.toNat steps).2))).settle := by
  rw [← List.append_nil steps] at hscale
  obtain ⟨lo₁, hi₁, k, hmax, hle, hrest, heq⟩ := h.exec_encSym_append hs hsym hscale hfits
  have hmaxlt := s.par.codeMax.isLt
  cases hrest with
  | stop hnone =>
    rw [heq]
    refine Run.settle_bind_congr (sinkEvents_within _ s) fun t ht => ?_
    have hband : band (t.withBounds lo hi (scaleBits s.pending.toNat steps).2) = .none := by
      rw [band_eq_bandOf, ← hnone, ← ht.par_eq]
      exact congrArg₂ (bandOf t.par) (toNat_word (by omega)) (toNat_word (by omega))
    rw [encRenormLoop, if_pos hband, Run.bind_done]

/-- ENC_SYM when an E3 step meets PENDING at its limit: the sink events before it, and then PENDING_OVERFLOW. -/
theorem LiveSession.exec_encSym_overflow {s : State} (h : LiveSession s) (hs : s.sess = .enc)
    (hsym : s.arg0.toNat < s.par.symbolCount.toNat) {before later : List Band} {lo hi : Nat}
    (hscale : ScalesTo s.par (narrowLow s (cum s.store.freqs s.arg0.toNat) s.store.freqs.sum)
      (narrowHigh s (cum s.store.freqs (s.arg0.toNat + 1)) s.store.freqs.sum) (before ++ .e3 :: later) lo hi)
    (hfits : pendingFits s.pending.toNat before = true) (hfull : (scaleBits s.pending.toNat before).2 = pendingMax) :
    exec .encSym s =
      ((sinkEvents ((scaleBits s.pending.toNat before).1.map SinkEvent.bit) s).bind fun _ t =>
        .raised .pendingOverflow t).settle := by
  obtain ⟨lo₁, hi₁, k, hmax, hle, hrest, heq⟩ := h.exec_encSym_append hs hsym hscale hfits
  have hmaxlt := s.par.codeMax.isLt
  cases hrest with
  | step hb hn _ =>
    rw [heq, hfull]
    refine Run.settle_bind_congr (sinkEvents_within _ s) fun t ht => ?_
    have hband : band (t.withBounds lo₁ hi₁ pendingMax) = .e3 := by
      rw [band_eq_bandOf, ← hb, ← ht.par_eq]
      exact congrArg₂ (bandOf t.par) (toNat_word (by omega)) (toNat_word (by omega))
    have hlimit : (t.withBounds lo₁ hi₁ pendingMax).pending.toNat = pendingMax := toNat_word (by decide)
    rw [encRenormLoop, hband, if_neg hn, encStep, incPending, if_pos hlimit]
    exact congrArg Host.Outcome.next (withBounds_raiseFatal _ _ _ _ t)

/-- The state ENC_SYM leads to along its scaling steps when the sink accepts its bits (42_codec.md R170). -/
def encSymNext (s : State) (steps : List Band) (lo hi : Nat) : State :=
  { s with
    low := word lo, high := word hi, pending := word (scaleBits s.pending.toNat steps).2
    store := Store.ofFreqs s.variant (updateFreqs s.par.freqMax.toNat s.arg0.toNat s.store.freqs)
    res0 := s.arg0, res1 := word (cum s.store.freqs s.arg0.toNat), res2 := word (cum s.store.freqs (s.arg0.toNat + 1))
    err := .ok, detail := .none
    sink := s.sink.dropAnswers (scaleBits s.pending.toNat steps).1.length
    sinkLog := s.sinkLog ++ (scaleBits s.pending.toNat steps).1.map SinkEvent.bit }

/-- ENC_SYM whose sink events finish leads to `encSymNext`. -/
theorem LiveSession.encSymEnd_eq {s t : State} (h : LiveSession s) (hsym : s.arg0.toNat < s.par.symbolCount.toNat)
    {steps : List Band} {lo hi : Nat}
    (ht : sinkEvents ((scaleBits s.pending.toNat steps).1.map SinkEvent.bit) s = .done () t) :
    (encSymEnd s.arg0.toNat (cum s.store.freqs s.arg0.toNat) (cum s.store.freqs (s.arg0.toNat + 1))
      (t.withBounds lo hi (scaleBits s.pending.toNat steps).2)).succeed = encSymNext s steps lo hi := by
  rw [sinkEvents_done ht, encSymNext, ← h.model.update_eq hsym, List.length_map]
  simp only [encSymEnd, updateModel, State.setRes3, State.succeed, State.withBounds, word_toNat_self]

/-- Settles O33: ENC_SYM is the sink events of its bits followed by its end, and this sink accepts the events. -/
theorem encSymResult : Obligations.EncSymResult := by
  unfold Obligations.EncSymResult
  intro s steps lo hi hinv hs hsym
  dsimp only
  intro hscale hfits hsink
  have h := hinv.liveSession (.inl hs)
  have hdone := sinkEvents_accepted ((scaleBits s.pending.toNat steps).1.map SinkEvent.bit) s (by simpa using hsink)
  rw [h.exec_encSym_eq hs hsym hscale hfits, hdone, Run.bind_done, Run.settle, h.encSymEnd_eq hsym hdone, encSymNext]

/-- Settles O34: in a running session the scaling steps exist and are at most 61, so PENDING has room for them and
ENC_SYM leads to `encSymNext`. -/
theorem encSymCompletes : Obligations.EncSymCompletes := by
  unfold Obligations.EncSymCompletes
  intro s hinv hs hsym hroom hqueue hafter
  have h := hinv.liveSession (.inl hs)
  obtain ⟨steps, lo, hi, hscale⟩ := h.exists_scalesTo hsym
  have hlen := (h.scalesTo_bounded hsym hscale).1
  have hcb := h.configured.codeBits_bounds.2
  have hfits : pendingFits s.pending.toNat steps = true := pendingFits_of_room steps _ (by unfold pendingMax; omega)
  have hexec := encSymResult s steps lo hi hinv hs hsym hscale hfits (SinkPort.acceptsNext_of_all hqueue hafter _)
  exact ⟨_, hexec, rfl, rfl, hs, rfl, rfl, rfl, rfl, h.rangeOk_of_scalesTo hsym hscale rfl rfl rfl⟩

/-- Settles O35: the cut of ENC_SYM is the cut of its sink events, and a session-fatal error keeps the rest. -/
theorem encSymStopsAtSink : Obligations.EncSymStopsAtSink := by
  unfold Obligations.EncSymStopsAtSink
  intro s steps lo hi m hinv hs hsym
  dsimp only
  intro hscale hfits hm hsink
  have h := hinv.liveSession (.inl hs)
  obtain ⟨hfail, hhang⟩ := sinkEvents_cut ((scaleBits s.pending.toNat steps).1.map SinkEvent.bit) m s (by simpa using hm)
    hsink
  rw [h.exec_encSym_eq hs hsym hscale hfits]
  constructor
  · intro hanswer
    rw [hfail hanswer, List.map_take]
    exact ⟨_, rfl, rfl, rfl, rfl, rfl, rfl, rfl, rfl, rfl, rfl⟩
  · intro hanswer
    rw [hhang hanswer]
    rfl

/-- Settles O36: the sink accepts the bits of the steps before, and then ENC_SYM raises PENDING_OVERFLOW. -/
theorem encSymPendingOverflow : Obligations.EncSymPendingOverflow := by
  unfold Obligations.EncSymPendingOverflow
  intro s before later lo hi hinv hs hsym
  dsimp only
  intro hscale hfits hfull hsink
  have h := hinv.liveSession (.inl hs)
  rw [h.exec_encSym_overflow hs hsym hscale hfits hfull, sinkEvents_accepted _ s (by simpa using hsink), Run.bind_done]
  exact ⟨_, rfl, rfl, rfl, rfl, rfl, rfl⟩

/-- Every way ENC_SYM of a checked symbol can end in a running session. -/
theorem LiveSession.encSym_cases {s : State} (h : LiveSession s) (hs : s.sess = .enc)
    (hsym : s.arg0.toNat < s.par.symbolCount.toNat) :
    (∃ steps lo hi, ScalesTo s.par (narrowLow s (cum s.store.freqs s.arg0.toNat) s.store.freqs.sum)
        (narrowHigh s (cum s.store.freqs (s.arg0.toNat + 1)) s.store.freqs.sum) steps lo hi
      ∧ pendingFits s.pending.toNat steps = true ∧ exec .encSym s = .next (encSymNext s steps lo hi))
    ∨ (∃ (d : Detail) (u : State), d ≠ .none ∧ exec .encSym s = .next (u.raiseFatal d))
    ∨ (s.sink.after = none ∧ exec .encSym s = .fault .sinkNeverAnswers) := by
  obtain ⟨steps, lo, hi, hscale⟩ := h.exists_scalesTo hsym
  rcases pendingFits_or_overflow steps s.pending.toNat (Nat.le_pred_of_lt s.pending.isLt) with
    hfits | ⟨before, later, rfl, hfits, hfull⟩
  · have heq := h.exec_encSym_eq hs hsym hscale hfits
    cases hr : sinkEvents ((scaleBits s.pending.toNat steps).1.map SinkEvent.bit) s with
    | done _ t =>
      rw [hr, Run.bind_done, Run.settle, h.encSymEnd_eq hsym hr] at heq
      exact .inl ⟨steps, lo, hi, hscale, hfits, heq⟩
    | raised d u => exact .inr (.inl ⟨d, u, sinkEvents_raisesError _ s d u hr, by rw [heq, hr]; rfl⟩)
    | stuck f =>
      obtain ⟨rfl, hafter⟩ := sinkEvents_stuck hr
      exact .inr (.inr ⟨hafter, by rw [heq, hr]; rfl⟩)
  · have heq := h.exec_encSym_overflow hs hsym hscale hfits hfull
    cases hr : sinkEvents ((scaleBits s.pending.toNat before).1.map SinkEvent.bit) s with
    | done _ t => exact .inr (.inl ⟨.pendingOverflow, t, Detail.noConfusion, by rw [heq, hr]; rfl⟩)
    | raised d u => exact .inr (.inl ⟨d, u, sinkEvents_raisesError _ s d u hr, by rw [heq, hr]; rfl⟩)
    | stuck f =>
      obtain ⟨rfl, hafter⟩ := sinkEvents_stuck hr
      exact .inr (.inr ⟨hafter, by rw [heq, hr]; rfl⟩)

/-! ENC_FINISH. -/

/-- The events ENC_FINISH offers the sink: the quarter bit, PENDING + 1 of the other bit, the flush (42_codec.md R171). -/
def finishEvents (s : State) : List SinkEvent :=
  ((decide (s.par.codeOneFourth.toNat ≤ s.low.toNat)
      :: List.replicate (s.pending.toNat + 1) (!decide (s.par.codeOneFourth.toNat ≤ s.low.toNat))).map SinkEvent.bit)
    ++ [SinkEvent.flush]

/-- The state with another PENDING. -/
def State.withPending (w : Word) (s : State) : State := { s with pending := w }

theorem sinkBlind_withPending (w : Word) : SinkBlind (State.withPending w) := fun _ _ _ => ⟨rfl, rfl, rfl⟩

theorem withPending_raiseFatal (w : Word) (d : Detail) (s : State) :
    (s.withPending w).raiseFatal d = s.raiseFatal d := rfl

/-- ENC_FINISH in its session with PENDING below its limit: its sink events, and then the session is DONE. -/
theorem exec_encFinish_eq {s : State} (hs : s.sess = .enc) (hpend : s.pending.toNat < 2 ^ 64 - 1) :
    exec .encFinish s =
      ((sinkEvents (finishEvents s) s).bind fun _ t => .done () { t with pending := 0, sess := .done }).settle := by
  have hinc : incPending s = .done () (s.withPending (word (s.pending.toNat + 1))) :=
    if_neg (show s.pending.toNat ≠ pendingMax by unfold pendingMax; omega)
  have hcount : (s.withPending (word (s.pending.toNat + 1))).pending.toNat = s.pending.toNat + 1 :=
    toNat_word (by omega)
  rw [exec, execEncFinish_of_enc hs, encFinishBody, hinc, Run.bind_done, emitFollow_eq, hcount, Run.bind_assoc,
    sinkEvents_mapState (sinkBlind_withPending _), Run.settle_bind_mapState (withPending_raiseFatal _), finishEvents,
    sinkEvents_append, Run.bind_assoc]
  refine Run.settle_bind_congr (sinkEvents_within _ s) fun t _ => ?_
  have hflush : flushSink (t.withPending 0) = (sinkEvents [.flush] t).mapState (State.withPending 0) := by
    rw [← sinkEvents_mapState (sinkBlind_withPending 0), sinkEvents]
    unfold flushSink sinkEvents
    cases sinkEvent .flush (t.withPending 0) <;> rfl
  refine (congrArg (fun r => (Run.bind r fun _ u => .done () { u with sess := .done }).settle) hflush).trans ?_
  exact Run.settle_bind_mapState (withPending_raiseFatal 0) _ _

/-- ENC_FINISH at PENDING's limit (42_codec.md R171). -/
theorem exec_encFinish_overflow {s : State} (hs : s.sess = .enc) (hpend : s.pending.toNat = 2 ^ 64 - 1) :
    exec .encFinish s = .next (s.raiseFatal .pendingOverflow) := by
  rw [exec, execEncFinish_of_enc hs, encFinishBody, incPending,
    if_pos (show s.pending.toNat = pendingMax from hpend)]
  rfl

/-- Settles O38: outside ENC the state check fails; at its limit PENDING overflows; else ENC_FINISH is the sink events
R171 names followed by DONE, accepted or cut as the sink answers. -/
theorem encFinishFlushes : Obligations.EncFinishFlushes := by
  unfold Obligations.EncFinishFlushes
  intro s
  dsimp only
  refine ⟨fun hs => execEncFinish_of_not_enc hs, fun hs hpend => ?_, fun hs hpend hsink => ?_, fun m hs hpend hm hsink => ?_⟩
  · exact ⟨_, exec_encFinish_overflow hs hpend, rfl, rfl, rfl, rfl, rfl⟩
  · rw [exec_encFinish_eq hs hpend, finishEvents, sinkEvents_accepted _ s hsink, Run.bind_done]
    rfl
  · obtain ⟨hfail, hhang⟩ := sinkEvents_cut _ m s hm hsink
    rw [exec_encFinish_eq hs hpend, finishEvents]
    constructor
    · intro hanswer
      rw [hfail hanswer]
      exact ⟨_, rfl, rfl, rfl, rfl, rfl, rfl⟩
    · intro hanswer
      rw [hhang hanswer]
      rfl

end Sys2Proof.Machine

/-! The decoder (42_codec.md R172 to R177, R181): DEC_SYM when the bits it takes are at hand, and when they run out. -/

namespace Sys2Proof.Machine

/-! CODE and the decoded value. -/

/-- Shifting bits in keeps CODE below the next power of two (42_codec.md R173). -/
theorem shiftIn_lt (bits : List Bool) : ∀ c : Nat, shiftIn c bits < (c + 1) * 2 ^ bits.length := by
  induction bits with
  | nil => exact fun c => by simp [shiftIn]
  | cons b bits ih =>
    intro c
    have hb : b.toNat ≤ 1 := Bool.toNat_le b
    calc shiftIn c (b :: bits) = shiftIn (2 * c + b.toNat) bits := rfl
      _ < (2 * c + b.toNat + 1) * 2 ^ bits.length := ih _
      _ ≤ (2 * (c + 1)) * 2 ^ bits.length := Nat.mul_le_mul_right _ (by omega)
      _ = (c + 1) * 2 ^ (b :: bits).length := by rw [List.length_cons, pow_succ']; ring

/-- A value of CODE from LOW up decodes to a cumulative value from sl up exactly when CODE is not below the lower bound
that narrowing to sl gives, and below sh exactly when CODE is below the bound sh gives (42_codec.md R162, R174). -/
theorem decoded_iff {lo c r t : Nat} (hr : 0 < r) (ht : 0 < t) (hle : lo ≤ c) (sl sh : Nat) :
    (sl ≤ ((c - lo + 1) * t - 1) / r ↔ lo + r * sl / t ≤ c)
      ∧ (((c - lo + 1) * t - 1) / r < sh ↔ c + 1 ≤ lo + r * sh / t) := by
  have hpos : 0 < (c - lo + 1) * t := Nat.mul_pos (Nat.succ_pos _) ht
  constructor
  · rw [Nat.le_div_iff_mul_le hr, Nat.mul_comm sl r, Nat.le_sub_one_iff_lt hpos, ← Nat.div_lt_iff_lt_mul ht]
    omega
  · rw [Nat.div_lt_iff_lt_mul hr, Nat.mul_comm sh r, Nat.sub_lt_iff_lt_add hpos, Nat.lt_add_one_iff,
      ← Nat.le_div_iff_mul_le ht]
    omega

/-- CODE stays between the bounds along the scaling steps, whatever bits enter (42_codec.md R175). -/
theorem ScalesTo.windowAfter_bounds {p : Params} {lo hi lo' hi' : Nat} {steps : List Band}
    (h : ScalesTo p lo hi steps lo' hi') :
    ∀ (c : Nat) (bits : List Bool), lo ≤ c → c ≤ hi → steps.length ≤ bits.length →
      lo' ≤ windowAfter p c steps bits ∧ windowAfter p c steps bits ≤ hi' := by
  induction h with
  | stop _ => exact fun c bits hlo hhi _ => ⟨hlo, hhi⟩
  | @step _ _ _ _ b bs _ _ _ ih =>
    intro c bits hlo hhi hlen
    cases bits with
    | nil => simp at hlen
    | cons x bits =>
      have hx : x.toNat ≤ 1 := Bool.toNat_le x
      exact ih _ bits (by omega) (by omega) (by simpa using hlen)

/-! A decode session. -/

/-- What the invariants promise of a decode session (10_state.md R38 to R40). -/
structure DecodeSession (s : State) : Prop extends LiveSession s where
  dec : s.sess = .dec
  window : WindowOk s

theorem Inv.decodeSession {s : State} (h : Inv s) (hs : s.sess = .dec) : DecodeSession s := by
  have hlive := h.liveSession (.inr hs)
  obtain ⟨-, -, -, -, -, hwindow, -⟩ := h
  exact ⟨hlive, hs, hwindow hs⟩

/-- Once its bits are at hand, CODE lies in the code range, primed before or by this command (10_state.md R40). -/
theorem DecodeSession.primedCode_bounds {s : State} (h : DecodeSession s) :
    s.low.toNat ≤ primedCode s ∧ primedCode s ≤ s.high.toNat := by
  obtain ⟨-, -, hprimed, hfresh⟩ := h.window
  unfold primedCode
  split
  next hp => exact hprimed hp
  next hp =>
    obtain ⟨-, -, hlow, hhigh⟩ := hfresh (by simpa using hp)
    have hlt := shiftIn_lt ((codeBits s).take s.par.codeBits.toNat) 0
    have hlen : 2 ^ ((codeBits s).take s.par.codeBits.toNat).length ≤ 2 ^ s.par.codeBits.toNat :=
      Nat.pow_le_pow_right Nat.zero_lt_two (List.length_take_le _ _)
    have hfull := h.configured.codeMax_succ
    rw [hlow, hhigh]
    refine ⟨Nat.zero_le _, ?_⟩
    omega

/-- The decoded cumulative value of the primed CODE (42_codec.md R174). -/
def primedValue (s : State) : Nat :=
  ((primedCode s - s.low.toNat + 1) * s.store.freqs.sum - 1) / (s.high.toNat - s.low.toNat + 1)

/-- The decoded value is below TOTAL, so SymOf never reports BAD_VALUE (42_codec.md R181). -/
theorem DecodeSession.primedValue_lt {s : State} (h : DecodeSession s) : primedValue s < s.store.freqs.sum := by
  obtain ⟨hlo, hhi⟩ := h.primedCode_bounds
  obtain ⟨ht, -⟩ := h.total_le_range
  refine (decoded_iff (Nat.succ_pos _) ht hlo 0 _).2.2 ?_
  rw [Nat.mul_div_cancel _ ht]
  omega

/-- CODE lies in the range of the symbol that owns the decoded value (42_codec.md R162, R174). -/
theorem DecodeSession.primedCode_narrowed {s : State} (h : DecodeSession s) {sym : Nat}
    (hlo : cum s.store.freqs sym ≤ primedValue s) (hhi : primedValue s < cum s.store.freqs (sym + 1)) :
    narrowLow s (cum s.store.freqs sym) s.store.freqs.sum ≤ primedCode s
      ∧ primedCode s ≤ narrowHigh s (cum s.store.freqs (sym + 1)) s.store.freqs.sum := by
  obtain ⟨ht, -⟩ := h.total_le_range
  obtain ⟨hlower, hupper⟩ := decoded_iff (r := s.high.toNat - s.low.toNat + 1) (Nat.succ_pos _) ht
    h.primedCode_bounds.1 (cum s.store.freqs sym) (cum s.store.freqs (sym + 1))
  exact ⟨hlower.1 hlo, Nat.le_sub_one_of_lt (hupper.1 hhi)⟩

/-! DEC_SYM when the bits are at hand. -/

/-- The state after priming with bits at hand (42_codec.md R173). -/
def primedState (s : State) : State :=
  { s with
    source := (afterCodeBits (primeBits s) s).source, tail := (afterCodeBits (primeBits s) s).tail
    code := word (primedCode s), primed := true }

theorem prime_along {s : State} (h : primeBits s ≤ (codeBits s).length) : prime s = .done () (primedState s) := by
  by_cases hp : s.primed = true
  · have hbits : primeBits s = 0 := if_pos hp
    have hcode : primedCode s = s.code.toNat := if_pos hp
    rw [prime, if_pos hp, primedState, hbits, hcode, afterCodeBits_zero, word_toNat_self, ← hp]
  · have hbits : primeBits s = s.par.codeBits.toNat := if_neg hp
    have hcode : primedCode s = shiftIn 0 ((codeBits s).take s.par.codeBits.toNat) := if_neg hp
    rw [hbits] at h
    rw [prime, if_neg hp, primeLoop_along _ { s with code := 0 } h, primedState, hbits, hcode]
    rfl

theorem DecodeSession.toNat_primedCode {s : State} (h : DecodeSession s) :
    (word (primedCode s)).toNat = primedCode s := by
  have := s.high.isLt
  have := h.primedCode_bounds
  exact toNat_word (by omega)

/-- DEC_SYM once primed, on the owner of the decoded value: the renormalisation from the narrowed bounds, and the end. -/
theorem DecodeSession.decSymPrimed_eq {s : State} (h : DecodeSession s) {sym : Nat}
    (hlo : cum s.store.freqs sym ≤ primedValue s) (hhi : primedValue s < cum s.store.freqs (sym + 1)) :
    decSymPrimed (primedState s) =
      (decRenorm (narrow (cum s.store.freqs sym) (cum s.store.freqs (sym + 1)) s.store.freqs.sum (primedState s))).bind
        fun _ u => .done () (decSymEnd sym (cum s.store.freqs sym) (cum s.store.freqs (sym + 1)) u) := by
  have hvalue : decodedValue s.store.freqs.sum (primedState s) = primedValue s := by
    rw [decodedValue, show (primedState s).code.toNat = primedCode s from h.toNat_primedCode]
    rfl
  obtain ⟨owner, -, hfind, hownerLo, hownerHi⟩ := h.model.symOf_owner h.primedValue_lt
  obtain rfl : owner = sym := owner_unique hownerLo hownerHi hlo hhi
  have htotal : (primedState s).store.total = s.store.freqs.sum := h.model.total_eq_sum
  have hfind' : (primedState s).store.symOf (primedValue s) =
      (owner, cum s.store.freqs owner, cum s.store.freqs (owner + 1)) := hfind
  simp only [decSymPrimed, htotal, hvalue, if_neg (Nat.not_le.2 h.primedValue_lt), hfind']

/-- The state DEC_SYM leads to along its scaling steps when the bits are at hand (42_codec.md R176). -/
def decSymNext (s : State) (sym : Nat) (steps : List Band) (lo hi : Nat) : State :=
  { s with
    low := word lo, high := word hi
    source := (afterCodeBits (primeBits s + steps.length) s).source
    tail := (afterCodeBits (primeBits s + steps.length) s).tail
    code := word (windowAfter s.par (primedCode s) steps ((codeBits s).drop (primeBits s)))
    primed := true
    store := Store.ofFreqs s.variant (updateFreqs s.par.freqMax.toNat sym s.store.freqs)
    res0 := word sym, res1 := word (cum s.store.freqs sym), res2 := word (cum s.store.freqs (sym + 1))
    err := .ok, detail := .none
    sess := if word sym = s.par.symbolEof then .done else .dec }

/-- DEC_SYM's test for SYMBOL_EOF on numbers is that on words: every symbol fits a word. -/
theorem toNat_eq_iff_word_eq {sym : Nat} {w : Word} (hsym : sym < 2 ^ 64) : sym = w.toNat ↔ word sym = w := by
  constructor
  · rintro rfl
    exact word_toNat_self w
  · rintro rfl
    exact (toNat_word hsym).symm

/-- DecRenorm from the primed and narrowed state, when a bit is at hand for each step (42_codec.md R175). -/
theorem DecodeSession.decRenorm_along {s : State} (h : DecodeSession s) {sym : Nat}
    (hsym : sym < s.par.symbolCount.toNat) (hlo : cum s.store.freqs sym ≤ primedValue s)
    (hhi : primedValue s < cum s.store.freqs (sym + 1)) {steps : List Band} {lo hi : Nat}
    (hscale : ScalesTo s.par (narrowLow s (cum s.store.freqs sym) s.store.freqs.sum)
      (narrowHigh s (cum s.store.freqs (sym + 1)) s.store.freqs.sum) steps lo hi)
    (hbits : primeBits s + steps.length ≤ (codeBits s).length) :
    decRenorm (narrow (cum s.store.freqs sym) (cum s.store.freqs (sym + 1)) s.store.freqs.sum (primedState s)) =
      .done () { s with
        low := word lo, high := word hi
        source := (afterCodeBits (primeBits s + steps.length) s).source
        tail := (afterCodeBits (primeBits s + steps.length) s).tail
        code := word (windowAfter s.par (primedCode s) steps ((codeBits s).drop (primeBits s))), primed := true } := by
  obtain ⟨hnlo, hnhi⟩ := h.narrow_exact hsym
  obtain ⟨-, -, htop⟩ := h.narrow_order hsym
  obtain ⟨hclo, hchi⟩ := h.primedCode_narrowed hlo hhi
  have hlen := (h.scalesTo_bounded hsym hscale).1
  have hcb := h.configured.codeBits_bounds.2
  have hmax := h.range.2.1
  set u := narrow (cum s.store.freqs sym) (cum s.store.freqs (sym + 1)) s.store.freqs.sum (primedState s) with hu
  have hlow : u.low.toNat = narrowLow s (cum s.store.freqs sym) s.store.freqs.sum := hnlo
  have hhigh : u.high.toNat = narrowHigh s (cum s.store.freqs (sym + 1)) s.store.freqs.sum := hnhi
  have hcode : u.code.toNat = primedCode s := h.toNat_primedCode
  have hat : codeBits u = (codeBits s).drop (primeBits s) :=
    (codeBits_congr rfl rfl rfl).trans (codeBits_afterCodeBits (primeBits s) s (by omega))
  obtain ⟨k, hk⟩ : ∃ k, renormFuel = steps.length + 1 + k := ⟨63 - steps.length, by unfold renormFuel; omega⟩
  have hloop := decRenormLoop_along steps k u lo hi h.configured.quarters (by omega) (by omega)
    (by rw [hhigh]; exact htop.trans hmax) (by rw [hlow, hhigh]; exact hscale) (by rw [hat, List.length_drop]; omega)
  rw [decRenorm, hk, hloop, hcode, hat, ← afterCodeBits_add]
  rfl

/-- Settles O40: the bits for priming are at hand, so CODE is primed and lies in its owner's range; then DecRenorm runs
along its scaling steps, and the end counts the symbol. -/
theorem decSymResult : Obligations.DecSymResult := by
  unfold Obligations.DecSymResult
  intro s sym steps lo hi hinv hs
  dsimp only
  intro hsym hlo hhi hscale hbits
  have h := hinv.decodeSession hs
  have hcount := s.par.symbolCount.isLt
  rw [exec, execDecSym_of_dec hs, decSymBody, prime_along (by omega), Run.bind_done, h.decSymPrimed_eq hlo hhi,
    h.decRenorm_along hsym hlo hhi hscale hbits, Run.bind_done, Run.settle, ← h.model.update_eq hsym]
  simp only [decSymEnd, updateModel, State.setRes3, State.succeed, hs,
    toNat_eq_iff_word_eq (show sym < 2 ^ 64 by omega)]
  split <;> rfl

/-! DEC_SYM when the bits run out. -/

/-- The source once its bits are taken. -/
def SourcePort.afterBits (p : SourcePort) : SourcePort := { p with queue := p.queue.drop (leadingBits p.queue).length }

/-- Taking a bit at hand leaves what the source answers after its bits. -/
theorem afterBits_of_codeBits_cons {s : State} {b : Bool} {bs : List Bool} (h : codeBits s = b :: bs) :
    (afterCodeBits 1 s).source.afterBits = s.source.afterBits := by
  rcases hs : s.source with ⟨_ | ⟨c | _, q⟩, x⟩
  · simp [afterCodeBits, SourcePort.afterBits, hs]
  · simp [afterCodeBits, SourcePort.afterBits, hs, leadingBits]
  · simp [codeBits, hs, leadingBits] at h

theorem afterBits_afterCodeBits (k : Nat) :
    ∀ s : State, k ≤ (codeBits s).length → (afterCodeBits k s).source.afterBits = s.source.afterBits := by
  induction k with
  | zero => exact fun s _ => by rw [afterCodeBits_zero]
  | succ k ih =>
    intro s h
    cases hc : codeBits s with
    | nil => simp [hc] at h
    | cons b bs =>
      obtain ⟨-, hrest⟩ := readCodeBit_of_codeBits hc
      rw [Nat.add_comm, ← afterCodeBits_add, ih _ (by rw [hrest]; simpa [hc] using h), afterBits_of_codeBits_cons hc]

/-- With no bit at hand the source has no bit to deliver. -/
theorem afterBits_of_codeBits_nil {s : State} (h : codeBits s = []) : s.source.afterBits = s.source := by
  have hlead : leadingBits s.source.queue = [] := (List.append_eq_nil_iff.1 h).1
  rw [SourcePort.afterBits, hlead]
  rfl

/-- A run from s that ends because the bits at hand ran out, as the source's next answer says (42_codec.md R172). -/
def EndsShort (s : State) {α : Type} (r : Run α) : Prop :=
  (∃ u, DecoderOnly s u ∧ s.source.afterBits.answer.1 = some .eof ∧ r = .raised .sourceExhausted u)
  ∨ (∃ u, DecoderOnly s u ∧ s.source.afterBits.answer.1 = some .ioError ∧ r = .raised .sourceFailed u)
  ∨ (s.source.afterBits.answer.1 = none ∧ r = .stuck .sourceNeverAnswers)

theorem EndsShort.bind {s : State} {α β : Type} {r : Run α} (h : EndsShort s r) (k : α → State → Run β) :
    EndsShort s (r.bind k) := by
  rcases h with ⟨u, hu, ha, rfl⟩ | ⟨u, hu, ha, rfl⟩ | ⟨ha, rfl⟩
  · exact .inl ⟨u, hu, ha, rfl⟩
  · exact .inr (.inl ⟨u, hu, ha, rfl⟩)
  · exact .inr (.inr ⟨ha, rfl⟩)

/-- What is true of the run from a state the decoder has reached is true of it from where the decoder started. -/
theorem EndsShort.of_reached {s t : State} {α : Type} {r : Run α} (h : EndsShort t r) (hreach : DecoderOnly s t)
    (hsource : t.source.afterBits = s.source.afterBits) : EndsShort s r := by
  rw [EndsShort, hsource] at h
  rcases h with ⟨u, hu, h⟩ | ⟨u, hu, h⟩ | h
  · exact .inl ⟨u, hreach.trans hu, h⟩
  · exact .inr (.inl ⟨u, hreach.trans hu, h⟩)
  · exact .inr (.inr h)

theorem readCodeBit_short {s : State} (h : codeBits s = []) : EndsShort s (readCodeBit s) := by
  have hsource := afterBits_of_codeBits_nil h
  rcases readCodeBit_of_none h with ⟨ha, hr⟩ | ⟨ha, hr⟩ | ⟨ha, hr⟩ <;> rw [← hsource] at ha
  · exact .inl ⟨_, DecoderOnly.refl s, ha, hr⟩
  · exact .inr (.inl ⟨{ s with source := s.source.answer.2 }, rfl, ha, hr⟩)
  · exact .inr (.inr ⟨ha, hr⟩)

theorem primeLoop_short (k : Nat) : ∀ s : State, (codeBits s).length < k → EndsShort s (primeLoop k s) := by
  induction k with
  | zero => exact fun s h => absurd h (Nat.not_lt_zero _)
  | succ k ih =>
    intro s h
    rw [primeLoop]
    cases hc : codeBits s with
    | nil => exact (readCodeBit_short hc).bind _
    | cons b bs =>
      obtain ⟨hread, hrest⟩ := readCodeBit_of_codeBits hc
      rw [hread, Run.bind_done]
      have hat : codeBits { afterCodeBits 1 s with code := word (2 * (afterCodeBits 1 s).code.toNat + b.toNat) } = bs :=
        (codeBits_congr rfl rfl rfl).trans hrest
      refine (ih _ (by rw [hat]; simpa [hc] using h)).of_reached rfl ?_
      exact afterBits_of_codeBits_cons hc

theorem prime_short {s : State} (h : (codeBits s).length < primeBits s) : EndsShort s (prime s) := by
  unfold primeBits at h
  split at h
  next => exact absurd h (Nat.not_lt_zero _)
  next hp =>
    rw [prime, if_neg hp]
    exact ((primeLoop_short _ { s with code := 0 } h).of_reached rfl rfl).bind _

/-- DecRenorm along scaling steps for which not enough bits are at hand. -/
theorem decRenormLoop_short (steps : List Band) :
    ∀ (k : Nat) (s : State) (lo hi : Nat), Quarters s.par → s.low.toNat ≤ s.high.toNat →
      s.high.toNat ≤ s.par.codeMax.toNat → ScalesTo s.par s.low.toNat s.high.toNat steps lo hi →
      (codeBits s).length < steps.length → EndsShort s (decRenormLoop (steps.length + k) s) := by
  induction steps with
  | nil => exact fun k s lo hi _ _ _ _ h => absurd h (Nat.not_lt_zero _)
  | cons b bs ih =>
    intro k s lo hi hq hle hmax hscale hshort
    cases hscale with
    | step hb hn hrest =>
      rw [List.length_cons, Nat.add_right_comm, decRenormLoop, if_neg (by rw [band_eq_bandOf, hb]; exact hn),
        band_eq_bandOf, hb, decStep, Run.bind_assoc]
      cases hc : codeBits s with
      | nil => exact (readCodeBit_short hc).bind _
      | cons x xs =>
        obtain ⟨hread, hrestBits⟩ := readCodeBit_of_codeBits hc
        have hbounds := scaled_bounds hq hle hmax (by rw [hb]; exact hn)
        rw [hb] at hbounds
        have hmaxlt := s.par.codeMax.isLt
        rw [hread, Run.bind_done, Run.bind_done]
        set u : State := { scale (bandOffset (afterCodeBits 1 s).par b) (afterCodeBits 1 s) with
          code := word (2 * ((afterCodeBits 1 s).code.toNat - bandOffset (afterCodeBits 1 s).par b) + x.toNat) } with hu
        have hlow : u.low.toNat = _ := toNat_word (n := 2 * (s.low.toNat - bandOffset s.par b)) (by omega)
        have hhigh : u.high.toNat = _ := toNat_word (n := 2 * (s.high.toNat - bandOffset s.par b) + 1) (by omega)
        have hat : codeBits u = xs := (codeBits_congr rfl rfl rfl).trans hrestBits
        refine (ih k u lo hi hq (by rw [hlow, hhigh]; exact hbounds.1) (by rw [hhigh]; exact hbounds.2.1)
          (by rw [hlow, hhigh]; exact hrest) (by rw [hat]; simpa [hc] using hshort)).of_reached rfl ?_
        exact afterBits_of_codeBits_cons hc

/-- DEC_SYM when the bits for priming, or for the scaling steps, are not at hand. -/
theorem DecodeSession.decSymBody_short {s : State} (h : DecodeSession s) {sym : Nat} {steps : List Band} {lo hi : Nat}
    (hshort : (codeBits s).length < primeBits s
      ∨ (primeBits s ≤ (codeBits s).length ∧ sym < s.par.symbolCount.toNat ∧ cum s.store.freqs sym ≤ primedValue s
        ∧ primedValue s < cum s.store.freqs (sym + 1)
        ∧ ScalesTo s.par (narrowLow s (cum s.store.freqs sym) s.store.freqs.sum)
          (narrowHigh s (cum s.store.freqs (sym + 1)) s.store.freqs.sum) steps lo hi
        ∧ (codeBits s).length < primeBits s + steps.length)) : EndsShort s (decSymBody s) := by
  rw [decSymBody]
  rcases hshort with hprime | ⟨hprime, hsym, hlo, hhi, hscale, hsteps⟩
  · exact (prime_short hprime).bind _
  · obtain ⟨hnlo, hnhi⟩ := h.narrow_exact hsym
    obtain ⟨-, hord, htop⟩ := h.narrow_order hsym
    have hlen := (h.scalesTo_bounded hsym hscale).1
    have hcb := h.configured.codeBits_bounds.2
    have hmax := h.range.2.1
    rw [prime_along hprime, Run.bind_done, h.decSymPrimed_eq hlo hhi]
    set u := narrow (cum s.store.freqs sym) (cum s.store.freqs (sym + 1)) s.store.freqs.sum (primedState s) with hu
    have hlow : u.low.toNat = narrowLow s (cum s.store.freqs sym) s.store.freqs.sum := hnlo
    have hhigh : u.high.toNat = narrowHigh s (cum s.store.freqs (sym + 1)) s.store.freqs.sum := hnhi
    have hat : codeBits u = (codeBits s).drop (primeBits s) :=
      (codeBits_congr rfl rfl rfl).trans (codeBits_afterCodeBits (primeBits s) s hprime)
    obtain ⟨k, hk⟩ : ∃ k, renormFuel = steps.length + k := ⟨64 - steps.length, by unfold renormFuel; omega⟩
    have hloop : EndsShort u (decRenorm u) := by
      rw [decRenorm, hk]
      exact decRenormLoop_short steps k u lo hi h.configured.quarters (by rw [hlow, hhigh]; exact hord)
        (by rw [hhigh]; exact htop.trans hmax) (by rw [hlow, hhigh]; exact hscale)
        (by rw [hat, List.length_drop]; omega)
    exact (hloop.bind _).of_reached rfl (afterBits_afterCodeBits (primeBits s) s hprime)

/-- A session-fatal error of the decoder keeps the model, the parameters and the results (60_exceptions.md R205). -/
theorem DecoderOnly.raiseFatal_keeps {s u : State} (h : DecoderOnly s u) (d : Detail) :
    (u.raiseFatal d).err = d.kind ∧ (u.raiseFatal d).detail = d ∧ (u.raiseFatal d).sess = .failed
      ∧ (u.raiseFatal d).store = s.store ∧ (u.raiseFatal d).par = s.par ∧ (u.raiseFatal d).res0 = s.res0
      ∧ (u.raiseFatal d).res1 = s.res1 ∧ (u.raiseFatal d).res2 = s.res2 := by
  unfold DecoderOnly at h
  rw [h]
  exact ⟨rfl, rfl, rfl, rfl, rfl, rfl, rfl, rfl⟩

/-- Settles O42: the body ends short, as the source's answer after its bits says. -/
theorem decSymStopsAtSource : Obligations.DecSymStopsAtSource := by
  unfold Obligations.DecSymStopsAtSource
  intro s sym steps lo hi hinv hs
  dsimp only
  intro hshort
  have hbody := (hinv.decodeSession hs).decSymBody_short hshort
  change (s.source.afterBits.answer.1 = some .eof → _) ∧ (s.source.afterBits.answer.1 = some .ioError → _)
    ∧ (s.source.afterBits.answer.1 = none → _)
  rw [exec, execDecSym_of_dec hs]
  rcases hbody with ⟨u, hu, ha, hr⟩ | ⟨u, hu, ha, hr⟩ | ⟨ha, hr⟩ <;> rw [hr, ha]
  · exact ⟨fun _ => ⟨_, rfl, hu.raiseFatal_keeps _⟩, nofun, nofun⟩
  · exact ⟨nofun, fun _ => ⟨_, rfl, hu.raiseFatal_keeps _⟩, nofun⟩
  · exact ⟨nofun, nofun, fun _ => rfl⟩

/-! Every way DEC_SYM can end. -/

/-- The owner of the decoded value and the scaling steps of its range always exist. -/
theorem DecodeSession.exists_owner_steps {s : State} (h : DecodeSession s) :
    ∃ sym steps lo hi, sym < s.par.symbolCount.toNat ∧ cum s.store.freqs sym ≤ primedValue s
      ∧ primedValue s < cum s.store.freqs (sym + 1)
      ∧ ScalesTo s.par (narrowLow s (cum s.store.freqs sym) s.store.freqs.sum)
        (narrowHigh s (cum s.store.freqs (sym + 1)) s.store.freqs.sum) steps lo hi := by
  obtain ⟨sym, hsym, -, hlo, hhi⟩ := h.model.symOf_owner h.primedValue_lt
  obtain ⟨steps, lo, hi, hscale⟩ := h.exists_scalesTo hsym
  exact ⟨sym, steps, lo, hi, hsym, hlo, hhi, hscale⟩

/-- DEC_SYM in a session that meets the invariants leads to `decSymNext`, or its bits run out. -/
theorem Inv.decSym_cases {s : State} (hinv : Inv s) (hs : s.sess = .dec) :
    (∃ sym steps lo hi, sym < s.par.symbolCount.toNat ∧ cum s.store.freqs sym ≤ primedValue s
      ∧ primedValue s < cum s.store.freqs (sym + 1)
      ∧ ScalesTo s.par (narrowLow s (cum s.store.freqs sym) s.store.freqs.sum)
        (narrowHigh s (cum s.store.freqs (sym + 1)) s.store.freqs.sum) steps lo hi
      ∧ primeBits s + steps.length ≤ (codeBits s).length ∧ exec .decSym s = .next (decSymNext s sym steps lo hi))
    ∨ (∃ d u, (d = .sourceExhausted ∨ d = .sourceFailed) ∧ exec .decSym s = .next (State.raiseFatal d u))
    ∨ (s.source.after = none ∧ exec .decSym s = .fault .sourceNeverAnswers) := by
  have h := hinv.decodeSession hs
  obtain ⟨sym, steps, lo, hi, hsym, hlo, hhi, hscale⟩ := h.exists_owner_steps
  by_cases hbits : primeBits s + steps.length ≤ (codeBits s).length
  · exact .inl ⟨sym, steps, lo, hi, hsym, hlo, hhi, hscale, hbits,
      decSymResult s sym steps lo hi hinv hs hsym hlo hhi hscale hbits⟩
  · have hshort : (codeBits s).length < primeBits s ∨ primeBits s ≤ (codeBits s).length := Nat.lt_or_ge _ _
    have hbody := h.decSymBody_short (hshort.imp_right fun hp => ⟨hp, hsym, hlo, hhi, hscale, Nat.not_le.1 hbits⟩)
    rw [exec, execDecSym_of_dec hs]
    rcases hbody with ⟨u, -, -, hr⟩ | ⟨u, -, -, hr⟩ | ⟨ha, hr⟩ <;> rw [hr]
    · exact .inr (.inl ⟨_, u, .inl rfl, rfl⟩)
    · exact .inr (.inl ⟨_, u, .inr rfl, rfl⟩)
    · refine .inr (.inr ⟨?_, rfl⟩)
      rw [SourcePort.afterBits] at ha
      unfold SourcePort.answer at ha
      split at ha
      · cases ha
      · cases ha
      · split at ha
        · cases ha
        · cases ha
        next hafter => exact hafter

theorem primeBits_le (s : State) : primeBits s ≤ s.par.codeBits.toNat := by
  unfold primeBits
  split <;> omega

/-- Settles O41: priming takes at most CODE_BITS bits and so does the renormalisation, so two windows are enough. -/
theorem decSymCompletes : Obligations.DecSymCompletes := by
  unfold Obligations.DecSymCompletes
  intro s hinv hs hbits
  have h := hinv.decodeSession hs
  obtain ⟨sym, steps, lo, hi, hsym, hlo, hhi, hscale⟩ := h.exists_owner_steps
  have hlen := (h.scalesTo_bounded hsym hscale).1
  have hprime := primeBits_le s
  have hexec := decSymResult s sym steps lo hi hinv hs hsym hlo hhi hscale (by omega)
  refine ⟨_, sym, hexec, hsym, rfl, rfl, rfl, rfl, rfl, rfl, rfl, ?_, ?_⟩
  · dsimp only
    split <;> simp_all
  · dsimp only
    split <;> simp_all

/-- Settles O43: it is DEC_SYM's state check. -/
theorem decSymNeedsDecodeSession : Obligations.DecSymNeedsDecodeSession := by
  unfold Obligations.DecSymNeedsDecodeSession
  exact fun _ => execDecSym_of_not_dec

/-- Settles O44: DEC_SYM ends with NONE, SOURCE_EXHAUSTED or SOURCE_FAILED, the decoded value being below TOTAL. -/
theorem decSymNeverBadValue : Obligations.DecSymNeverBadValue := by
  unfold Obligations.DecSymNeverBadValue
  intro s t hinv hs hexec
  rcases hinv.decSym_cases hs with ⟨sym, steps, lo, hi, -, -, -, -, -, h⟩ | ⟨d, u, hd, h⟩ | ⟨-, h⟩ <;>
    rw [hexec] at h <;> cases h
  · exact Detail.noConfusion
  · rcases hd with rfl | rfl <;> exact Detail.noConfusion

/-! The decoder window along a DEC_SYM (10_state.md R28, R40). -/

/-- TAIL stays within its budget as bits at hand are taken. -/
theorem tail_afterCodeBits_le {k : Nat} {s : State} (hk : k ≤ (codeBits s).length)
    (htail : s.tail.toNat ≤ tailBudget s.par.codeBits.toNat) :
    (afterCodeBits k s).tail.toNat ≤ tailBudget s.par.codeBits.toNat := by
  have hbudget : tailBudget s.par.codeBits.toNat < 2 ^ 64 := by
    have := s.par.codeBits.isLt
    unfold tailBudget
    omega
  have hlead : (leadingBits s.source.queue).length ≤ s.source.queue.length := by
    induction s.source.queue with
    | nil => exact Nat.le_refl 0
    | cons x q ih =>
      cases x with
      | bit b => exact Nat.succ_le_succ ih
      | ioError => exact Nat.zero_le _
  have hover : s.tail.toNat + (k - s.source.queue.length) ≤ tailBudget s.par.codeBits.toNat := by
    rw [codeBits, List.length_append] at hk
    split at hk
    · rw [List.length_replicate] at hk
      omega
    · rw [List.length_nil] at hk
      omega
  rw [show (afterCodeBits k s).tail = word (s.tail.toNat + (k - s.source.queue.length)) from rfl,
    toNat_word (Nat.lt_of_le_of_lt hover hbudget)]
  exact hover

/-- After DEC_SYM the decoder window is as the invariant says. -/
theorem DecodeSession.windowOk_next {s : State} (h : DecodeSession s) {sym : Nat}
    (hsym : sym < s.par.symbolCount.toNat) (hlo : cum s.store.freqs sym ≤ primedValue s)
    (hhi : primedValue s < cum s.store.freqs (sym + 1)) {steps : List Band} {lo hi : Nat}
    (hscale : ScalesTo s.par (narrowLow s (cum s.store.freqs sym) s.store.freqs.sum)
      (narrowHigh s (cum s.store.freqs (sym + 1)) s.store.freqs.sum) steps lo hi)
    (hbits : primeBits s + steps.length ≤ (codeBits s).length) : WindowOk (decSymNext s sym steps lo hi) := by
  obtain ⟨hpending, htail, -, -⟩ := h.window
  obtain ⟨-, -, hmax, hwlo, hwhi⟩ := h.scalesTo_bounded hsym hscale
  obtain ⟨hclo, hchi⟩ := h.primedCode_narrowed hlo hhi
  obtain ⟨hwinLo, hwinHi⟩ := hscale.windowAfter_bounds _ ((codeBits s).drop (primeBits s)) hclo hchi
    (by rw [List.length_drop]; omega)
  have hmaxlt := s.par.codeMax.isLt
  have hcode : (decSymNext s sym steps lo hi).code.toNat =
      windowAfter s.par (primedCode s) steps ((codeBits s).drop (primeBits s)) := toNat_word (by omega)
  refine ⟨hpending, tail_afterCodeBits_le hbits htail, fun _ => ?_, fun hp => by cases hp⟩
  rw [hcode]
  exact ⟨hwlo.trans_le hwinLo, hwinHi.trans_eq hwhi.symm⟩

end Sys2Proof.Machine

/-! What a command and a step can do, said once, and the frames that follow (30_encoding.md R82, R83, 60_exceptions.md R202
to R209, 10_state.md R21, R29). -/

namespace Sys2Proof.Machine

/-! What the parts of a symbol command raise is an error. -/

theorem emitFollow_raisesError (b : Bool) (s : State) : (emitFollow b s).RaisesError := by
  rw [emitFollow_eq]
  exact Run.raisesError_bind (sinkEvents_raisesError _ s) fun _ _ => Run.raisesError_done

theorem incPending_raisesError (s : State) : (incPending s).RaisesError := by
  unfold incPending
  split <;> simp

theorem encStep_raisesError (b : Band) (s : State) : (encStep b s).RaisesError := by
  cases b with
  | e1 => exact Run.raisesError_bind (emitFollow_raisesError _ s) fun _ _ => Run.raisesError_done
  | e2 => exact Run.raisesError_bind (emitFollow_raisesError _ s) fun _ _ => Run.raisesError_done
  | e3 => exact Run.raisesError_bind (incPending_raisesError s) fun _ _ => Run.raisesError_done
  | none => exact Run.raisesError_done

theorem encRenormLoop_raisesError (k : Nat) (s : State) : (encRenormLoop k s).RaisesError := by
  induction k generalizing s with
  | zero => exact Run.raisesError_stuck
  | succ k ih =>
    rw [encRenormLoop]
    split
    · exact Run.raisesError_done
    · exact Run.raisesError_bind (encStep_raisesError _ s) fun _ t => ih t

theorem readCodeBit_raisesError (s : State) : (readCodeBit s).RaisesError := by
  rw [readCodeBit]
  obtain ⟨a, -, h⟩ | ⟨-, h⟩ := sourceBit_cases s <;> rw [h]
  · rw [Run.bind_done]
    cases a with
    | bit b => exact Run.raisesError_done
    | ioError => simp
    | eof =>
      dsimp only
      split <;> simp
  · exact Run.raisesError_stuck

theorem primeLoop_raisesError (k : Nat) (s : State) : (primeLoop k s).RaisesError := by
  induction k generalizing s with
  | zero => exact Run.raisesError_done
  | succ k ih => exact Run.raisesError_bind (readCodeBit_raisesError s) fun _ _ => ih _

theorem prime_raisesError (s : State) : (prime s).RaisesError := by
  unfold prime
  split
  · exact Run.raisesError_done
  · exact Run.raisesError_bind (primeLoop_raisesError _ _) fun _ _ => Run.raisesError_done

theorem decRenormLoop_raisesError (k : Nat) (s : State) : (decRenormLoop k s).RaisesError := by
  induction k generalizing s with
  | zero => exact Run.raisesError_stuck
  | succ k ih =>
    rw [decRenormLoop]
    split
    · exact Run.raisesError_done
    · refine Run.raisesError_bind ?_ fun _ t => ih t
      exact Run.raisesError_bind (readCodeBit_raisesError s) fun _ _ => Run.raisesError_done

/-! What a symbol command has changed when it raises: no result and no model (60_exceptions.md R205, R206). -/

/-- What a composed run has changed when it raises: what its first part may change, or what follows raises after. -/
theorem Run.of_bind_raised {α β : Type} {r : Run α} {k : α → State → Run β} {P : State → Prop} {d : Detail} {u : State}
    (h : r.bind k = .raised d u) (hr : r.Within P) (hk : ∀ a t, P t → k a t = .raised d u → P u) : P u := by
  rcases Run.bind_eq_raised.1 h with h | ⟨a, t, ht, h⟩
  · exact hr.2 d u h
  · exact hk a t (hr.1 a t ht) h

theorem narrow_encoderOnly (sl sh t : Nat) (s : State) : EncoderOnly s (narrow sl sh t s) := ⟨[], by simp [narrow]⟩

theorem encSymBody_raised {s u : State} {d : Detail} (h : encSymBody s = .raised d u) :
    EncoderOnly s u ∧ d ≠ .none := by
  unfold encSymBody at h
  split at h
  · cases h
    exact ⟨EncoderOnly.refl _, Detail.noConfusion⟩
  · dsimp only at h
    constructor
    · exact Run.of_bind_raised h (Run.within_of_trans (P := EncoderOnly) EncoderOnly.trans
        (narrow_encoderOnly _ _ _ s) (encRenorm_within _))
        fun _ _ _ hraised => by cases hraised
    · exact Run.raisesError_bind (encRenormLoop_raisesError _ _) (fun _ _ => Run.raisesError_done) d u h

theorem encFinishBody_raised {s u : State} {d : Detail} (h : encFinishBody s = .raised d u) :
    EncoderOnly s u ∧ d ≠ .none := by
  unfold encFinishBody at h
  constructor
  · refine Run.of_bind_raised h (incPending_within s) fun _ t ht h => ?_
    refine Run.of_bind_raised h (Run.within_of_trans (P := EncoderOnly) EncoderOnly.trans ht (emitFollow_within _ t)) fun _ w hw h => ?_
    rcases Run.bind_eq_raised.1 h with h | ⟨_, _, -, h⟩
    · refine hw.trans (EncoderOnly.of_sinkOnly ((sinkEvents_within [.flush] w).2 d u ?_))
      rw [sinkEvents, show sinkEvent .flush w = .raised d u from h, Run.bind_raised]
    · cases h
  · refine Run.raisesError_bind (incPending_raisesError s) (fun _ t => ?_) d u h
    refine Run.raisesError_bind (emitFollow_raisesError _ t) fun _ w => ?_
    exact Run.raisesError_bind (sinkEvent_raisesError _ w) fun _ _ => Run.raisesError_done

theorem decSymBody_raised {s u : State} {d : Detail} (h : decSymBody s = .raised d u) :
    DecoderOnly s u ∧ d ≠ .none := by
  unfold decSymBody at h
  constructor
  · refine Run.of_bind_raised h (prime_within s) fun _ t ht h => ?_
    unfold decSymPrimed at h
    dsimp only at h
    split at h
    · cases h
      exact ht
    · have hnarrow : ∀ a b c, DecoderOnly t (narrow a b c t) := fun _ _ _ => rfl
      refine ht.trans (Run.of_bind_raised h (Run.within_of_trans (P := DecoderOnly) DecoderOnly.trans
        (hnarrow _ _ _) (decRenorm_within _)) ?_)
      exact fun _ _ _ hraised => by cases hraised
  · refine Run.raisesError_bind (prime_raisesError s) (fun _ t => ?_) d u h
    unfold decSymPrimed
    dsimp only
    split
    · simp
    · exact Run.raisesError_bind (decRenormLoop_raisesError _ _) fun _ _ => Run.raisesError_done

/-! SESS when a symbol command's body finishes. -/

theorem encFinishBody_done_sess {s u : State} (h : encFinishBody s = .done () u) : u.sess = .done := by
  unfold encFinishBody at h
  obtain ⟨_, _, -, h⟩ := Run.bind_eq_done.1 h
  obtain ⟨_, _, -, h⟩ := Run.bind_eq_done.1 h
  obtain ⟨_, _, -, h⟩ := Run.bind_eq_done.1 h
  cases h
  rfl

/-- DEC_SYM ends the session only at SYMBOL_EOF (42_codec.md R176). -/
theorem decSymBody_done_sess {s u : State} (h : decSymBody s = .done () u) :
    u.sess = s.sess ∨ (u.sess = .done ∧ u.res0 = s.par.symbolEof) := by
  unfold decSymBody at h
  obtain ⟨_, t, hprime, h⟩ := Run.bind_eq_done.1 h
  have ht : DecoderOnly s t := (prime_within s).1 _ t hprime
  unfold decSymPrimed at h
  dsimp only at h
  split at h
  · cases h
  · obtain ⟨_, w, hloop, h⟩ := Run.bind_eq_done.1 h
    have hnarrow : ∀ a b c, DecoderOnly s (narrow a b c t) := fun _ _ _ => ht.trans rfl
    have hw : DecoderOnly s w := (hnarrow _ _ _).trans ((decRenorm_within _).1 _ w hloop)
    have hpar : w.par = s.par := hw.keeps.2.2
    have hsess : w.sess = s.sess := by
      unfold DecoderOnly at hw
      rw [hw]
    cases h
    unfold decSymEnd
    dsimp only
    split
    next heof =>
      refine .inr ⟨rfl, ?_⟩
      rw [← hpar]
      exact (congrArg word heof).trans (word_toNat_self _)
    next => exact .inl hsess

/-! Every way a command can end in a next state. -/

/-- The command is a symbol command in its own session, where its errors are session-fatal (60_exceptions.md R203). -/
def IsLive (i : Instr) (s : State) : Prop :=
  ((i = .encSym ∨ i = .encFinish) ∧ s.sess = .enc) ∨ (i = .decSym ∧ s.sess = .dec)

/-- A model command may change the store and the results (41_model.md R135 to R138). -/
def ModelOnly (s t : State) : Prop :=
  t = { s with store := t.store, res0 := t.res0, res1 := t.res1, res2 := t.res2 }

/-- How a command ends (60_exceptions.md R202 to R209): an error that only reports, a new configuration, a new session, a
model command's answer, a symbol command's success, or a session-fatal error. -/
inductive CommandEnd (s : State) : Instr → State → Prop
  | rejected {i : Instr} {d : Detail} (hkind : d.kind = .invalidInput) (hlive : ¬IsLive i s) :
      CommandEnd s i (s.raise d)
  | configured (hvalid : validWidths s.arg0.toNat s.arg1.toNat s.arg2.toNat = true) :
      CommandEnd s .cfg
        (State.succeed (endSession { s with par := Params.derive s.arg0.toNat s.arg1.toNat s.arg2.toNat }))
  | startedEnc {v : Variant} (hs : s.sess ≠ .unconf) : CommandEnd s .initEnc (startSession .enc v s).succeed
  | startedDec {v : Variant} (hs : s.sess ≠ .unconf) : CommandEnd s .initDec (startSession .dec v s).succeed
  | answered {i : Instr} {u : State} (hi : i ∈ [Instr.mParams, .mTotal, .mFreq, .mSym, .mTable])
      (hmodel : s.sess.hasModel = true) (hu : ModelOnly s u) : CommandEnd s i u.succeed
  | encoded {u : State} (hs : s.sess = .enc) (hu : EncSymOnly s u) : CommandEnd s .encSym u.succeed
  | finished {u : State} (hs : s.sess = .enc) (hu : EncFinishOnly s u) (hdone : u.sess = .done) :
      CommandEnd s .encFinish u.succeed
  | decoded {u : State} (hs : s.sess = .dec) (hu : DecSymOnly s u)
      (hend : u.sess = s.sess ∨ (u.sess = .done ∧ u.res0 = s.par.symbolEof)) : CommandEnd s .decSym u.succeed
  | failedEnc {i : Instr} {d : Detail} {u : State} (hi : i = .encSym ∨ i = .encFinish) (hs : s.sess = .enc)
      (hu : EncoderOnly s u) (hd : d ≠ .none) : CommandEnd s i (u.raiseFatal d)
  | failedDec {d : Detail} {u : State} (hs : s.sess = .dec) (hu : DecoderOnly s u) (hd : d ≠ .none) :
      CommandEnd s .decSym (u.raiseFatal d)

/-- A model command ends as its body says, when what the body answers changes only the store and the results, and what it
raises is an InvalidInput. -/
theorem CommandEnd.of_modelCommand {i : Instr} (hi : i ∈ [Instr.mParams, .mTotal, .mFreq, .mSym, .mTable])
    {body : State → Except Detail State} {s t : State} (hok : ∀ u, body s = .ok u → ModelOnly s u)
    (herror : ∀ d, body s = .error d → d.kind = .invalidInput) (h : modelCommand body s = .next t) :
    CommandEnd s i t := by
  have hlive : ¬IsLive i s := by
    rintro (⟨rfl | rfl, -⟩ | ⟨rfl, -⟩) <;> simp at hi
  rcases modelCommand_eq_next.1 h with ⟨hm, ⟨u, hu, rfl⟩ | ⟨d, hd, rfl⟩⟩ | ⟨-, rfl⟩
  · exact .answered hi hm (hok u hu)
  · exact .rejected (herror d hd) hlive
  · exact .rejected rfl hlive

/-- What M_FREQ, M_SYM and M_TABLE answer after their operand check. -/
theorem ok_of_ite {c : Prop} [Decidable c] {d : Detail} {t u : State}
    (h : (if c then .error d else .ok t : Except Detail State) = .ok u) : t = u := by
  split at h
  · cases h
  · exact Except.ok.inj h

theorem error_of_ite {c : Prop} [Decidable c] {d e : Detail} {t : State}
    (h : (if c then .error d else .ok t : Except Detail State) = .error e) : d = e := by
  split at h
  · exact Except.error.inj h
  · cases h

/-- A symbol command outside its session. -/
theorem CommandEnd.of_badState {s t : State} {i : Instr} (hlive : ¬IsLive i s)
    (h : Host.Outcome.next (s.raise .badState) = (Host.Outcome.next t : Host.Outcome State Fault Refusal)) :
    CommandEnd s i t := by
  cases h
  exact .rejected rfl hlive

/-- A command that has a next state ends in one of the ways of `CommandEnd`. -/
theorem commandEnd_of_exec {i : Instr} {s t : State} (h : exec i s = .next t) : CommandEnd s i t := by
  cases i <;> rw [exec] at h
  case cfg =>
    obtain ⟨hv, hc⟩ | ⟨-, hc⟩ := execCfg_cases s <;> rw [hc] at h <;> cases h
    · exact .configured hv
    · exact .rejected rfl (by simp [IsLive])
  case initEnc =>
    obtain ⟨-, hc⟩ | ⟨hs, v, -, hc⟩ | ⟨-, -, hc⟩ := initSession_cases .enc s <;> rw [execInitEnc, hc] at h <;> cases h
    · exact .rejected rfl (by simp [IsLive])
    · exact .startedEnc hs
    · exact .rejected rfl (by simp [IsLive])
  case initDec =>
    obtain ⟨-, hc⟩ | ⟨hs, v, -, hc⟩ | ⟨-, -, hc⟩ := initSession_cases .dec s <;> rw [execInitDec, hc] at h <;> cases h
    · exact .rejected rfl (by simp [IsLive])
    · exact .startedDec hs
    · exact .rejected rfl (by simp [IsLive])
  case encSym =>
    by_cases hs : s.sess = .enc
    · rw [execEncSym_of_enc hs] at h
      obtain ⟨u, hu, rfl⟩ | ⟨d, u, hu, rfl⟩ := Run.settle_eq_next.1 h
      · exact .encoded hs ((encSymBody_within s).1 _ u hu)
      · obtain ⟨honly, hd⟩ := encSymBody_raised hu
        exact .failedEnc (.inl rfl) hs honly hd
    · rw [execEncSym_of_not_enc hs] at h
      exact .of_badState (by simp [IsLive, hs]) h
  case encFinish =>
    by_cases hs : s.sess = .enc
    · rw [execEncFinish_of_enc hs] at h
      obtain ⟨u, hu, rfl⟩ | ⟨d, u, hu, rfl⟩ := Run.settle_eq_next.1 h
      · exact .finished hs ((encFinishBody_within s).1 _ u hu) (encFinishBody_done_sess hu)
      · obtain ⟨honly, hd⟩ := encFinishBody_raised hu
        exact .failedEnc (.inr rfl) hs honly hd
    · rw [execEncFinish_of_not_enc hs] at h
      exact .of_badState (by simp [IsLive, hs]) h
  case decSym =>
    by_cases hs : s.sess = .dec
    · rw [execDecSym_of_dec hs] at h
      obtain ⟨u, hu, rfl⟩ | ⟨d, u, hu, rfl⟩ := Run.settle_eq_next.1 h
      · exact .decoded hs ((decSymBody_within s).1 _ u hu) (decSymBody_done_sess hu)
      · obtain ⟨honly, hd⟩ := decSymBody_raised hu
        exact .failedDec hs honly hd
    · rw [execDecSym_of_not_dec hs] at h
      exact .of_badState (by simp [IsLive, hs]) h
  case mParams =>
    rw [execMParams] at h
    refine .of_modelCommand (by simp) ?_ (fun d hd => by cases hd) h
    exact fun u hu => Except.ok.inj hu ▸ rfl
  case mTotal =>
    rw [execMTotal] at h
    refine .of_modelCommand (by simp) ?_ (fun d hd => by cases hd) h
    exact fun u hu => Except.ok.inj hu ▸ rfl
  case mFreq =>
    rw [execMFreq] at h
    refine .of_modelCommand (by simp) ?_ ?_ h
    · exact fun u hu => ok_of_ite hu ▸ rfl
    · exact fun d hd => error_of_ite hd ▸ rfl
  case mSym =>
    rw [execMSym] at h
    refine .of_modelCommand (by simp) ?_ ?_ h
    · exact fun u hu => ok_of_ite hu ▸ rfl
    · exact fun d hd => error_of_ite hd ▸ rfl
  case mTable =>
    rw [execMTable] at h
    refine .of_modelCommand (by simp) ?_ ?_ h
    · exact fun u hu => ok_of_ite hu ▸ rfl
    · exact fun d hd => error_of_ite hd ▸ rfl

/-- Settles O16: with SESS = UNCONF the state check of every command but CFG fails. -/
theorem onlyCfgSucceedsUnconfigured : Obligations.OnlyCfgSucceedsUnconfigured := by
  unfold Obligations.OnlyCfgSucceedsUnconfigured
  intro s i hs hi
  have hmodel : s.sess.hasModel = false := by rw [hs]; rfl
  cases i <;> rw [exec]
  case cfg => exact absurd rfl hi
  case initEnc => exact initSession_of_unconf .enc hs
  case initDec => exact initSession_of_unconf .dec hs
  case encSym => exact execEncSym_of_not_enc (by simp [hs])
  case encFinish => exact execEncFinish_of_not_enc (by simp [hs])
  case decSym => exact execDecSym_of_not_dec (by simp [hs])
  case mParams | mTotal | mFreq | mSym | mTable => exact modelCommand_of_no_model _ hmodel

/-- Settles O37: the state check, and in ENC the operand check, which raises before anything is emitted. -/
theorem encSymStaticErrors : Obligations.EncSymStaticErrors := by
  unfold Obligations.EncSymStaticErrors
  intro s
  refine ⟨execEncSym_of_not_enc, fun hs hsym => ?_⟩
  have hbody : encSymBody s = .raised .badSymbol s := if_pos hsym
  rw [exec, execEncSym_of_enc hs, hbody]
  exact ⟨_, rfl, rfl, rfl, rfl, rfl, rfl, rfl, rfl⟩

/-! Frames, command by command. -/

/-- A model command's next state is its body's answer or a report. -/
theorem modelCommand_next_cases {body : State → Except Detail State} {s t : State} (h : modelCommand body s = .next t) :
    (∃ u, body s = .ok u ∧ t = u.succeed) ∨ ∃ d, t = s.raise d := by
  rcases modelCommand_eq_next.1 h with ⟨-, hok | ⟨d, -, hd⟩⟩ | ⟨-, hd⟩
  · exact .inl hok
  · exact .inr ⟨d, hd⟩
  · exact .inr ⟨.badState, hd⟩

/-- Settles O49: each body sets the results its row names, and an error only reports. -/
theorem queryCommandsFrame : Obligations.QueryCommandsFrame := by
  unfold Obligations.QueryCommandsFrame
  intro s t
  simp only [exec, execMParams, execMTotal, execMTable]
  refine ⟨fun h => ?_, fun h => ?_, fun h => ?_⟩
  · obtain ⟨u, hu, rfl⟩ | ⟨d, rfl⟩ := modelCommand_next_cases h
    · exact Except.ok.inj hu ▸ rfl
    · rfl
  · obtain ⟨u, hu, rfl⟩ | ⟨d, rfl⟩ := modelCommand_next_cases h
    · exact Except.ok.inj hu ▸ rfl
    · rfl
  · obtain ⟨u, hu, rfl⟩ | ⟨d, rfl⟩ := modelCommand_next_cases h
    · exact ok_of_ite hu ▸ rfl
    · rfl

/-- Settles O50: each body updates the store and sets the results its row names, and an error only reports. -/
theorem countingCommandsFrame : Obligations.CountingCommandsFrame := by
  unfold Obligations.CountingCommandsFrame
  intro s t
  simp only [exec, execMFreq, execMSym]
  refine ⟨fun h => ?_, fun h => ?_⟩
  · obtain ⟨u, hu, rfl⟩ | ⟨d, rfl⟩ := modelCommand_next_cases h
    · exact ok_of_ite hu ▸ rfl
    · rfl
  · obtain ⟨u, hu, rfl⟩ | ⟨d, rfl⟩ := modelCommand_next_cases h
    · exact ok_of_ite hu ▸ rfl
    · rfl

/-- Settles O51: CFG writes the parameter registers and ends the session, an INIT starts one, and an error only
reports. -/
theorem configurationCommandsFrame : Obligations.ConfigurationCommandsFrame := by
  unfold Obligations.ConfigurationCommandsFrame
  intro s t
  constructor
  · intro h
    cases commandEnd_of_exec h with
    | rejected => rfl
    | configured => rfl
    | answered hi => simp at hi
    | failedEnc hi => simp at hi
  · rintro (h | h)
    · cases commandEnd_of_exec h with
      | rejected => rfl
      | startedEnc => rfl
      | answered hi => simp at hi
      | failedEnc hi => simp at hi
    · cases commandEnd_of_exec h with
      | rejected => rfl
      | startedDec => rfl
      | answered hi => simp at hi
      | failedEnc hi => simp at hi

/-- A command that ends with OK was not rejected and did not fail. -/
theorem kind_ne_ok_of_invalidInput {d : Detail} (h : d.kind = .invalidInput) : d.kind ≠ .ok := by
  rw [h]
  exact ErrKind.noConfusion

/-- Settles O52: each symbol command that succeeds changes what its body may change; the other ends are errors. -/
theorem symbolCommandsFrame : Obligations.SymbolCommandsFrame := by
  unfold Obligations.SymbolCommandsFrame
  intro s t hok
  refine ⟨fun h => ?_, fun h => ?_, fun h => ?_⟩
  · cases commandEnd_of_exec h with
    | rejected hkind => exact absurd hok (kind_ne_ok_of_invalidInput hkind)
    | answered hi => simp at hi
    | encoded _ hu =>
      obtain ⟨later, hu⟩ := hu
      rw [hu]
      rfl
    | failedEnc _ _ _ hd => exact absurd hok (Detail.kind_ne_ok hd)
  · cases commandEnd_of_exec h with
    | rejected hkind => exact absurd hok (kind_ne_ok_of_invalidInput hkind)
    | answered hi => simp at hi
    | finished _ hu hdone =>
      obtain ⟨later, hu⟩ := hu
      rw [hdone] at hu
      rw [hu]
      rfl
    | failedEnc _ _ _ hd => exact absurd hok (Detail.kind_ne_ok hd)
  · cases commandEnd_of_exec h with
    | rejected hkind => exact absurd hok (kind_ne_ok_of_invalidInput hkind)
    | answered hi => simp at hi
    | decoded _ hu _ =>
      unfold DecSymOnly at hu
      rw [hu]
      rfl
    | failedEnc hi => simp at hi
    | failedDec _ _ hd => exact absurd hok (Detail.kind_ne_ok hd)

/-- A command in its live session that ends with an error has failed. -/
theorem failed_of_isLive {i : Instr} {s t : State} (hlive : IsLive i s) (h : exec i s = .next t) (herr : t.err ≠ .ok) :
    ∃ d u, t = State.raiseFatal d u ∧ d ≠ .none ∧ (EncoderOnly s u ∨ DecoderOnly s u) := by
  cases commandEnd_of_exec h with
  | rejected _ hnot => exact absurd hlive hnot
  | failedEnc _ _ hu hd => exact ⟨_, _, rfl, hd, .inl hu⟩
  | failedDec _ hu hd => exact ⟨_, _, rfl, hd, .inr hu⟩
  | configured | startedEnc | startedDec | answered | encoded | finished | decoded => exact absurd rfl herr

/-- Settles O53: what the body had changed before it raised is the ports and the registers the error makes free. -/
theorem fatalErrorsKeepTheRest : Obligations.FatalErrorsKeepTheRest := by
  unfold Obligations.FatalErrorsKeepTheRest
  intro s t h herr
  obtain ⟨i, hlive, hexec⟩ : ∃ i, IsLive i s ∧ exec i s = .next t := by
    rcases h with ⟨hs, h | h⟩ | ⟨hs, h⟩
    · exact ⟨_, .inl ⟨.inl rfl, hs⟩, h⟩
    · exact ⟨_, .inl ⟨.inr rfl, hs⟩, h⟩
    · exact ⟨_, .inr ⟨rfl, hs⟩, h⟩
  obtain ⟨d, u, rfl, -, ⟨later, hu⟩ | hu⟩ := failed_of_isLive hlive hexec herr
  · refine ⟨rfl, rfl, ?_, later, ?_⟩
    · rw [hu]
      rfl
    · rw [hu]
      rfl
  · unfold DecoderOnly at hu
    refine ⟨rfl, rfl, ?_, [], ?_⟩
    · rw [hu]
      rfl
    · rw [hu]
      simp

/-- Settles O54: outside the live session a command's only error end is to report. -/
theorem otherErrorsChangeOnlyStatus : Obligations.OtherErrorsChangeOnlyStatus := by
  unfold Obligations.OtherErrorsChangeOnlyStatus
  intro s t i h herr henc hdec
  cases commandEnd_of_exec h with
  | rejected hkind =>
    rw [State.raise, hkind]
  | failedEnc hi hs => exact absurd hs (henc hi)
  | failedDec hs => exact absurd hs (hdec rfl)
  | configured | startedEnc | startedDec | answered | encoded | finished | decoded => exact absurd rfl herr

/-- What every end of a command leaves as it was. -/
structure KeepsOperands (s t : State) : Prop where
  arg0 : t.arg0 = s.arg0
  arg1 : t.arg1 = s.arg1
  arg2 : t.arg2 = s.arg2
  inputs : t.inputs = s.inputs
  reads : t.reads = s.reads

theorem keepsOperands_of_exec {i : Instr} {s t : State} (h : exec i s = .next t) : KeepsOperands s t := by
  cases commandEnd_of_exec h with
  | rejected | configured | startedEnc | startedDec => exact ⟨rfl, rfl, rfl, rfl, rfl⟩
  | answered _ _ hu =>
    unfold ModelOnly at hu
    rw [hu]
    exact ⟨rfl, rfl, rfl, rfl, rfl⟩
  | encoded _ hu =>
    obtain ⟨later, hu⟩ := hu
    rw [hu]
    exact ⟨rfl, rfl, rfl, rfl, rfl⟩
  | finished _ hu _ =>
    obtain ⟨later, hu⟩ := hu
    rw [hu]
    exact ⟨rfl, rfl, rfl, rfl, rfl⟩
  | decoded _ hu _ =>
    unfold DecSymOnly at hu
    rw [hu]
    exact ⟨rfl, rfl, rfl, rfl, rfl⟩
  | failedEnc _ _ hu _ =>
    obtain ⟨later, hu⟩ := hu
    rw [hu]
    exact ⟨rfl, rfl, rfl, rfl, rfl⟩
  | failedDec _ hu _ =>
    unfold DecoderOnly at hu
    rw [hu]
    exact ⟨rfl, rfl, rfl, rfl, rfl⟩

/-- An error leaves the results as they were (60_exceptions.md R204, R205). -/
theorem results_of_error {i : Instr} {s t : State} (h : exec i s = .next t) (herr : t.err ≠ .ok) :
    t.res0 = s.res0 ∧ t.res1 = s.res1 ∧ t.res2 = s.res2 := by
  cases commandEnd_of_exec h with
  | rejected => exact ⟨rfl, rfl, rfl⟩
  | failedEnc _ _ hu _ =>
    obtain ⟨later, hu⟩ := hu
    rw [hu]
    exact ⟨rfl, rfl, rfl⟩
  | failedDec _ hu _ =>
    unfold DecoderOnly at hu
    rw [hu]
    exact ⟨rfl, rfl, rfl⟩
  | configured | startedEnc | startedDec | answered | encoded | finished | decoded => exact absurd rfl herr

/-- ERR is the kind of DETAIL after every command (60_exceptions.md R201, R202, R209). -/
theorem statusInv_of_exec {i : Instr} {s t : State} (h : exec i s = .next t) : StatusInv t := by
  cases commandEnd_of_exec h <;> rfl

/-- Settles O55: every end keeps the operands and the outside, an error keeps the results, and OK is the kind of NONE
alone. -/
theorem everyCommandFrame : Obligations.EveryCommandFrame := by
  unfold Obligations.EveryCommandFrame
  intro s t i h
  obtain ⟨h0, h1, h2, hin, hreads⟩ := keepsOperands_of_exec h
  refine ⟨h0, h1, h2, hin, hreads, results_of_error h, fun hok => ?_⟩
  by_contra hd
  exact Detail.kind_ne_ok hd ((statusInv_of_exec h).symm.trans hok)

/-! Every way a step can end in a next state. -/

/-- A step that runs no command and takes no reset or source: at most the record of reads, the draw counter, an operand
register and the report of an illegal word change. -/
def QuietStep (s t : State) : Prop :=
  t = { s with
    arg0 := t.arg0, arg1 := t.arg1, arg2 := t.arg2, err := t.err, detail := t.detail, inputs := t.inputs
    reads := t.reads, draws := t.draws }
  ∧ (StatusInv s → StatusInv t)

/-- How a step ends (20_memory.md R61 to R65, R69, 70_reset_and_hazards.md R230, R232). -/
inductive StepEnd (s t : State) : Prop
  | quiet (h : QuietStep s t)
  | command {rest : List HostEvent} {i : Instr} (hin : s.inputs = .write 0x000 64 (encode i) :: rest)
      (hexec : exec i { s with inputs := rest } = .next t)
  | reset {rest : List HostEvent} (hin : s.inputs = .reset :: rest) (ht : t = hardwareReset { s with inputs := rest })
  | source {rest : List HostEvent} {p : SourcePort} (hin : s.inputs = .setSource p :: rest)
      (ht : t = { s with inputs := rest, source := p })

theorem hostRead_quiet (r : HostReg) (s : State) (rest : List HostEvent) :
    QuietStep s (hostRead r { s with inputs := rest }) := by
  obtain ⟨v, h⟩ | ⟨v, h⟩ := hostRead_cases r { s with inputs := rest } <;> rw [h] <;> exact ⟨rfl, id⟩

/-- A step that has a next state ends in one of the ways of `StepEnd`. -/
theorem stepEnd_of_step {s t : State} (h : step s = .next t) : StepEnd s t := by
  obtain ⟨-, hidle⟩ | ⟨e, rest, hin, hserve⟩ := step_cases s
  · rw [hidle] at h
    cases h
    exact .quiet ⟨rfl, id⟩
  rw [hserve] at h
  obtain ⟨off, w, rfl, -, rfl⟩ | ⟨off, w, v, rfl, hacc, hwrite⟩ | ⟨rfl, rfl⟩ | ⟨p, rfl, -, rfl⟩ := serve_eq_next h
  · exact .quiet (hostRead_quiet _ s rest)
  · obtain ⟨hreg, hw⟩ | ⟨-, hw⟩ | ⟨-, hw⟩ | ⟨-, hw⟩ | hw := hostWrite_cases (regAt off) v { s with inputs := rest } <;>
      rw [hw] at hwrite
    · obtain rfl : off = 0 := regAt_eq_cmd.1 hreg
      obtain ⟨rfl, -⟩ := accessWellFormed_iff.1 hacc
      obtain ⟨i, hi, hissue⟩ | ⟨-, hissue⟩ := issue_cases v { s with inputs := rest } <;> rw [hissue] at hwrite
      · obtain rfl := eq_encode_of_decode hi
        exact .command hin hwrite
      · cases hwrite
        exact .quiet ⟨rfl, fun _ => rfl⟩
    all_goals
      cases hwrite
      exact .quiet ⟨rfl, id⟩
  · exact .reset hin rfl
  · exact .source hin rfl

/-! Whole-machine rules. -/

/-- A command changes a parameter register only as CFG with OK (10_state.md R21). -/
theorem par_of_exec {i : Instr} {s t : State} (h : exec i s = .next t) : t.par = s.par ∨ (i = .cfg ∧ t.err = .ok) := by
  cases commandEnd_of_exec h with
  | configured => exact .inr ⟨rfl, rfl⟩
  | rejected | startedEnc | startedDec => exact .inl rfl
  | answered _ _ hu =>
    unfold ModelOnly at hu
    exact .inl (by rw [hu]; rfl)
  | encoded _ hu =>
    obtain ⟨later, hu⟩ := hu
    exact .inl (by rw [hu]; rfl)
  | finished _ hu _ => exact .inl hu.keeps.2.2
  | decoded _ hu _ =>
    unfold DecSymOnly at hu
    exact .inl (by rw [hu]; rfl)
  | failedEnc _ _ hu _ => exact .inl hu.keeps.2.2
  | failedDec _ hu _ => exact .inl hu.keeps.2.2

/-- Settles O56: of the ways a step can end only reset and a command touch the parameter registers, and of the commands
only CFG with OK. -/
theorem onlyCfgOrResetWritesParameters : Obligations.OnlyCfgOrResetWritesParameters := by
  unfold Obligations.OnlyCfgOrResetWritesParameters
  intro s t h hne
  cases stepEnd_of_step h with
  | quiet hq =>
    refine absurd ?_ hne
    rw [hq.1]
  | @command rest i hin hexec =>
    obtain hpar | ⟨rfl, hok⟩ := par_of_exec hexec
    · exact absurd hpar hne
    · exact ⟨rest, .inl ⟨hin, hok⟩⟩
  | @reset rest hin _ => exact ⟨rest, .inr hin⟩
  | source _ ht =>
    refine absurd ?_ hne
    rw [ht]

/-- Settles O57: reset leads to UNCONF; of the commands CFG leads to READY, the INIT commands to their session,
ENC_FINISH and a DEC_SYM of SYMBOL_EOF to DONE, and a session-fatal error to FAILED; every other end keeps SESS. -/
theorem sessionChangesFollowTheTable : Obligations.SessionChangesFollowTheTable := by
  unfold Obligations.SessionChangesFollowTheTable
  intro s t h hne
  cases stepEnd_of_step h with
  | quiet hq =>
    refine absurd ?_ hne
    rw [hq.1]
  | reset hin ht =>
    rw [ht, hin]
    rfl
  | source _ ht =>
    refine absurd ?_ hne
    rw [ht]
  | @command rest i hin hexec =>
    rw [hin, List.head?_cons]
    cases commandEnd_of_exec hexec with
    | rejected => exact absurd rfl hne
    | configured => rfl
    | startedEnc => rfl
    | startedDec => rfl
    | answered _ _ hu =>
      unfold ModelOnly at hu
      exact absurd (by rw [hu]; rfl) hne
    | encoded _ hu =>
      obtain ⟨later, hu⟩ := hu
      exact absurd (by rw [hu]; rfl) hne
    | finished hs _ hdone =>
      rw [State.succeed_sess, hdone]
      exact .inl ⟨hs, rfl⟩
    | decoded hs _ hend =>
      obtain hsame | ⟨hdone, heof⟩ := hend
      · exact absurd hsame hne
      · rw [State.succeed_sess, hdone]
        exact .inr ⟨hs, rfl, heof⟩
    | failedEnc hi hs _ hd =>
      refine ⟨Detail.kind_ne_ok hd, .inl ⟨hs, ?_⟩⟩
      rcases hi with rfl | rfl
      · exact .inl rfl
      · exact .inr rfl
    | failedDec hs _ hd => exact ⟨Detail.kind_ne_ok hd, .inr ⟨hs, rfl⟩⟩

/-- What a step may do at the ports: add to the sink's record in ENC, move the source in DEC. -/
def PortsFollow (s t : State) : Prop :=
  (∃ later : List SinkEvent, t.sinkLog = s.sinkLog ++ later ∧ (later ≠ [] → s.sess = .enc))
    ∧ (t.source ≠ s.source → s.sess = .dec)

theorem PortsFollow.of_same {s t : State} (hlog : t.sinkLog = s.sinkLog) (hsource : t.source = s.source) :
    PortsFollow s t :=
  ⟨⟨[], by rw [hlog, List.append_nil], fun h => absurd rfl h⟩, fun h => absurd hsource h⟩

theorem PortsFollow.of_enc {s t : State} (hs : s.sess = .enc) {later : List SinkEvent}
    (hlog : t.sinkLog = s.sinkLog ++ later) (hsource : t.source = s.source) : PortsFollow s t :=
  ⟨⟨later, hlog, fun _ => hs⟩, fun h => absurd hsource h⟩

theorem PortsFollow.of_dec {s t : State} (hs : s.sess = .dec) (hlog : t.sinkLog = s.sinkLog) : PortsFollow s t :=
  ⟨⟨[], by rw [hlog, List.append_nil], fun h => absurd rfl h⟩, fun _ => hs⟩

theorem portsFollow_of_exec {i : Instr} {s t : State} (h : exec i s = .next t) : PortsFollow s t := by
  cases commandEnd_of_exec h with
  | rejected | configured | startedEnc | startedDec => exact .of_same rfl rfl
  | answered _ _ hu =>
    unfold ModelOnly at hu
    exact .of_same (by rw [hu]; rfl) (by rw [hu]; rfl)
  | encoded hs hu =>
    obtain ⟨later, hu⟩ := hu
    exact .of_enc hs (later := later) (by rw [hu]; rfl) (by rw [hu]; rfl)
  | finished hs hu _ =>
    obtain ⟨later, hu⟩ := hu
    exact .of_enc hs (later := later) (by rw [hu]; rfl) (by rw [hu]; rfl)
  | decoded hs hu _ =>
    unfold DecSymOnly at hu
    exact .of_dec hs (by rw [hu]; rfl)
  | failedEnc _ hs hu _ =>
    obtain ⟨later, hu⟩ := hu
    exact .of_enc hs (later := later) (by rw [hu]; rfl) (by rw [hu]; rfl)
  | failedDec hs hu _ =>
    unfold DecoderOnly at hu
    exact .of_dec hs (by rw [hu]; rfl)

/-- Settles O58: only a command of the live session touches a port, and the environment's event the source. -/
theorem portTrafficFollowsTheSession : Obligations.PortTrafficFollowsTheSession := by
  unfold Obligations.PortTrafficFollowsTheSession
  intro s t h
  cases stepEnd_of_step h with
  | quiet hq =>
    obtain ⟨hlog, hsource⟩ : PortsFollow s t := .of_same (by rw [hq.1]) (by rw [hq.1])
    exact ⟨hlog, fun hne => .inl (hsource hne)⟩
  | command _ hexec =>
    obtain ⟨hlog, hsource⟩ := portsFollow_of_exec hexec
    exact ⟨hlog, fun hne => .inl (hsource hne)⟩
  | reset _ ht =>
    obtain ⟨hlog, hsource⟩ : PortsFollow s t := .of_same (by rw [ht]; rfl) (by rw [ht]; rfl)
    exact ⟨hlog, fun hne => .inl (hsource hne)⟩
  | @source _ p hin ht =>
    rw [ht, hin]
    exact ⟨⟨[], by simp, fun h => absurd rfl h⟩, fun _ => .inr ⟨p, rfl⟩⟩

end Sys2Proof.Machine

/-! The invariants along every step (10_state.md section 6), and that every command ends (42_codec.md R168,
70_reset_and_hazards.md R239). -/

namespace Sys2Proof.Machine

/-! The configuration invariants. -/

/-- The constants CFG writes are those of the widths it writes: accepted widths fit their fields
(40_configuration.md R101, R102). -/
theorem configured_of_derive {s : State} {sb fb cb : Nat} (hvalid : validWidths sb fb cb = true)
    (hpar : s.par = Params.derive sb fb cb) : Configured s := by
  obtain ⟨-, -, -, -, -, hcb⟩ := validWidths_bounds hvalid
  obtain ⟨-, -, -, hfb, -, hsb, -⟩ := validWidths_iff.1 hvalid
  have hsymbol : s.par.symbolBits.toNat = sb := by
    rw [hpar]
    exact Nat.mod_eq_of_lt (by omega)
  have hfreq : s.par.freqBits.toNat = fb := by
    rw [hpar]
    exact Nat.mod_eq_of_lt (by omega)
  have hcode : s.par.codeBits.toNat = cb := by
    rw [hpar]
    exact Nat.mod_eq_of_lt (by omega)
  unfold Configured
  rw [hsymbol, hfreq, hcode]
  exact ⟨hvalid, hpar⟩

/-- A command that leaves a configured block with a model keeps the parameter invariant, and the idle invariant says
nothing there. -/
theorem config_of_hasModel {s t : State} (hparam : ParamInv s) (hs : s.sess ≠ .unconf) (hpar : t.par = s.par)
    (hmodel : t.sess.hasModel = true) : ParamInv t ∧ IdleInv t := by
  refine ⟨⟨fun h => ?_, fun _ => ?_⟩, fun h => ?_⟩
  · rw [h] at hmodel
    cases hmodel
  · unfold Configured
    rw [hpar]
    exact hparam.2 hs
  · rw [hmodel] at h
    cases h

theorem ne_unconf_of_hasModel {s : State} (h : s.sess.hasModel = true) : s.sess ≠ .unconf := by
  intro hs
  rw [hs] at h
  cases h

/-- Every command keeps the parameter and the idle invariant. -/
theorem config_of_exec {i : Instr} {s t : State} (hparam : ParamInv s) (hidle : IdleInv s) (h : exec i s = .next t) :
    ParamInv t ∧ IdleInv t := by
  cases commandEnd_of_exec h with
  | rejected => exact ⟨hparam, hidle⟩
  | configured hvalid =>
    exact ⟨⟨nofun, fun _ => configured_of_derive hvalid rfl⟩,
      fun _ => ⟨rfl, rfl, rfl, rfl, rfl, rfl, rfl, rfl⟩⟩
  | startedEnc hs => exact config_of_hasModel hparam hs rfl rfl
  | startedDec hs => exact config_of_hasModel hparam hs rfl rfl
  | answered _ hm hu =>
    unfold ModelOnly at hu
    exact config_of_hasModel hparam (ne_unconf_of_hasModel hm) (by rw [hu]; rfl) (by rw [hu]; exact hm)
  | encoded hs hu =>
    obtain ⟨later, hu⟩ := hu
    have hm : s.sess.hasModel = true := by rw [hs]; rfl
    exact config_of_hasModel hparam (ne_unconf_of_hasModel hm) (by rw [hu]; rfl) (by rw [hu]; exact hm)
  | finished hs hu hdone =>
    have hm : s.sess.hasModel = true := by rw [hs]; rfl
    exact config_of_hasModel hparam (ne_unconf_of_hasModel hm) hu.keeps.2.2 (by rw [State.succeed_sess, hdone]; rfl)
  | decoded hs hu hend =>
    have hm : s.sess.hasModel = true := by rw [hs]; rfl
    refine config_of_hasModel hparam (ne_unconf_of_hasModel hm) ?_ ?_
    · unfold DecSymOnly at hu
      rw [hu]
      rfl
    · rw [State.succeed_sess]
      obtain hsame | ⟨hdone, -⟩ := hend
      · rw [hsame]
        exact hm
      · rw [hdone]
        rfl
  | failedEnc _ hs hu _ => exact config_of_hasModel hparam (by simp [hs]) hu.keeps.2.2 rfl
  | failedDec hs hu _ => exact config_of_hasModel hparam (by simp [hs]) hu.keeps.2.2 rfl

/-- Settles O46: a command keeps the invariants by how it ends, reset establishes them, and the other steps touch only
the outside, the operands and the report. -/
theorem stepKeepsConfiguration : Obligations.StepKeepsConfiguration := by
  unfold Obligations.StepKeepsConfiguration
  intro s t hstatus hparam hidle h
  cases stepEnd_of_step h with
  | quiet hq =>
    refine ⟨hq.2 hstatus, ?_⟩
    rw [hq.1]
    exact ⟨hparam, hidle⟩
  | @command rest i _ hexec =>
    exact ⟨statusInv_of_exec hexec, config_of_exec (s := { s with inputs := rest }) hparam hidle hexec⟩
  | reset _ ht =>
    rw [ht]
    exact ⟨rfl, ⟨fun _ => rfl, fun h => absurd rfl h⟩, fun _ => ⟨rfl, rfl, rfl, rfl, rfl, rfl, rfl, rfl⟩⟩
  | source _ ht =>
    rw [ht]
    exact ⟨hstatus, hparam, hidle⟩

/-! The invariants of a session. -/

/-- The part of `Inv` that speaks of a session. -/
structure SessionInv (s : State) : Prop where
  model : ModelInv s
  range : RangeInv s
  window : WindowInv s

theorem Inv.sessionInv {s : State} (h : Inv s) : SessionInv s := by
  obtain ⟨-, -, -, hmodel, hrange, hwindow⟩ := h
  exact ⟨hmodel, hrange, hwindow⟩

theorem Inv.configured {s : State} (h : Inv s) (hs : s.sess ≠ .unconf) : Configured s := by
  obtain ⟨-, ⟨-, hconf⟩, -⟩ := h
  exact hconf hs

/-- With no session there is nothing to meet. -/
theorem SessionInv.of_ready {s : State} (hs : s.sess = .ready) : SessionInv s := by
  refine ⟨fun h => ?_, fun h => ?_, fun h => ?_, fun h => ?_⟩ <;> simp [hs, Sess.hasModel] at h

/-- A failed session keeps its model and nothing else of it is promised. -/
theorem SessionInv.of_failed {s : State} (hs : s.sess = .failed) (hmodel : ModelOk s) : SessionInv s := by
  refine ⟨fun _ => hmodel, fun h => ?_, fun h => ?_, fun h => ?_⟩ <;> simp [hs] at h

/-- A session that is done keeps its model and its range. -/
theorem SessionInv.of_done {s : State} (hs : s.sess = .done) (hmodel : ModelOk s) (hrange : RangeOk s) :
    SessionInv s := by
  refine ⟨fun _ => hmodel, fun _ => hrange, fun h => ?_, fun h => ?_⟩ <;> simp [hs] at h

theorem SessionInv.of_enc {s : State} (hs : s.sess = .enc) (hmodel : ModelOk s) (hrange : RangeOk s)
    (hclear : s.code = 0 ∧ s.tail = 0 ∧ s.primed = false) : SessionInv s := by
  refine ⟨fun _ => hmodel, fun _ => hrange, fun h => ?_, fun _ => hclear⟩
  simp [hs] at h

theorem SessionInv.of_dec {s : State} (hs : s.sess = .dec) (hmodel : ModelOk s) (hrange : RangeOk s)
    (hwindow : WindowOk s) : SessionInv s := by
  refine ⟨fun _ => hmodel, fun _ => hrange, fun _ => hwindow, fun h => ?_⟩
  simp [hs] at h

/-- A fresh session of either variant has every frequency 1 (41_model.md R121). -/
theorem freqs_startSession (kind : Sess) (v : Variant) (s : State) :
    (startSession kind v s).succeed.store.freqs = List.replicate s.par.symbolCount.toNat 1 :=
  (congrArg Store.freqs (Store.init_eq_ofFreqs v s.par.symbolCount.isLt)).trans
    (Store.freqs_ofFreqs v (by rw [List.length_replicate]; exact s.par.symbolCount.isLt))

/-- A model of all ones meets the model invariant of a configured block (41_model.md R121, R126). -/
theorem modelOk_startSession {s : State} (hcfg : Configured s) (kind : Sess) (v : Variant) :
    ModelOk (startSession kind v s).succeed := by
  have hroom := hcfg.symbolCount_add_two_le
  unfold ModelOk
  rw [freqs_startSession]
  refine ⟨Store.init_eq_ofFreqs v s.par.symbolCount.isLt, List.length_replicate,
    fun f hf => (List.eq_of_mem_replicate hf).ge, ?_⟩
  rw [List.sum_replicate, smul_eq_mul, Nat.mul_one]
  exact Nat.le_of_add_right_le hroom

/-- The whole code range has no band to scale. -/
theorem rangeOk_startSession {s : State} (hcfg : Configured s) (kind : Sess) (v : Variant) :
    RangeOk (startSession kind v s).succeed := by
  obtain ⟨hhalf, hthree, hfull, -⟩ := hcfg.quarters
  have hquarter := hcfg.freqMax_lt
  refine ⟨Nat.zero_le _, Nat.le_refl _, ?_⟩
  rw [band_eq_bandOf]
  rcases bandOf_cases s.par 0 s.par.codeMax.toNat with ⟨-, hb⟩ | ⟨-, hb⟩ | ⟨-, hb⟩ | ⟨e, -⟩
  case inr.inr.inr => exact e
  all_goals omega

/-- A model command keeps the model invariant: a query leaves the store, and a count is Update of a symbol. -/
theorem modelOk_of_model_command {i : Instr} (hi : i ∈ [Instr.mParams, .mTotal, .mFreq, .mSym, .mTable]) {s t : State}
    (hinv : Inv s) (hm : s.sess.hasModel = true) (h : exec i s = .next t) : ModelOk t := by
  have hok := hinv.modelOk hm
  have hcfg := hinv.configured (ne_unconf_of_hasModel hm)
  obtain ⟨hparams, htotal, htable⟩ := queryCommandsFrame s t
  simp only [List.mem_cons, List.not_mem_nil, or_false] at hi
  rcases hi with rfl | rfl | rfl | rfl | rfl
  · rw [hparams h]
    exact hok.congr rfl rfl rfl
  · rw [htotal h]
    exact hok.congr rfl rfl rfl
  · obtain ⟨hcount, hbad, -⟩ := mFreqReturnsRangeAndCounts s hinv
    rcases Nat.lt_or_ge s.arg0.toNat s.par.symbolCount.toNat with hsym | hsym
    · rw [hcount hm hsym] at h
      cases h
      exact hok.of_update hcfg hsym rfl rfl rfl
    · rw [hbad hm hsym] at h
      cases h
      exact hok.congr rfl rfl rfl
  · obtain ⟨hcount, hbad, -⟩ := mSymReturnsOwnerAndCounts s hinv
    rcases Nat.lt_or_ge s.arg0.toNat s.store.freqs.sum with hval | hval
    · obtain ⟨sym, hsym, -, -, hexec⟩ := hcount hm hval
      rw [hexec] at h
      cases h
      exact hok.of_update hcfg hsym rfl rfl rfl
    · rw [hbad hm hval] at h
      cases h
      exact hok.congr rfl rfl rfl
  · rw [htable h]
    exact hok.congr rfl rfl rfl

/-- An ENC_SYM that ends with OK has encoded a symbol along its scaling steps. -/
theorem Inv.encSym_ok {s t : State} (hinv : Inv s) (hs : s.sess = .enc) (h : exec .encSym s = .next t)
    (hok : t.err = .ok) :
    s.arg0.toNat < s.par.symbolCount.toNat ∧ ∃ steps lo hi,
      ScalesTo s.par (narrowLow s (cum s.store.freqs s.arg0.toNat) s.store.freqs.sum)
        (narrowHigh s (cum s.store.freqs (s.arg0.toNat + 1)) s.store.freqs.sum) steps lo hi
      ∧ pendingFits s.pending.toNat steps = true ∧ t = encSymNext s steps lo hi := by
  rcases Nat.lt_or_ge s.arg0.toNat s.par.symbolCount.toNat with hsym | hsym
  · rcases (hinv.liveSession (.inl hs)).encSym_cases hs hsym with
      ⟨steps, lo, hi, hscale, hfits, hexec⟩ | ⟨d, u, hd, hexec⟩ | ⟨-, hexec⟩ <;> rw [hexec] at h <;> cases h
    · exact ⟨hsym, steps, lo, hi, hscale, hfits, rfl⟩
    · exact absurd hok (Detail.kind_ne_ok hd)
  · obtain ⟨-, hbad⟩ := encSymStaticErrors s
    obtain ⟨u, hexec, herr, -⟩ := hbad hs hsym
    rw [hexec] at h
    cases h
    rw [hok] at herr
    cases herr

/-- A DEC_SYM that ends with OK has decoded the owner of the decoded value along its scaling steps. -/
theorem Inv.decSym_ok {s t : State} (hinv : Inv s) (hs : s.sess = .dec) (h : exec .decSym s = .next t)
    (hok : t.err = .ok) :
    ∃ sym steps lo hi, sym < s.par.symbolCount.toNat ∧ cum s.store.freqs sym ≤ primedValue s
      ∧ primedValue s < cum s.store.freqs (sym + 1)
      ∧ ScalesTo s.par (narrowLow s (cum s.store.freqs sym) s.store.freqs.sum)
        (narrowHigh s (cum s.store.freqs (sym + 1)) s.store.freqs.sum) steps lo hi
      ∧ primeBits s + steps.length ≤ (codeBits s).length ∧ t = decSymNext s sym steps lo hi := by
  rcases hinv.decSym_cases hs with ⟨sym, steps, lo, hi, hsym, hlo, hhi, hscale, hbits, hexec⟩ | ⟨d, u, hd, hexec⟩ | ⟨-, hexec⟩ <;>
    rw [hexec] at h <;> cases h
  · exact ⟨sym, steps, lo, hi, hsym, hlo, hhi, hscale, hbits, rfl⟩
  · rcases hd with rfl | rfl <;> cases hok

theorem SessionInv.encSymNext {s : State} (hinv : Inv s) (hs : s.sess = .enc)
    (hsym : s.arg0.toNat < s.par.symbolCount.toNat) {steps : List Band} {lo hi : Nat}
    (hscale : ScalesTo s.par (narrowLow s (cum s.store.freqs s.arg0.toNat) s.store.freqs.sum)
      (narrowHigh s (cum s.store.freqs (s.arg0.toNat + 1)) s.store.freqs.sum) steps lo hi) :
    SessionInv (Machine.encSymNext s steps lo hi) := by
  have hlive := hinv.liveSession (.inl hs)
  obtain ⟨-, -, -, -, -, -, hclear⟩ := hinv
  exact .of_enc hs (hlive.model.of_update hlive.configured hsym rfl rfl rfl)
    (hlive.rangeOk_of_scalesTo hsym hscale rfl rfl rfl) (hclear hs)

theorem SessionInv.decSymNext {s : State} (hinv : Inv s) (hs : s.sess = .dec) {sym : Nat}
    (hsym : sym < s.par.symbolCount.toNat) (hlo : cum s.store.freqs sym ≤ primedValue s)
    (hhi : primedValue s < cum s.store.freqs (sym + 1)) {steps : List Band} {lo hi : Nat}
    (hscale : ScalesTo s.par (narrowLow s (cum s.store.freqs sym) s.store.freqs.sum)
      (narrowHigh s (cum s.store.freqs (sym + 1)) s.store.freqs.sum) steps lo hi)
    (hbits : primeBits s + steps.length ≤ (codeBits s).length) : SessionInv (Machine.decSymNext s sym steps lo hi) := by
  have h := hinv.decodeSession hs
  have hmodel : ModelOk (Machine.decSymNext s sym steps lo hi) := h.model.of_update h.configured hsym rfl rfl rfl
  have hrange : RangeOk (Machine.decSymNext s sym steps lo hi) := h.rangeOk_of_scalesTo hsym hscale rfl rfl rfl
  by_cases heof : word sym = s.par.symbolEof
  · exact .of_done (if_pos heof) hmodel hrange
  · exact .of_dec (if_neg heof) hmodel hrange (h.windowOk_next hsym hlo hhi hscale hbits)

/-- Every command keeps the invariants of a session. -/
theorem sessionInv_of_exec {i : Instr} {s t : State} (hinv : Inv s) (h : exec i s = .next t) : SessionInv t := by
  cases commandEnd_of_exec h with
  | rejected => exact ⟨hinv.sessionInv.model, hinv.sessionInv.range, hinv.sessionInv.window⟩
  | configured => exact .of_ready rfl
  | startedEnc hs =>
    have hcfg := hinv.configured hs
    exact .of_enc rfl (modelOk_startSession hcfg _ _) (rangeOk_startSession hcfg _ _) ⟨rfl, rfl, rfl⟩
  | startedDec hs =>
    have hcfg := hinv.configured hs
    exact .of_dec rfl (modelOk_startSession hcfg _ _) (rangeOk_startSession hcfg _ _)
      ⟨rfl, Nat.zero_le _, nofun, fun _ => ⟨rfl, rfl, rfl, rfl⟩⟩
  | answered hi hm hu =>
    refine ⟨fun _ => modelOk_of_model_command hi hinv hm h, ?_, ?_⟩
    · unfold ModelOnly at hu
      rw [hu]
      exact hinv.sessionInv.range
    · unfold ModelOnly at hu
      rw [hu]
      exact hinv.sessionInv.window
  | encoded hs _ =>
    obtain ⟨hsym, steps, lo, hi, hscale, -, ht⟩ := hinv.encSym_ok hs h rfl
    rw [ht]
    exact .encSymNext hinv hs hsym hscale
  | finished hs hu hdone =>
    have hlive := hinv.liveSession (.inl hs)
    obtain ⟨hstore, hvariant, hpar⟩ := hu.keeps
    refine .of_done hdone (hlive.model.congr hstore hvariant hpar) ?_
    obtain ⟨later, hu⟩ := hu
    rw [hu]
    exact hlive.range
  | decoded hs _ _ =>
    obtain ⟨sym, steps, lo, hi, hsym, hlo, hhi, hscale, hbits, ht⟩ := hinv.decSym_ok hs h rfl
    rw [ht]
    exact .decSymNext hinv hs hsym hlo hhi hscale hbits
  | failedEnc _ hs hu _ =>
    obtain ⟨hstore, hvariant, hpar⟩ := hu.keeps
    exact .of_failed rfl ((hinv.liveSession (.inl hs)).model.congr hstore hvariant hpar)
  | failedDec hs hu _ =>
    obtain ⟨hstore, hvariant, hpar⟩ := hu.keeps
    exact .of_failed rfl ((hinv.liveSession (.inr hs)).model.congr hstore hvariant hpar)

/-- Every command keeps the invariants. -/
theorem Inv.of_exec {i : Instr} {s t : State} (hinv : Inv s) (h : exec i s = .next t) : Inv t := by
  obtain ⟨hmodel, hrange, hwindow⟩ := sessionInv_of_exec hinv h
  obtain ⟨-, hparam, hidle, -⟩ := hinv
  obtain ⟨hparam', hidle'⟩ := config_of_exec hparam hidle h
  exact ⟨statusInv_of_exec h, hparam', hidle', hmodel, hrange, hwindow⟩

/-- No invariant speaks of the outside, the operands or the draw counter. -/
theorem Inv.of_quiet {s t : State} (hinv : Inv s) (h : QuietStep s t) : Inv t := by
  obtain ⟨hsame, hkeep⟩ := h
  obtain ⟨hstatus, hrest⟩ := hinv
  refine ⟨hkeep hstatus, ?_⟩
  rw [hsame]
  exact hrest

/-- Settles O47: a command keeps the invariants by how it ends, reset establishes them, and the other steps touch
nothing they speak of. -/
theorem stepKeepsInvariants : Obligations.StepKeepsInvariants := by
  unfold Obligations.StepKeepsInvariants
  intro s t hinv h
  cases stepEnd_of_step h with
  | quiet hq => exact hinv.of_quiet hq
  | @command rest i _ hexec =>
    have hrest : Inv { s with inputs := rest } := hinv
    exact hrest.of_exec hexec
  | reset _ ht =>
    rw [ht]
    exact resetMeetsInvariants
  | source _ ht =>
    rw [ht]
    exact hinv

/-! Every command ends (42_codec.md R168, 70_reset_and_hazards.md R239). -/

/-- ENC_FINISH faults only at a sink that has stopped answering. -/
theorem encFinish_fault {s : State} (hs : s.sess = .enc) {f : Fault} (h : exec .encFinish s = .fault f) :
    f = .sinkNeverAnswers ∧ s.sink.after = none := by
  rcases Nat.lt_or_ge s.pending.toNat (2 ^ 64 - 1) with hpend | hpend
  · rw [exec_encFinish_eq hs hpend] at h
    rcases Run.bind_eq_stuck.1 (Run.settle_eq_fault.1 h) with h | ⟨_, _, -, h⟩
    · exact sinkEvents_stuck h
    · cases h
  · rw [exec_encFinish_overflow hs (Nat.le_antisymm (Nat.le_pred_of_lt s.pending.isLt) hpend)] at h
    cases h

/-- ENC_SYM faults only at a sink that has stopped answering: its renormalisation ends. -/
theorem Inv.encSym_fault {s : State} (hinv : Inv s) (hs : s.sess = .enc) {f : Fault}
    (h : exec .encSym s = .fault f) : f = .sinkNeverAnswers ∧ s.sink.after = none := by
  rcases Nat.lt_or_ge s.arg0.toNat s.par.symbolCount.toNat with hsym | hsym
  · rcases (hinv.liveSession (.inl hs)).encSym_cases hs hsym with
      ⟨steps, lo, hi, -, -, hexec⟩ | ⟨d, u, -, hexec⟩ | ⟨hafter, hexec⟩ <;> rw [hexec] at h <;> cases h
    exact ⟨rfl, hafter⟩
  · obtain ⟨-, hbad⟩ := encSymStaticErrors s
    obtain ⟨u, hexec, -⟩ := hbad hs hsym
    rw [hexec] at h
    cases h

/-- DEC_SYM faults only at a source that has stopped answering: its renormalisation ends. -/
theorem Inv.decSym_fault {s : State} (hinv : Inv s) (hs : s.sess = .dec) {f : Fault}
    (h : exec .decSym s = .fault f) : f = .sourceNeverAnswers ∧ s.source.after = none := by
  rcases hinv.decSym_cases hs with ⟨sym, steps, lo, hi, -, -, -, -, -, hexec⟩ | ⟨d, u, -, hexec⟩ | ⟨hafter, hexec⟩ <;>
    rw [hexec] at h <;> cases h
  exact ⟨rfl, hafter⟩

/-- A command outside its live session never waits. -/
theorem isLive_of_fault {i : Instr} {s : State} {f : Fault} (h : exec i s = .fault f) : IsLive i s := by
  have hmodelCommand : ∀ body, modelCommand body s ≠ .fault f := by
    intro body hb
    obtain ⟨t, ht⟩ := modelCommand_isNext body s
    rw [ht] at hb
    cases hb
  have hinit : ∀ kind, initSession kind s ≠ .fault f := by
    intro kind hb
    obtain ⟨-, hc⟩ | ⟨-, v, -, hc⟩ | ⟨-, -, hc⟩ := initSession_cases kind s <;> rw [hc] at hb <;> cases hb
  have hsymbol : ∀ (kind : Sess) (r : Run Unit),
      (if s.sess = kind then r.settle else .next (s.raise .badState)) = .fault f → s.sess = kind := by
    intro kind r hb
    by_contra hne
    rw [if_neg hne] at hb
    cases hb
  cases i <;> rw [exec] at h
  case cfg =>
    obtain ⟨-, hc⟩ | ⟨-, hc⟩ := execCfg_cases s <;> rw [hc] at h <;> cases h
  case initEnc => exact absurd h (hinit .enc)
  case initDec => exact absurd h (hinit .dec)
  case encSym => exact .inl ⟨.inl rfl, hsymbol _ _ h⟩
  case encFinish => exact .inl ⟨.inr rfl, hsymbol _ _ h⟩
  case decSym => exact .inr ⟨rfl, hsymbol _ _ h⟩
  case mParams | mTotal | mFreq | mSym | mTable => exact absurd h (hmodelCommand _)

/-- Settles O48: no command is refused, and a command that waits is a symbol command at a port that has stopped
answering. -/
theorem commandsEndUnlessPortsHang : Obligations.CommandsEndUnlessPortsHang := by
  unfold Obligations.CommandsEndUnlessPortsHang
  intro s i hinv
  refine ⟨exec_ne_refused i s, fun f h => ?_⟩
  obtain ⟨rfl | rfl, hs⟩ | ⟨rfl, hs⟩ := isLive_of_fault h
  · obtain ⟨hf, hafter⟩ := hinv.encSym_fault hs h
    exact .inl ⟨hf, hs, hafter, .inl rfl⟩
  · obtain ⟨hf, hafter⟩ := encFinish_fault hs h
    exact .inl ⟨hf, hs, hafter, .inr rfl⟩
  · obtain ⟨hf, hafter⟩ := hinv.decSym_fault hs h
    exact .inr ⟨hf, hs, hafter, rfl⟩

end Sys2Proof.Machine

/-! The round trip (42_codec.md R180). The encoder's remaining output, seen with the bits that are still pending left out,
is a stream whose first CODE_BITS bits are a value in the encoder's range; along the scaling steps this view moves as the
decoder's window does, so the decoder finds the symbol the encoder has coded. -/

namespace Sys2Proof.Machine

/-! Windows of a stream. -/

/-- The value of the first n bits, the first most significant (20_memory.md R67, 42_codec.md R173). -/
def windowCode (n : Nat) (V : List Bool) : Nat := shiftIn 0 (V.take n)

theorem shiftIn_append_singleton (c : Nat) (L : List Bool) (y : Bool) :
    shiftIn c (L ++ [y]) = 2 * shiftIn c L + y.toNat := by
  simp [shiftIn]

/-- A bit sequence is a number to the base 2, above what was there before. -/
theorem shiftIn_eq_add (L : List Bool) : ∀ c : Nat, shiftIn c L = c * 2 ^ L.length + shiftIn 0 L := by
  induction L with
  | nil => exact fun c => by simp [shiftIn]
  | cons b L ih =>
    intro c
    have hstep : ∀ x, shiftIn x (b :: L) = (2 * x + b.toNat) * 2 ^ L.length + shiftIn 0 L := fun x => ih _
    rw [hstep c, hstep 0, List.length_cons, pow_succ]
    ring

/-- A stream longer than n bits: its first n, the next, and the rest. -/
theorem exists_split_at {V : List Bool} {n : Nat} (h : n < V.length) :
    ∃ A y C, V = A ++ y :: C ∧ A.length = n :=
  ⟨V.take n, V[n], V.drop (n + 1), by simp, by simp [Nat.le_of_lt h]⟩

/-- How the view of a stream moves in a scaling step: E1 and E2 drop the bit they resolve, E3 the bit after it
(42_codec.md R165 to R167, R175). -/
inductive ViewStep : Band → List Bool → List Bool → Prop
  | e1 (V : List Bool) : ViewStep .e1 (false :: V) V
  | e2 (V : List Bool) : ViewStep .e2 (true :: V) V
  | e3 (b : Bool) (T : List Bool) : ViewStep .e3 (b :: (!b) :: T) (b :: T)

/-- In a scaling step the window moves with the view by one bit: CODE less the offset, doubled, and the bit added
(42_codec.md R175). -/
theorem ViewStep.window {p : Params} {n : Nat} (hfourth : p.codeOneFourth.toNat = 2 ^ n)
    (hhalf : p.codeHalf.toNat = 2 ^ (n + 1)) {b : Band} {V V' : List Bool} (h : ViewStep b V V')
    (hlen : n + 2 < V.length) :
    ∃ y : Bool, V.drop (n + 2) = y :: V'.drop (n + 2)
      ∧ windowCode (n + 2) V' = 2 * (windowCode (n + 2) V - bandOffset p b) + y.toNat
      ∧ bandOffset p b ≤ windowCode (n + 2) V := by
  cases h with
  | e1 =>
    obtain ⟨A, y, C, rfl, hA⟩ := exists_split_at (V := V') (n := n + 1) (Nat.lt_of_succ_lt_succ hlen)
    have hold : windowCode (n + 2) (false :: (A ++ y :: C)) = shiftIn 0 A := by
      rw [windowCode, List.take_succ_cons, List.take_left' hA]
      rfl
    have hnew : windowCode (n + 2) (A ++ y :: C) = shiftIn 0 (A ++ [y]) := by
      rw [windowCode, List.append_cons, List.take_left' (by simp [hA])]
    refine ⟨y, ?_, ?_, ?_⟩
    · rw [List.drop_succ_cons, List.drop_left' hA, List.append_cons, List.drop_left' (by simp [hA])]
    · rw [hnew, hold, shiftIn_append_singleton, bandOffset, Nat.sub_zero]
    · exact Nat.zero_le _
  | e2 =>
    obtain ⟨A, y, C, rfl, hA⟩ := exists_split_at (V := V') (n := n + 1) (Nat.lt_of_succ_lt_succ hlen)
    have hold : windowCode (n + 2) (true :: (A ++ y :: C)) = 2 ^ (n + 1) + shiftIn 0 A := by
      rw [windowCode, List.take_succ_cons, List.take_left' hA]
      refine (shiftIn_eq_add A 1).trans ?_
      rw [hA, Nat.one_mul]
    have hnew : windowCode (n + 2) (A ++ y :: C) = shiftIn 0 (A ++ [y]) := by
      rw [windowCode, List.append_cons, List.take_left' (by simp [hA])]
    rw [hnew, hold, bandOffset, hhalf]
    refine ⟨y, ?_, ?_, ?_⟩
    · rw [List.drop_succ_cons, List.drop_left' hA, List.append_cons, List.drop_left' (by simp [hA])]
    · rw [shiftIn_append_singleton, Nat.add_sub_cancel_left]
    · exact Nat.le_add_right _ _
  | e3 c T =>
    obtain ⟨A, y, C, rfl, hA⟩ := exists_split_at (V := T) (n := n) (by simpa using hlen)
    have hold : windowCode (n + 2) (c :: (!c) :: (A ++ y :: C)) = (c.toNat + 1) * 2 ^ n + shiftIn 0 A := by
      rw [windowCode, List.take_succ_cons, List.take_succ_cons, List.take_left' hA]
      refine (shiftIn_eq_add A (2 * (2 * 0 + c.toNat) + (!c).toNat)).trans ?_
      rw [hA]
      cases c <;> rfl
    have hnew : windowCode (n + 2) (c :: (A ++ y :: C)) = c.toNat * 2 ^ (n + 1) + shiftIn 0 (A ++ [y]) := by
      rw [windowCode, List.take_succ_cons, List.append_cons, List.take_left' (by simp [hA])]
      refine (shiftIn_eq_add (A ++ [y]) (2 * 0 + c.toNat)).trans ?_
      rw [List.length_append, hA, Nat.mul_zero, Nat.zero_add]
      rfl
    have hsplit : (c.toNat + 1) * 2 ^ n + shiftIn 0 A - 2 ^ n = c.toNat * 2 ^ n + shiftIn 0 A := by
      rw [Nat.add_mul, Nat.one_mul]
      omega
    rw [hnew, hold, bandOffset, hfourth, hsplit]
    refine ⟨y, ?_, ?_, ?_⟩
    · rw [List.drop_succ_cons, List.drop_succ_cons, List.drop_succ_cons, List.drop_left' hA, List.append_cons,
        List.drop_left' (by simp [hA])]
    · rw [shiftIn_append_singleton, pow_succ]
      ring
    · rw [Nat.add_mul, Nat.one_mul, Nat.add_right_comm]
      exact Nat.le_add_left _ _

/-- The view along a list of scaling steps. -/
inductive Views : List Band → List Bool → List Bool → Prop
  | nil (V : List Bool) : Views [] V V
  | cons {b : Band} {bs : List Band} {V V₁ V' : List Bool} (h : ViewStep b V V₁) (hs : Views bs V₁ V') :
      Views (b :: bs) V V'

/-- Each step takes one bit from the view. -/
theorem Views.length_eq {steps : List Band} {V V' : List Bool} (h : Views steps V V') :
    V'.length + steps.length = V.length := by
  induction h with
  | nil V => rfl
  | cons h _ ih => cases h <;> simp only [List.length_cons] at ih ⊢ <;> omega

/-- Along the scaling steps the decoder's window moves with the view; and bounds that hold of the window after the steps
held of it before (42_codec.md R175). -/
theorem Views.window {p : Params} {n : Nat} (hfourth : p.codeOneFourth.toNat = 2 ^ n)
    (hhalf : p.codeHalf.toNat = 2 ^ (n + 1)) {steps : List Band} {V V' : List Bool} (h : Views steps V V') :
    ∀ lo hi lo' hi' : Nat, lo ≤ hi → ScalesTo p lo hi steps lo' hi' → n + 2 ≤ V'.length →
      windowAfter p (windowCode (n + 2) V) steps (V.drop (n + 2)) = windowCode (n + 2) V'
        ∧ (V.drop (n + 2)).drop steps.length = V'.drop (n + 2)
        ∧ (lo' ≤ windowCode (n + 2) V' ∧ windowCode (n + 2) V' ≤ hi' →
          lo ≤ windowCode (n + 2) V ∧ windowCode (n + 2) V ≤ hi) := by
  induction h with
  | nil V =>
    intro lo hi lo' hi' _ hscale _
    cases hscale with
    | stop => exact ⟨by simp [windowAfter], rfl, id⟩
  | @cons b bs V V₁ V' h hs ih =>
    intro lo hi lo' hi' hle hscale hlen
    cases hscale with
    | step hb hn hrest =>
      have hlen₁ := hs.length_eq
      have hlen₀ := (Views.cons h hs).length_eq
      rw [List.length_cons] at hlen₀
      obtain ⟨y, hdrop, hcode, hoff⟩ := h.window hfourth hhalf (by omega)
      have hy : y.toNat ≤ 1 := Bool.toNat_le y
      obtain ⟨hwin, hrestDrop, hbounds⟩ := ih _ _ lo' hi' (by omega) hrest hlen
      refine ⟨?_, ?_, fun hafter => ?_⟩
      · rw [hdrop, windowAfter, ← hcode, hwin]
      · rw [hdrop, List.length_cons, List.drop_succ_cons, hrestDrop]
      · obtain ⟨hlo, hhi⟩ := hbounds hafter
        rw [hcode] at hlo hhi
        have hlow : bandOffset p b ≤ lo := by
          rcases bandOf_cases p lo hi with ⟨e, -⟩ | ⟨e, -, h2⟩ | ⟨e, -, -, h3, -⟩ | ⟨e, -⟩ <;> rw [hb] at e <;> subst e
          · exact Nat.zero_le _
          · exact h2
          · exact h3
          · exact absurd rfl hn
        omega

/-! The stream with the pending bits left out (42_codec.md R165). -/

/-- `V` is the stream `R` without the p bits pending: R begins with a resolved bit and p copies of the other. -/
def Resolves (p : Nat) (R V : List Bool) : Prop :=
  ∃ (b : Bool) (T : List Bool), R = b :: (List.replicate p (!b) ++ T) ∧ V = b :: T

theorem Resolves.length_eq {p : Nat} {R V : List Bool} (h : Resolves p R V) : V.length + p = R.length := by
  obtain ⟨b, T, rfl, rfl⟩ := h
  simp only [List.length_cons, List.length_append, List.length_replicate]
  omega

theorem Resolves.eq_of_zero {R V : List Bool} (h : Resolves 0 R V) : V = R := by
  obtain ⟨b, T, rfl, rfl⟩ := h
  rfl

theorem Resolves.unique {p : Nat} {R V W : List Bool} (h : Resolves p R V) (h' : Resolves p R W) : V = W := by
  obtain ⟨b, T, rfl, rfl⟩ := h
  obtain ⟨c, U, hR, rfl⟩ := h'
  obtain ⟨rfl, hT⟩ := List.cons.inj hR
  rw [List.append_cancel_left hT]

/-- The view of what the encoder emits along its scaling steps leads to the view of what it emits after them
(42_codec.md R165, R167). -/
theorem exists_views {p : Params} {lo hi lo' hi' : Nat} {steps : List Band} (hscale : ScalesTo p lo hi steps lo' hi')
    {R V' : List Bool} :
    ∀ pend : Nat, Resolves (scaleBits pend steps).2 R V' →
      ∃ V, Resolves pend ((scaleBits pend steps).1 ++ R) V ∧ Views steps V V' := by
  induction hscale with
  | stop _ => exact fun pend h => ⟨V', h, .nil V'⟩
  | @step _ _ _ _ b bs _ hn _ ih =>
    intro pend h
    cases b with
    | e1 =>
      obtain ⟨V₁, hres, hviews⟩ := ih 0 h
      obtain rfl := hres.eq_of_zero
      exact ⟨_, ⟨false, _, by simp [scaleBits], rfl⟩, .cons (.e1 _) hviews⟩
    | e2 =>
      obtain ⟨V₁, hres, hviews⟩ := ih 0 h
      obtain rfl := hres.eq_of_zero
      exact ⟨_, ⟨true, _, by simp [scaleBits], rfl⟩, .cons (.e2 _) hviews⟩
    | e3 =>
      obtain ⟨V₁, ⟨c, T, hR, rfl⟩, hviews⟩ := ih (pend + 1) h
      refine ⟨c :: (!c) :: T, ⟨c, (!c) :: T, ?_, rfl⟩, .cons (.e3 c T) hviews⟩
      rw [scaleBits, hR, List.replicate_succ', List.append_assoc]
      rfl
    | none => exact absurd rfl hn

/-! An encode session as the bits it emits. -/

/-- PENDING after steps along which it fits is within its width. -/
theorem scaleBits_snd_le (steps : List Band) :
    ∀ pend : Nat, pend ≤ pendingMax → pendingFits pend steps = true → (scaleBits pend steps).2 ≤ pendingMax := by
  induction steps with
  | nil => exact fun _ h _ => h
  | cons b bs ih =>
    intro pend hpend hfits
    rw [pendingFits_cons, Bool.and_eq_true] at hfits
    rw [scaleBits_cons]
    exact ih _ (scaleBits_le_pendingMax hpend hfits.1) hfits.2

/-- The state with an operand in ARG0. -/
def withArg0 (x : Word) (s : State) : State := { s with arg0 := x }

/-- The bits, the results and the last frequencies of an encode session from s: the symbols, each along its scaling steps,
and then ENC_FINISH (42_codec.md R170, R171). -/
inductive Encodes : State → List Word → List Bool → List (Word × Word × Word) → List Nat → Prop
  | finish {s : State} (hinv : Inv s) (hs : s.sess = .enc) :
      Encodes s [] (decide (s.par.codeOneFourth.toNat ≤ s.low.toNat)
        :: List.replicate (s.pending.toNat + 1) (!decide (s.par.codeOneFourth.toNat ≤ s.low.toNat))) [] s.store.freqs
  | symbol {s : State} {x : Word} {xs : List Word} {steps : List Band} {lo hi : Nat} {B : List Bool}
      {rs : List (Word × Word × Word)} {F : List Nat} (hinv : Inv s) (hs : s.sess = .enc)
      (hx : x.toNat < s.par.symbolCount.toNat)
      (hscale : ScalesTo s.par (narrowLow s (cum s.store.freqs x.toNat) s.store.freqs.sum)
        (narrowHigh s (cum s.store.freqs (x.toNat + 1)) s.store.freqs.sum) steps lo hi)
      (hfits : pendingFits s.pending.toNat steps = true)
      (hrest : Encodes (encSymNext (withArg0 x s) steps lo hi) xs B rs F) :
      Encodes s (x :: xs) ((scaleBits s.pending.toNat steps).1 ++ B)
        ((x, word (cum s.store.freqs x.toNat), word (cum s.store.freqs (x.toNat + 1))) :: rs) F

/-- CODE_BITS as two more than the exponent of a quarter (40_configuration.md R101). -/
theorem Configured.exists_width {s : State} (h : Configured s) :
    ∃ n, s.par.codeBits.toNat = n + 2 ∧ s.par.codeOneFourth.toNat = 2 ^ n ∧ s.par.codeHalf.toNat = 2 ^ (n + 1) := by
  obtain ⟨hlo, -⟩ := h.codeBits_bounds
  obtain ⟨-, -, -, -, hfourth, hhalf, -⟩ := h.exact
  refine ⟨s.par.codeBits.toNat - 2, by omega, hfourth, ?_⟩
  rw [hhalf]
  congr 1
  omega

/-- The quarter bit and its followers put the window inside a range that no band applies to (42_codec.md R171). -/
theorem finish_window {p : Params} {n : Nat} (hfourth : p.codeOneFourth.toNat = 2 ^ n)
    (hhalf : p.codeHalf.toNat = 2 ^ (n + 1)) (hthree : p.codeThreeFourths.toNat = 3 * p.codeOneFourth.toNat)
    {lo hi : Nat} (hnone : bandOf p lo hi = .none) {Z : List Bool} (hZ : n ≤ Z.length) {b : Bool}
    (hb : b = decide (p.codeOneFourth.toNat ≤ lo)) :
    lo ≤ windowCode (n + 2) (b :: (!b) :: Z) ∧ windowCode (n + 2) (b :: (!b) :: Z) ≤ hi := by
  have hwindow : windowCode (n + 2) (b :: (!b) :: Z) = (b.toNat + 1) * 2 ^ n + shiftIn 0 (Z.take n) := by
    rw [windowCode, List.take_succ_cons, List.take_succ_cons]
    refine (shiftIn_eq_add (Z.take n) (2 * (2 * 0 + b.toNat) + (!b).toNat)).trans ?_
    rw [List.length_take, Nat.min_eq_left hZ]
    cases b <;> rfl
  have hrest : shiftIn 0 (Z.take n) < 2 ^ n := by
    have := shiftIn_lt (Z.take n) 0
    rwa [List.length_take, Nat.min_eq_left hZ, Nat.zero_add, Nat.one_mul] at this
  rw [pow_succ] at hhalf
  rw [hwindow]
  rcases bandOf_cases p lo hi with ⟨e, -⟩ | ⟨e, -⟩ | ⟨e, -⟩ | ⟨-, hhi, hlo, hout⟩
  case inr.inr.inr =>
    by_cases hq : p.codeOneFourth.toNat ≤ lo
    · rw [decide_eq_true hq] at hb
      rw [hb, Bool.toNat_true]
      omega
    · rw [decide_eq_false hq] at hb
      rw [hb, Bool.toNat_false]
      omega
  all_goals exact absurd (hnone.symm.trans e) (by decide)

/-- PENDING after ENC_SYM is the number of bits left pending along its steps. -/
theorem encSymNext_pending (s : State) {steps : List Band} (hfits : pendingFits s.pending.toNat steps = true)
    (lo hi : Nat) : (encSymNext s steps lo hi).pending.toNat = (scaleBits s.pending.toNat steps).2 :=
  toNat_word (Nat.lt_of_le_pred (Nat.two_pow_pos 64)
    (scaleBits_snd_le steps s.pending.toNat (Nat.le_pred_of_lt s.pending.isLt) hfits))

/-- The view of an encode session before a symbol leads along its steps to the view after it. -/
theorem exists_views_encSymNext {s : State} {x : Word} {steps : List Band} {lo hi lo' hi' : Nat}
    (hscale : ScalesTo s.par lo hi steps lo' hi') (hfits : pendingFits s.pending.toNat steps = true)
    {R V' : List Bool} (h : Resolves (encSymNext (withArg0 x s) steps lo' hi').pending.toNat R V') :
    ∃ V, Resolves s.pending.toNat ((scaleBits s.pending.toNat steps).1 ++ R) V ∧ Views steps V V' :=
  exists_views hscale s.pending.toNat ((encSymNext_pending (withArg0 x s) hfits lo' hi').symm ▸ h)

/-- What is left of the encoder's output, followed by enough bits and seen without the pending ones, is a value in the
encoder's range. -/
theorem Encodes.exists_view {s : State} {xs : List Word} {B : List Bool} {rs : List (Word × Word × Word)} {F : List Nat}
    (h : Encodes s xs B rs F) {Z : List Bool} (hZ : s.par.codeBits.toNat ≤ Z.length + 2) :
    ∃ V, Resolves s.pending.toNat (B ++ Z) V ∧ s.par.codeBits.toNat ≤ V.length
      ∧ s.low.toNat ≤ windowCode s.par.codeBits.toNat V ∧ windowCode s.par.codeBits.toNat V ≤ s.high.toNat := by
  induction h with
  | @finish s hinv hs =>
    have hlive := hinv.liveSession (.inl hs)
    obtain ⟨n, hn, hfourth, hhalf⟩ := hlive.configured.exists_width
    obtain ⟨-, hthree, -, -⟩ := hlive.configured.quarters
    rw [hn] at hZ ⊢
    generalize hq : decide (s.par.codeOneFourth.toNat ≤ s.low.toNat) = q
    refine ⟨q :: (!q) :: Z, ⟨q, (!q) :: Z, ?_, rfl⟩, ?_, ?_⟩
    · rw [List.replicate_succ', List.cons_append, List.append_assoc]
      rfl
    · simp only [List.length_cons]
      omega
    · exact finish_window hfourth hhalf hthree hlive.range.2.2 (by omega) hq.symm
  | @symbol s x xs steps lo hi B rs F hinv hs hx hscale hfits _ ih =>
    have hlive := hinv.liveSession (.inl hs)
    obtain ⟨n, hn, hfourth, hhalf⟩ := hlive.configured.exists_width
    obtain ⟨hnlo, hord, hnhi⟩ := hlive.narrow_order hx
    obtain ⟨-, -, -, hlo, hhi⟩ := hlive.scalesTo_bounded hx hscale
    obtain ⟨V', hres, hlen, hvlo, hvhi⟩ := ih hZ
    obtain ⟨V, hresV, hviews⟩ := exists_views_encSymNext hscale hfits hres
    have hlenV := hviews.length_eq
    have hcode : lo ≤ windowCode s.par.codeBits.toNat V' ∧ windowCode s.par.codeBits.toNat V' ≤ hi :=
      ⟨hlo.symm.trans_le hvlo, hvhi.trans_eq hhi⟩
    change s.par.codeBits.toNat ≤ V'.length at hlen
    rw [hn] at hcode hlen ⊢
    obtain ⟨-, -, hbounds⟩ := hviews.window hfourth hhalf _ _ _ _ hord hscale hlen
    obtain ⟨hwlo, hwhi⟩ := hbounds hcode
    refine ⟨V, ?_, by omega, hnlo.trans hwlo, hwhi.trans hnhi⟩
    rw [List.append_assoc]
    exact hresV

/-! The decoder beside the encoder. -/

/-- The decoder at d has before it the stream V: its window, primed, is the first bits of V, and the bits at hand are the
rest. -/
structure Sees (d : State) (V : List Bool) : Prop where
  code : primedCode d = windowCode d.par.codeBits.toNat V
  rest : (codeBits d).drop (primeBits d) = V.drop d.par.codeBits.toNat
  primes : primeBits d ≤ (codeBits d).length
  fills : d.par.codeBits.toNat ≤ V.length

/-- A decode session stands where an encode session stood: the same parameters, range and frequencies. -/
structure Beside (d s : State) : Prop where
  inv : Inv d
  dec : d.sess = .dec
  par : d.par = s.par
  low : d.low = s.low
  high : d.high = s.high
  freqs : d.store.freqs = s.store.freqs

theorem Beside.narrowLow_eq {d s : State} (h : Beside d s) (sl t : Nat) : narrowLow d sl t = narrowLow s sl t := by
  rw [narrowLow, narrowLow, h.low, h.high]

theorem Beside.narrowHigh_eq {d s : State} (h : Beside d s) (sh t : Nat) : narrowHigh d sh t = narrowHigh s sh t := by
  rw [narrowHigh, narrowHigh, h.low, h.high]

/-- CODE inside a symbol's narrowed range decodes to that symbol (42_codec.md R162, R174). -/
theorem DecodeSession.owner_of_narrowed {d : State} (h : DecodeSession d) {sym : Nat}
    (hsym : sym < d.par.symbolCount.toNat)
    (hlo : narrowLow d (cum d.store.freqs sym) d.store.freqs.sum ≤ primedCode d)
    (hhi : primedCode d ≤ narrowHigh d (cum d.store.freqs (sym + 1)) d.store.freqs.sum) :
    cum d.store.freqs sym ≤ primedValue d ∧ primedValue d < cum d.store.freqs (sym + 1) := by
  obtain ⟨ht, hr⟩ := h.total_le_range
  obtain ⟨hlt, hle⟩ := h.symbol_range hsym
  obtain ⟨hcut, -⟩ := narrowed_bounds ht hr hlt hle
  obtain ⟨hlower, hupper⟩ := decoded_iff (r := d.high.toNat - d.low.toNat + 1) (Nat.succ_pos _) ht
    h.primedCode_bounds.1 (cum d.store.freqs sym) (cum d.store.freqs (sym + 1))
  refine ⟨hlower.2 hlo, hupper.2 ?_⟩
  unfold narrowHigh at hhi
  generalize (d.high.toNat - d.low.toNat + 1) * cum d.store.freqs sym / d.store.freqs.sum = a at hcut
  generalize (d.high.toNat - d.low.toNat + 1) * cum d.store.freqs (sym + 1) / d.store.freqs.sum = b at hcut hhi ⊢
  omega

/-- One DEC_SYM beside one ENC_SYM: it decodes the symbol with its results, and stands beside the encoder again, before
the rest of the stream, unless the symbol was SYMBOL_EOF. -/
theorem Beside.decSym {d s : State} (h : Beside d s) (hlive : LiveSession s) {x : Word}
    (hx : x.toNat < s.par.symbolCount.toNat) {steps : List Band} {lo hi : Nat}
    (hscale : ScalesTo s.par (narrowLow s (cum s.store.freqs x.toNat) s.store.freqs.sum)
      (narrowHigh s (cum s.store.freqs (x.toNat + 1)) s.store.freqs.sum) steps lo hi)
    {V V' : List Bool} (hsees : Sees d V) (hviews : Views steps V V') (hlen : s.par.codeBits.toNat ≤ V'.length)
    (hlo : lo ≤ windowCode s.par.codeBits.toNat V') (hhi : windowCode s.par.codeBits.toNat V' ≤ hi) :
    exec .decSym d = .next (decSymNext d x.toNat steps lo hi)
      ∧ (decSymNext d x.toNat steps lo hi).store.freqs = (encSymNext (withArg0 x s) steps lo hi).store.freqs
      ∧ (x ≠ s.par.symbolEof → Beside (decSymNext d x.toNat steps lo hi) (encSymNext (withArg0 x s) steps lo hi)
        ∧ Sees (decSymNext d x.toNat steps lo hi) V') := by
  have hdec := h.inv.decodeSession h.dec
  obtain ⟨n, hn, hfourth, hhalf⟩ := hlive.configured.exists_width
  obtain ⟨-, hord, -⟩ := hlive.narrow_order hx
  have hwindow := hviews.window hfourth hhalf _ _ _ _ hord hscale (hn ▸ hlen)
  rw [← hn] at hwindow
  obtain ⟨hafter, hrest, hbounds⟩ := hwindow
  obtain ⟨hnlo, hnhi⟩ := hbounds ⟨hlo, hhi⟩
  have hviewLen := hviews.length_eq
  have hxd : x.toNat < d.par.symbolCount.toNat := h.par ▸ hx
  have hscaleD : ScalesTo d.par (narrowLow d (cum d.store.freqs x.toNat) d.store.freqs.sum)
      (narrowHigh d (cum d.store.freqs (x.toNat + 1)) d.store.freqs.sum) steps lo hi := by
    rw [h.par, h.freqs, h.narrowLow_eq, h.narrowHigh_eq]
    exact hscale
  have hcode : primedCode d = windowCode s.par.codeBits.toNat V := h.par ▸ hsees.code
  have hdrop : (codeBits d).drop (primeBits d) = V.drop s.par.codeBits.toNat := h.par ▸ hsees.rest
  obtain ⟨hvlo, hvhi⟩ := hdec.owner_of_narrowed hxd (by rw [hcode, h.freqs, h.narrowLow_eq]; exact hnlo)
    (by rw [hcode, h.freqs, h.narrowHigh_eq]; exact hnhi)
  have hbits : primeBits d + steps.length ≤ (codeBits d).length := by
    have hcount := congrArg List.length hdrop
    have hprimes := hsees.primes
    rw [List.length_drop, List.length_drop] at hcount
    omega
  have hexec := decSymResult d x.toNat steps lo hi h.inv h.dec hxd hvlo hvhi hscaleD hbits
  have hcount : (updateFreqs s.par.freqMax.toNat x.toNat s.store.freqs).length < 2 ^ 64 := by
    rw [updateFreqs_length]
    exact hlive.model.length_lt
  have hfreqs : (decSymNext d x.toNat steps lo hi).store.freqs
      = (encSymNext (withArg0 x s) steps lo hi).store.freqs := by
    have hd : (decSymNext d x.toNat steps lo hi).store.freqs = updateFreqs s.par.freqMax.toNat x.toNat s.store.freqs := by
      rw [decSymNext, h.par, h.freqs]
      exact Store.freqs_ofFreqs _ hcount
    rw [hd]
    exact (Store.freqs_ofFreqs _ hcount).symm
  refine ⟨hexec, hfreqs, fun hne => ?_⟩
  have hnotEof : ¬word x.toNat = d.par.symbolEof := by
    rw [word_toNat_self, h.par]
    exact hne
  have hwin : windowAfter d.par (primedCode d) steps ((codeBits d).drop (primeBits d))
      = windowCode s.par.codeBits.toNat V' := by
    rw [h.par, hcode, hdrop]
    exact hafter
  obtain ⟨-, -, hmax, -, -⟩ := hlive.scalesTo_bounded hx hscale
  have hmaxlt := s.par.codeMax.isLt
  have hnext : (codeBits (decSymNext d x.toNat steps lo hi)) = V'.drop s.par.codeBits.toNat := by
    have hat : codeBits (decSymNext d x.toNat steps lo hi) = codeBits (afterCodeBits (primeBits d + steps.length) d) :=
      codeBits_congr rfl rfl rfl
    rw [hat, codeBits_afterCodeBits _ d hbits, ← List.drop_drop, hdrop, hrest]
  refine ⟨⟨h.inv.of_exec hexec, if_neg hnotEof, h.par, rfl, rfl, hfreqs⟩, ?_, ?_, Nat.zero_le _, h.par ▸ hlen⟩
  · have hcodeNext : (decSymNext d x.toNat steps lo hi).code.toNat = windowCode s.par.codeBits.toNat V' := by
      rw [decSymNext, hwin]
      exact toNat_word (by omega)
    change (decSymNext d x.toNat steps lo hi).code.toNat = windowCode d.par.codeBits.toNat V'
    rw [hcodeNext, h.par]
  · change (codeBits (decSymNext d x.toNat steps lo hi)).drop 0 = V'.drop d.par.codeBits.toNat
    rw [List.drop_zero, hnext, h.par]

/-! Commands issued one after the other (30_encoding.md R88). -/

/-- A command with no operand written is the command. -/
theorem serveAll_assemble_nil (i : Instr) (s : State) : serveAll (assemble i []) s = exec i s := by
  have hserve : serve (wr 0x000 (encode i)) s = exec i s := by
    rw [wr, serve, if_pos (show accessWellFormed 0x000 64 = true from rfl), regAt_eq_cmd.2 rfl, hostWrite,
      issue_of_decode (decode_encode i)]
  rw [assemble, List.zipWith_nil_right, List.nil_append, serveAll, hserve]
  cases exec i s <;> rfl

/-- A command with one operand is the command on the state with the operand in ARG0. -/
theorem serveAll_assemble_one (i : Instr) (x : Word) (s : State) :
    serveAll (assemble i [x]) s = exec i (withArg0 x s) :=
  serveAll_assemble_nil i (withArg0 x s)

/-- A sequence of commands runs when its first does with OK, and then the rest (42_codec.md R180). -/
theorem traceCommands_cons {i : Instr} {operands : List Word} {rest : List (Instr × List Word)} {s e : State}
    {rs : List (Word × Word × Word)} :
    traceCommands ((i, operands) :: rest) s = some (rs, e) ↔
      ∃ t rs', serveAll (assemble i operands) s = .next t ∧ t.err = .ok ∧ traceCommands rest t = some (rs', e)
        ∧ rs = (t.res0, t.res1, t.res2) :: rs' := by
  rw [traceCommands]
  cases hserve : serveAll (assemble i operands) s with
  | next t =>
    by_cases hok : t.err = .ok
    · cases htrace : traceCommands rest t with
      | none => simp [hok, htrace]
      | some x => simp [hok, htrace, Prod.ext_iff, eq_comm, and_comm]
    · simp [hok]
  | fault f => simp
  | refused r => simp

/-- A DEC_SYM that ends with OK, and then the commands after it. -/
theorem traceCommands_decSym_cons {rest : List (Instr × List Word)} {d u w : State} {r : Word × Word × Word}
    {rs : List (Word × Word × Word)} (hexec : exec .decSym d = .next u) (hok : u.err = .ok)
    (hr : (u.res0, u.res1, u.res2) = r) (hrest : traceCommands rest u = some (rs, w)) :
    traceCommands ((Instr.decSym, []) :: rest) d = some (r :: rs, w) :=
  traceCommands_cons.2 ⟨u, rs, (serveAll_assemble_nil .decSym d).trans hexec, hok, hrest, by rw [hr]⟩

/-- ENC_FINISH that ends with OK emits its bits and the flush and keeps the model (42_codec.md R171). -/
theorem encFinish_ok {s t : State} (hs : s.sess = .enc) (h : exec .encFinish s = .next t) (hok : t.err = .ok) :
    t.sinkLog = s.sinkLog ++ finishEvents s ∧ t.store = s.store := by
  rcases Nat.lt_or_ge s.pending.toNat (2 ^ 64 - 1) with hpend | hpend
  · rw [exec_encFinish_eq hs hpend] at h
    obtain ⟨u, hu, rfl⟩ | ⟨d, u, hu, rfl⟩ := Run.settle_eq_next.1 h
    · obtain ⟨_, w, hw, hdone⟩ := Run.bind_eq_done.1 hu
      cases hdone
      rw [sinkEvents_done hw]
      exact ⟨rfl, rfl⟩
    · have hraise := Run.raisesError_bind (sinkEvents_raisesError (finishEvents s) s) (fun _ _ => Run.raisesError_done) d u hu
      exact absurd hok (Detail.kind_ne_ok hraise)
  · rw [exec_encFinish_overflow hs (Nat.le_antisymm (Nat.le_pred_of_lt s.pending.isLt) hpend)] at h
    cases h
    cases hok

/-- An encode session's commands after INIT_ENC that all end with OK emit the bits of `Encodes`. -/
theorem exists_encodes (xs : List Word) :
    ∀ {s e : State} {rs : List (Word × Word × Word)}, Inv s → s.sess = .enc →
      traceCommands (xs.map (fun x => (Instr.encSym, [x])) ++ [(.encFinish, [])]) s = some (rs, e) →
      ∃ B rs', Encodes s xs B rs' e.store.freqs ∧ e.sinkLog = s.sinkLog ++ (B.map SinkEvent.bit ++ [.flush])
        ∧ rs.take xs.length = rs' := by
  induction xs with
  | nil =>
    intro s e rs hinv hs h
    obtain ⟨t, rs', hserve, hok, htrace, -⟩ := traceCommands_cons.1 h
    cases htrace
    rw [serveAll_assemble_nil] at hserve
    obtain ⟨hlog, hstore⟩ := encFinish_ok hs hserve hok
    rw [hstore]
    exact ⟨_, [], .finish hinv hs, hlog, rfl⟩
  | cons x xs ih =>
    intro s e rs hinv hs h
    obtain ⟨t, rs', hserve, hok, htrace, rfl⟩ := traceCommands_cons.1 h
    rw [serveAll_assemble_one] at hserve
    have hinv₀ : Inv (withArg0 x s) := hinv
    obtain ⟨hx, steps, lo, hi, hscale, hfits, rfl⟩ := hinv₀.encSym_ok hs hserve hok
    obtain ⟨B, rs'', henc, hlog, hrs⟩ := ih (hinv₀.of_exec hserve) hs htrace
    refine ⟨_, _, .symbol hinv hs hx hscale hfits henc, ?_, ?_⟩
    · rw [hlog, List.map_append, List.append_assoc]
      exact List.append_assoc _ _ _
    · rw [List.length_cons, List.take_succ_cons, hrs]
      rfl

/-- One DEC_SYM before the stream of an encode session: it returns the next symbol with the results of its ENC_SYM, and
stands before the rest of the stream unless that symbol was SYMBOL_EOF. -/
theorem Beside.decSym_of_encodes {d s : State} (h : Beside d s) (hinv : Inv s) (hs : s.sess = .enc) {x : Word}
    (hx : x.toNat < s.par.symbolCount.toNat) {steps : List Band} {lo hi : Nat}
    (hscale : ScalesTo s.par (narrowLow s (cum s.store.freqs x.toNat) s.store.freqs.sum)
      (narrowHigh s (cum s.store.freqs (x.toNat + 1)) s.store.freqs.sum) steps lo hi)
    (hfits : pendingFits s.pending.toNat steps = true) {xs : List Word} {B Z V : List Bool}
    {rs : List (Word × Word × Word)} {F : List Nat}
    (hrest : Encodes (encSymNext (withArg0 x s) steps lo hi) xs B rs F)
    (hZ : s.par.codeBits.toNat ≤ Z.length + 2)
    (hres : Resolves s.pending.toNat ((scaleBits s.pending.toNat steps).1 ++ B ++ Z) V) (hsees : Sees d V) :
    ∃ u V', exec .decSym d = .next u ∧ u.err = .ok
      ∧ (u.res0, u.res1, u.res2) = (x, word (cum s.store.freqs x.toNat), word (cum s.store.freqs (x.toNat + 1)))
      ∧ u.store.freqs = (encSymNext (withArg0 x s) steps lo hi).store.freqs ∧ (x = s.par.symbolEof → u.sess = .done)
      ∧ (x ≠ s.par.symbolEof → Beside u (encSymNext (withArg0 x s) steps lo hi)
        ∧ Resolves (encSymNext (withArg0 x s) steps lo hi).pending.toNat (B ++ Z) V' ∧ Sees u V') := by
  have hlive := hinv.liveSession (.inl hs)
  obtain ⟨V', hres', hlen, hvlo, hvhi⟩ := hrest.exists_view hZ
  obtain ⟨W, hresW, hviews⟩ := exists_views_encSymNext hscale hfits hres'
  rw [← List.append_assoc] at hresW
  obtain rfl := hres.unique hresW
  obtain ⟨-, -, -, hlo, hhi⟩ := hlive.scalesTo_bounded hx hscale
  obtain ⟨hexec, hfreqs, hnext⟩ := h.decSym hlive hx hscale hsees hviews hlen (hlo.symm.trans_le hvlo)
    (hvhi.trans_eq hhi)
  refine ⟨_, V', hexec, rfl, ?_, hfreqs, fun heof => ?_, fun hne => ?_⟩
  · rw [← h.freqs, decSymNext, word_toNat_self]
  · exact if_pos (by rw [word_toNat_self, h.par, heof])
  · exact ⟨(hnext hne).1, hres', (hnext hne).2⟩

/-- The decode session beside an encode session that ends with SYMBOL_EOF returns the same results and ends DONE with the
same frequencies. -/
theorem Beside.decodes {eof : Word} (ys : List Word) :
    ∀ {s d : State} {B Z V : List Bool} {rs : List (Word × Word × Word)} {F : List Nat}, Beside d s →
      s.par.symbolEof = eof → (∀ y ∈ ys, y ≠ eof) → Encodes s (ys ++ [eof]) B rs F →
      s.par.codeBits.toNat ≤ Z.length + 2 → Resolves s.pending.toNat (B ++ Z) V → Sees d V →
      ∃ u, traceCommands (List.replicate (ys.length + 1) (Instr.decSym, [])) d = some (rs, u) ∧ u.sess = .done
        ∧ u.store.freqs = F := by
  induction ys with
  | nil =>
    intro s d B Z V rs F h heof _ henc hZ hres hsees
    cases henc with
    | symbol hinv hs hx hscale hfits hrest =>
      obtain ⟨u, -, hexec, hok, hresults, hfreqs, hdone, -⟩ :=
        h.decSym_of_encodes hinv hs hx hscale hfits hrest hZ hres hsees
      cases hrest with
      | finish => exact ⟨u, traceCommands_decSym_cons hexec hok hresults rfl, hdone heof.symm, hfreqs⟩
  | cons y ys ih =>
    intro s d B Z V rs F h heof hne henc hZ hres hsees
    cases henc with
    | symbol hinv hs hx hscale hfits hrest =>
      obtain ⟨u, V', hexec, hok, hresults, -, -, hnext⟩ :=
        h.decSym_of_encodes hinv hs hx hscale hfits hrest hZ hres hsees
      obtain ⟨hbeside, hres', hsees'⟩ := hnext (heof ▸ hne y List.mem_cons_self)
      obtain ⟨w, htrace, hdone, hfreqs⟩ :=
        ih hbeside heof (fun z hz => hne z (List.mem_cons_of_mem _ hz)) hrest hZ hres' hsees'
      exact ⟨w, traceCommands_decSym_cons hexec hok hresults htrace, hdone, hfreqs⟩

/-! The two sessions from their INIT commands (42_codec.md R160, R161). -/

theorem leadingBits_map_bit (S : List Bool) : leadingBits (S.map SourceItem.bit) = S := by
  induction S with
  | nil => rfl
  | cons b S ih => exact congrArg (List.cons b) ih

/-- The bits among events that are all bits but a flush at the end. -/
theorem sinkBits_bits_flush (B : List Bool) : sinkBits (B.map SinkEvent.bit ++ [.flush]) = B := by
  induction B with
  | nil => rfl
  | cons b B ih => exact congrArg (List.cons b) ih

/-- A decode session not yet primed, whose source delivers the bits S and then Eof, sees S and the 0 bits of its tail
budget (42_codec.md R172, R173). -/
theorem sees_of_fresh {d : State} {S : List Bool} (hprimed : d.primed = false) (htail : d.tail = 0)
    (hsource : d.source = { queue := S.map SourceItem.bit, after := some .eof })
    (hlen : d.par.codeBits.toNat ≤ (S ++ List.replicate (tailBudget d.par.codeBits.toNat) false).length) :
    Sees d (S ++ List.replicate (tailBudget d.par.codeBits.toNat) false) := by
  have hcodeBits : codeBits d = S ++ List.replicate (tailBudget d.par.codeBits.toNat) false := by
    rw [codeBits, hsource, htail]
    simp [leadingBits_map_bit]
  have hprimeBits : primeBits d = d.par.codeBits.toNat := by
    simp [primeBits, hprimed]
  refine ⟨?_, by rw [hcodeBits, hprimeBits], by rwa [hcodeBits, hprimeBits], hlen⟩
  rw [primedCode, hcodeBits, hprimed]
  rfl

/-- INIT_ENC with OK starts an encode session and emits nothing (42_codec.md R160). -/
theorem initEnc_ok {s t : State} (h : exec .initEnc s = .next t) (hok : t.err = .ok) :
    ∃ v, t = (startSession .enc v s).succeed := by
  obtain ⟨-, hraise⟩ | ⟨-, v, -, hstart⟩ | ⟨-, -, hraise⟩ := initSession_cases .enc s
  · cases hraise.symm.trans h
    cases hok
  · cases hstart.symm.trans h
    exact ⟨v, rfl⟩
  · cases hraise.symm.trans h
    cases hok

/-- INIT_DEC with ARG0 0 or 1 starts a decode session in every configured state (42_codec.md R161). -/
theorem exists_exec_initDec {s : State} (hs : s.sess ≠ .unconf) (harg : s.arg0.toNat ≤ 1) :
    ∃ v, exec .initDec s = .next (startSession .dec v s).succeed := by
  cases hv : variantOfOperand s.arg0.toNat with
  | some v => exact ⟨v, initSession_of_some .dec hs hv⟩
  | none => exact absurd (variantOfOperand_eq_none.1 hv) (Nat.not_lt.2 harg)

/-- A fresh decode session stands beside a fresh encode session of the same parameters. -/
theorem beside_startSession {d s : State} {vd ve : Variant} (hinv : Inv (startSession .dec vd d).succeed)
    (hpar : d.par = s.par) : Beside (startSession .dec vd d).succeed (startSession .enc ve s).succeed :=
  ⟨hinv, rfl, hpar, rfl, congrArg Params.codeMax hpar, by rw [freqs_startSession, freqs_startSession, hpar]⟩

/-- Settles O59: the bits of the encode session, with the pending ones left out of view, are at each symbol a stream whose
window lies in the symbol's narrowed range; the fresh decode session stands before that stream. -/
theorem roundTrip : Obligations.RoundTrip := by
  unfold Obligations.RoundTrip
  intro s d e sv dv symbols after results hinvS hinvD hs hd hpar hdv hsymbols henc hsource
  obtain ⟨t, rs, hserve, hok, htrace, rfl⟩ := traceCommands_cons.1 henc
  rw [serveAll_assemble_one] at hserve
  have hinvT : Inv t := Inv.of_exec (s := withArg0 sv s) hinvS hserve
  obtain ⟨ve, rfl⟩ := initEnc_ok hserve hok
  have htrace' : traceCommands ((symbols ++ [s.par.symbolEof]).map (fun x => (Instr.encSym, [x])) ++ [(.encFinish, [])])
      (startSession .enc ve (withArg0 sv s)).succeed = some (rs, e) := by
    rw [List.map_append, List.append_assoc]
    exact htrace
  obtain ⟨B, rs', hencodes, hlog, hrs⟩ := exists_encodes _ hinvT rfl htrace'
  have hbits : sinkBits (e.sinkLog.drop s.sinkLog.length) = B := by
    rw [hlog]
    exact (congrArg sinkBits List.drop_left).trans (sinkBits_bits_flush B)
  rw [hbits] at hsource
  obtain ⟨vd, hdec⟩ := exists_exec_initDec (s := withArg0 dv d) hd hdv
  have hinvU : Inv (startSession .dec vd (withArg0 dv d)).succeed := Inv.of_exec (s := withArg0 dv d) hinvD hdec
  have hbeside : Beside (startSession .dec vd (withArg0 dv d)).succeed (startSession .enc ve (withArg0 sv s)).succeed :=
    beside_startSession hinvU hpar
  have hZ : s.par.codeBits.toNat ≤ (after ++ List.replicate (tailBudget s.par.codeBits.toNat) false).length + 2 := by
    rw [List.length_append, List.length_replicate, tailBudget]
    omega
  obtain ⟨V, hres, hlen, -⟩ := hencodes.exists_view hZ
  have hV : V = B ++ after ++ List.replicate (tailBudget d.par.codeBits.toNat) false := by
    rw [Resolves.eq_of_zero hres, List.append_assoc, hpar]
  have hsees : Sees (startSession .dec vd (withArg0 dv d)).succeed V := by
    subst hV
    exact sees_of_fresh rfl rfl hsource (le_of_eq_of_le (congrArg (fun p : Params => p.codeBits.toNat) hpar) hlen)
  have hne : ∀ y ∈ symbols, y ≠ s.par.symbolEof := fun y hy h => absurd (hsymbols y hy) (h ▸ Nat.lt_irrefl _)
  obtain ⟨u, hdecodes, hdone, hfreqs⟩ := hbeside.decodes symbols rfl hne hencodes hZ hres hsees
  refine ⟨_, u, traceCommands_cons.2 ⟨_, rs', (serveAll_assemble_one .initDec dv d).trans hdec, rfl, hdecodes, rfl⟩,
    hdone, ?_, hfreqs⟩
  rw [List.length_append] at hrs
  exact hrs.symm

end Sys2Proof.Machine
